-- ==== Sys2Proof/Word.lean ====
section
/-! DEFINITION. The words of RLWE-CORE: bytes, 32-bit words, slot numbers, polynomials, byte strings and command words (00_scope.md R8; 10_state.md R40). -/

namespace Sys2Proof

/-- A byte is 8 bits (R8). -/
abbrev Byte := BitVec 8

/-- A word is 32 bits (R8); a coefficient is one word (R40). -/
abbrev Word := BitVec 32

/-- A command word is 64 bits (R8, R110). -/
abbrev Command := BitVec 64

/-- A slot field: 3 bits that name one of P0..P7 directly (R112). -/
abbrev Slot := BitVec 3

/-- A byte offset into BMEM, or a length: 16 bits (R113). -/
abbrev Offset := BitVec 16

/-- The 8-bit immediate IMM8 (R114). -/
abbrev Imm8 := BitVec 8

/-- A byte sequence of `n` bytes, the byte at the lowest address first (R10). -/
abbrev Bytes (n : Nat) := Vector Byte n

/-- The contents of one polynomial slot: 1024 words (R40). -/
abbrev Poly := Vector Word 1024

end Sys2Proof
end

