-- ==== Sys2Proof/Config.lean ====
section
/-! DEFINITION. What this hardware fixes (00_scope.md R4–R7), the status enumeration (60_exceptions.md R270), and the two collaborator functions, about which nothing is assumed (10_state.md R61). -/

namespace Sys2Proof

/-- The closed enumeration of status codes, in the order of their values 0..8 (R270). -/
inductive Status where
  | success
  | genericError
  | testError
  | unknown
  | notImplemented
  | outOfMemory
  | invalidParameter
  | sharedKeyError
  | tooManyIterations
  deriving DecidableEq, Repr, Inhabited

namespace Config

/-- N, the number of coefficients of a polynomial (R4). -/
def n : Nat := 1024

/-- q, the modulus (R4). -/
def q : Nat := 12289

/-- PSI, the primitive 2048-th root of unity; this hardware takes 7 (R5, 00_scope.md §4; log 22). -/
def psi : Nat := 7

/-- PSIINV, the inverse of PSI modulo q (R161, R162). -/
def psiInv : Nat := 8778

/-- The multiplicative order of PSI modulo q (R5). -/
def psiOrder : Nat := 2048

/-- Ninv, the inverse of N modulo q (R161, R162). -/
def nInv : Nat := 12277

/-- BMEM_BYTES; this hardware takes 8192 (00_scope.md §4, R39; log 22). -/
def bmemBytes : Nat := 8192

/-- Q4 of R7. -/
def q4 : Int := 3073

/-- Q2 of R7. -/
def q2 : Int := 6145

/-- Q34 of R7. -/
def q34 : Int := 9217

/-- Q of R7. -/
def q1 : Int := 12289

/-- Q54 of R7. -/
def q54 : Int := 15362

/-- Q32 of R7. -/
def q32 : Int := 18434

/-- Q74 of R7. -/
def q74 : Int := 21506

/-- `Stream(seed, nonce, n)`, the StreamOutput collaborator: a deterministic function about which nothing else is assumed (R60, R61).
The data has the requested length (R62; log 3). -/
opaque stream (seed : Bytes 32) (nonce : Bytes 8) (n : Nat) : Status × Bytes n

/-- `Xof(seed, n)`, the ExtendableOutput collaborator: a deterministic function about which nothing else is assumed (R60, R61).
The data has the requested length (R62; log 3). -/
opaque xof (seed : Bytes 32) (n : Nat) : Status × Vector Word n

end Config

end Sys2Proof
end

