-- ==== Sys2Proof/Syntax.lean ====
section
/-! DEFINITION. The 23 commands of RLWE-CORE, one constructor per row of the opcode table (30_encoding.md R118, R119, R122). -/

namespace Sys2Proof

/-- A command with its operands, destinations first as in the assembler syntax of R122. -/
inductive Instr where
  /-- `NOP` (R260). -/
  | nop
  /-- `REDONCE pd, pa` (R140). -/
  | redonce (d a : Slot)
  /-- `TWORED pd, pa` (R141). -/
  | twored (d a : Slot)
  /-- `CORR pd, pa` (R142). -/
  | corr (d a : Slot)
  /-- `SMUL pd, pa, #k` (R143). -/
  | smul (d a : Slot) (k : Imm8)
  /-- `NTTF pd, pa` (R163). -/
  | nttf (d a : Slot)
  /-- `NTTI pd, pa` (R164). -/
  | ntti (d a : Slot)
  /-- `PMUL pd, pa, pb` (R180). -/
  | pmul (d a b : Slot)
  /-- `PMULADD pd, pa, pb, pc` (R181). -/
  | pmuladd (d a b c : Slot)
  /-- `GENA pd, @seed` (R190). -/
  | gena (d : Slot) (seed : Offset)
  /-- `SAMPLE pd, @seed, #nonce` (R192). -/
  | sample (d : Slot) (seed : Offset) (nonce : Imm8)
  /-- `ENC14 @dst, pa` (R210). -/
  | enc14 (dst : Offset) (a : Slot)
  /-- `DEC14 pd, @src` (R211). -/
  | dec14 (d : Slot) (src : Offset)
  /-- `ENCR @dst, pr` (R212). -/
  | encr (dst : Offset) (r : Slot)
  /-- `DECR pd, @src` (R213). -/
  | decr (d : Slot) (src : Offset)
  /-- `ENCA @dst, pb, @seed` (R214). -/
  | enca (dst : Offset) (b : Slot) (seed : Offset)
  /-- `DECA pd, @seeddst, @src` (R215). -/
  | deca (d : Slot) (seedDst src : Offset)
  /-- `ENCB @dst, pu, pr` (R216). -/
  | encb (dst : Offset) (u r : Slot)
  /-- `DECB pu, pr, @src` (R217). -/
  | decb (u r : Slot) (src : Offset)
  /-- `HELPREC pr, px, @seed, #nonce` (R240). -/
  | helprec (r x : Slot) (seed : Offset) (nonce : Imm8)
  /-- `REC @key, px, pr` (R243). -/
  | recKey (key : Offset) (x r : Slot)
  /-- `ZEROP pd` (R261). -/
  | zerop (d : Slot)
  /-- `ZEROB @start, #len` (R262). -/
  | zerob (start len : Offset)
  deriving DecidableEq, Repr

end Sys2Proof
end

