-- ==== Sys2Proof/Machine/Regions.lean ====
section
/-! DEFINITION. The operand checks of a command: the scalar of SMUL, the BMEM regions of the table of R119 and the range check R116, the two slots of DECB (30_encoding.md; 60_exceptions.md R272). -/

namespace Sys2Proof.Machine

/-- A range of BMEM that a command reads or writes. -/
structure Region where
  off : Nat
  len : Nat
  deriving DecidableEq, Repr

/-- What the checks of R272 look at in a command's operand values. -/
structure OperandFacts where
  /-- the command is SMUL with k = 0 -/
  zeroScalar : Bool
  /-- the BMEM regions of the command (R119, column "bytes") -/
  regions : List Region
  /-- the command is DECB with S0 = S1 -/
  sameSlot : Bool
  deriving DecidableEq, Repr

/-- The operand facts of a command that has only BMEM regions to check. -/
def OperandFacts.ofRegions (rs : List Region) : OperandFacts := ⟨false, rs, false⟩

/-- The rows of R119, with the operand conditions of R143 and R217. -/
def operandFacts : Instr → OperandFacts
  | .nop => .ofRegions []
  | .redonce _ _ => .ofRegions []
  | .twored _ _ => .ofRegions []
  | .corr _ _ => .ofRegions []
  | .smul _ _ k => ⟨k == 0#8, [], false⟩
  | .nttf _ _ => .ofRegions []
  | .ntti _ _ => .ofRegions []
  | .pmul _ _ _ => .ofRegions []
  | .pmuladd _ _ _ _ => .ofRegions []
  | .gena _ seed => .ofRegions [⟨seed.toNat, 32⟩]
  | .sample _ seed _ => .ofRegions [⟨seed.toNat, 32⟩]
  | .enc14 dst _ => .ofRegions [⟨dst.toNat, 1792⟩]
  | .dec14 _ src => .ofRegions [⟨src.toNat, 1792⟩]
  | .encr dst _ => .ofRegions [⟨dst.toNat, 256⟩]
  | .decr _ src => .ofRegions [⟨src.toNat, 256⟩]
  | .enca dst _ seed => .ofRegions [⟨dst.toNat, 1824⟩, ⟨seed.toNat, 32⟩]
  | .deca _ seedDst src => .ofRegions [⟨src.toNat, 1824⟩, ⟨seedDst.toNat, 32⟩]
  | .encb dst _ _ => .ofRegions [⟨dst.toNat, 2048⟩]
  | .decb u r src => ⟨false, [⟨src.toNat, 2048⟩], u == r⟩
  | .helprec _ _ seed _ => .ofRegions [⟨seed.toNat, 32⟩]
  | .recKey key _ _ => .ofRegions [⟨key.toNat, 32⟩]
  | .zerop _ => .ofRegions []
  | .zerob start len => .ofRegions [⟨start.toNat, len.toNat⟩]

/-- The byte-range check O + L ≤ BMEM_BYTES (R116). -/
def regionOk (r : Region) : Bool := decide (r.off + r.len ≤ Config.bmemBytes)

/-- Why operand values are refused with InvalidParameter (R272). -/
inductive OperandError where
  /-- SMUL with k = 0 (R143) -/
  | zeroScalar
  /-- a BMEM region beyond BMEM_BYTES (R116) -/
  | byteRange
  /-- DECB with S0 = S1 (R217) -/
  | sameSlot
  deriving DecidableEq, Repr

/-- The operand checks in the order of R272; the first that fails is the answer. -/
def operandError (i : Instr) : Option OperandError :=
  let f := operandFacts i
  if f.zeroScalar then some .zeroScalar
  else if !(f.regions.all regionOk) then some .byteRange
  else if f.sameSlot then some .sameSlot
  else none

end Sys2Proof.Machine
end

