-- ==== Sys2Proof/WellFormed.lean ====
section
/-! DEFINITION. Well-formed commands: those whose operand values pass every check of 60_exceptions.md R272 (R116, R143, R217). -/

namespace Sys2Proof

/-- The command passes the operand checks of R272. -/
abbrev Instr.WellFormed (i : Instr) : Prop := Machine.operandError i = none

end Sys2Proof
end

