-- ==== Sys2Proof/Decode.lean ====
section
/-! DEFINITION. The command encoding C64 (30_encoding.md R110–R121): a decoder, total on 64-bit words and rejecting by name, and after it the encoder. -/

namespace Sys2Proof

/-- The assigned opcodes (R118). -/
inductive Op where
  | nop | redonce | twored | corr | smul | nttf | ntti | pmul | pmuladd | gena | sample
  | enc14 | dec14 | encr | decr | enca | deca | encb | decb | helprec | recKey | zerop | zerob
  deriving DecidableEq, Repr

/-- The opcode map (R118). -/
def Op.code : Op → BitVec 6
  | .nop => 0x00#6
  | .redonce => 0x01#6
  | .twored => 0x02#6
  | .corr => 0x03#6
  | .smul => 0x04#6
  | .nttf => 0x08#6
  | .ntti => 0x09#6
  | .pmul => 0x0C#6
  | .pmuladd => 0x0D#6
  | .gena => 0x10#6
  | .sample => 0x11#6
  | .enc14 => 0x18#6
  | .dec14 => 0x19#6
  | .encr => 0x1A#6
  | .decr => 0x1B#6
  | .enca => 0x1C#6
  | .deca => 0x1D#6
  | .encb => 0x1E#6
  | .decb => 0x1F#6
  | .helprec => 0x20#6
  | .recKey => 0x21#6
  | .zerop => 0x28#6
  | .zerob => 0x29#6

/-- Every assigned opcode, in the order of R118. -/
def Op.all : List Op :=
  [.nop, .redonce, .twored, .corr, .smul, .nttf, .ntti, .pmul, .pmuladd, .gena, .sample,
   .enc14, .dec14, .encr, .decr, .enca, .deca, .encb, .decb, .helprec, .recKey, .zerop, .zerob]

/-- Looking OP up in the opcode map (R111); `none` is an unassigned value (R120). -/
def Op.ofCode (c : BitVec 6) : Option Op := Op.all.find? fun o => o.code == c

/-- The operand fields of a command word (R110). -/
structure Fields where
  s0 : Slot
  s1 : Slot
  s2 : Slot
  s3 : Slot
  imm8 : Imm8
  boff0 : Offset
  boff1 : Offset
  deriving DecidableEq, Repr

/-- Which fields a command uses; the others are blank in the table of R119. -/
structure FieldUse where
  s0 : Bool := false
  s1 : Bool := false
  s2 : Bool := false
  s3 : Bool := false
  imm8 : Bool := false
  boff0 : Bool := false
  boff1 : Bool := false
  deriving DecidableEq, Repr

/-- The table of R119. -/
def Op.uses : Op → FieldUse
  | .nop => {}
  | .redonce => { s0 := true, s1 := true }
  | .twored => { s0 := true, s1 := true }
  | .corr => { s0 := true, s1 := true }
  | .smul => { s0 := true, s1 := true, imm8 := true }
  | .nttf => { s0 := true, s1 := true }
  | .ntti => { s0 := true, s1 := true }
  | .pmul => { s0 := true, s1 := true, s2 := true }
  | .pmuladd => { s0 := true, s1 := true, s2 := true, s3 := true }
  | .gena => { s0 := true, boff0 := true }
  | .sample => { s0 := true, imm8 := true, boff0 := true }
  | .enc14 => { s1 := true, boff0 := true }
  | .dec14 => { s0 := true, boff0 := true }
  | .encr => { s1 := true, boff0 := true }
  | .decr => { s0 := true, boff0 := true }
  | .enca => { s1 := true, boff0 := true, boff1 := true }
  | .deca => { s0 := true, boff0 := true, boff1 := true }
  | .encb => { s1 := true, s2 := true, boff0 := true }
  | .decb => { s0 := true, s1 := true, boff0 := true }
  | .helprec => { s0 := true, s1 := true, imm8 := true, boff0 := true }
  | .recKey => { s1 := true, s2 := true, boff0 := true }
  | .zerop => { s0 := true }
  | .zerob => { boff0 := true, boff1 := true }

/-- OP = word[5:0] (R110). -/
def opBits (w : Command) : BitVec 6 := w.extractLsb' 0 6

/-- RES0 = word[7:6] (R110). -/
def res0Bits (w : Command) : BitVec 2 := w.extractLsb' 6 2

/-- RES1 = word[23:20] (R110). -/
def res1Bits (w : Command) : BitVec 4 := w.extractLsb' 20 4

/-- The operand fields of a command word (R110, R112–R114). -/
def fieldsOf (w : Command) : Fields where
  s0 := w.extractLsb' 8 3
  s1 := w.extractLsb' 11 3
  s2 := w.extractLsb' 14 3
  s3 := w.extractLsb' 17 3
  imm8 := w.extractLsb' 24 8
  boff0 := w.extractLsb' 32 16
  boff1 := w.extractLsb' 48 16

/-- A field the command does not use is nonzero (R117). -/
def unusedNonzero (u : FieldUse) (f : Fields) : Bool :=
  (!u.s0 && f.s0 != 0#3) || (!u.s1 && f.s1 != 0#3) || (!u.s2 && f.s2 != 0#3) ||
  (!u.s3 && f.s3 != 0#3) || (!u.imm8 && f.imm8 != 0#8) || (!u.boff0 && f.boff0 != 0#16) ||
  (!u.boff1 && f.boff1 != 0#16)

/-- The command of an opcode and its fields (R119, R122). -/
def Instr.ofFields (o : Op) (f : Fields) : Instr :=
  match o with
  | .nop => .nop
  | .redonce => .redonce f.s0 f.s1
  | .twored => .twored f.s0 f.s1
  | .corr => .corr f.s0 f.s1
  | .smul => .smul f.s0 f.s1 f.imm8
  | .nttf => .nttf f.s0 f.s1
  | .ntti => .ntti f.s0 f.s1
  | .pmul => .pmul f.s0 f.s1 f.s2
  | .pmuladd => .pmuladd f.s0 f.s1 f.s2 f.s3
  | .gena => .gena f.s0 f.boff0
  | .sample => .sample f.s0 f.boff0 f.imm8
  | .enc14 => .enc14 f.boff0 f.s1
  | .dec14 => .dec14 f.s0 f.boff0
  | .encr => .encr f.boff0 f.s1
  | .decr => .decr f.s0 f.boff0
  | .enca => .enca f.boff0 f.s1 f.boff1
  | .deca => .deca f.s0 f.boff1 f.boff0
  | .encb => .encb f.boff0 f.s1 f.s2
  | .decb => .decb f.s0 f.s1 f.boff0
  | .helprec => .helprec f.s0 f.s1 f.boff0 f.imm8
  | .recKey => .recKey f.boff0 f.s1 f.s2
  | .zerop => .zerop f.s0
  | .zerob => .zerob f.boff0 f.boff1

/-- Why a word is no command (R120, R121). -/
inductive DecodeError where
  /-- the OP value is not in the opcode map (R120) -/
  | unassignedOp
  /-- RES0 or RES1 is nonzero (R115) -/
  | reservedBits
  /-- a field that is blank for OP is nonzero (R117) -/
  | unusedField
  deriving DecidableEq, Repr

/-- The status a refused word completes with (R120, R272). -/
def DecodeError.status : DecodeError → Status
  | .unassignedOp => .notImplemented
  | .reservedBits => .invalidParameter
  | .unusedField => .invalidParameter

/-- What the decoder answers for a word. -/
inductive Decoded where
  | instr (i : Instr)
  | refused (e : DecodeError)
  deriving DecidableEq, Repr

/-- The decoder: the first three checks of R272 in their order, then the command. The operand values (R116, R143, R217) are checked
after it, by `Machine.operandError` (log 13). -/
def decode (w : Command) : Decoded :=
  match Op.ofCode (opBits w) with
  | none => .refused .unassignedOp
  | some o =>
    if res0Bits w ≠ 0#2 ∨ res1Bits w ≠ 0#4 then .refused .reservedBits
    else if unusedNonzero o.uses (fieldsOf w) then .refused .unusedField
    else .instr (Instr.ofFields o (fieldsOf w))

/-- The command word of the two registers, CMD1 ‖ CMD0 (R46, R110). -/
def commandOf (cmd0 cmd1 : Word) : Command := cmd1 ++ cmd0

/-- The first word (CMD0) of an instruction of the opcode table whose low `nbits` bits are `w`. -/
def tableCmd0 (nbits w : Nat) : Word := BitVec.ofNat 32 (w % 2 ^ nbits)

/-- The second word (CMD1) of an instruction of the opcode table whose low `nbits` bits are `w`. -/
def tableCmd1 (nbits w : Nat) : Word := BitVec.ofNat 32 (w % 2 ^ nbits / 2 ^ 32)

/-- The instruction the decoder reads from a word of the opcode table. -/
def decodeTableWord (nbits w : Nat) : Option Instr :=
  match decode (commandOf (tableCmd0 nbits w) (tableCmd1 nbits w)) with
  | .instr i => some i
  | .refused _ => none

/-- The opcode of a command (R118). -/
def Instr.op : Instr → Op
  | .nop => .nop
  | .redonce _ _ => .redonce
  | .twored _ _ => .twored
  | .corr _ _ => .corr
  | .smul _ _ _ => .smul
  | .nttf _ _ => .nttf
  | .ntti _ _ => .ntti
  | .pmul _ _ _ => .pmul
  | .pmuladd _ _ _ _ => .pmuladd
  | .gena _ _ => .gena
  | .sample _ _ _ => .sample
  | .enc14 _ _ => .enc14
  | .dec14 _ _ => .dec14
  | .encr _ _ => .encr
  | .decr _ _ => .decr
  | .enca _ _ _ => .enca
  | .deca _ _ _ => .deca
  | .encb _ _ _ => .encb
  | .decb _ _ _ => .decb
  | .helprec _ _ _ _ => .helprec
  | .recKey _ _ _ => .recKey
  | .zerop _ => .zerop
  | .zerob _ _ => .zerob

/-- Every field 0. -/
def Fields.zero : Fields := ⟨0#3, 0#3, 0#3, 0#3, 0#8, 0#16, 0#16⟩

/-- The field values of a command, blank fields 0 (R119, R122). -/
def Instr.fields : Instr → Fields
  | .nop => Fields.zero
  | .redonce d a => { Fields.zero with s0 := d, s1 := a }
  | .twored d a => { Fields.zero with s0 := d, s1 := a }
  | .corr d a => { Fields.zero with s0 := d, s1 := a }
  | .smul d a k => { Fields.zero with s0 := d, s1 := a, imm8 := k }
  | .nttf d a => { Fields.zero with s0 := d, s1 := a }
  | .ntti d a => { Fields.zero with s0 := d, s1 := a }
  | .pmul d a b => { Fields.zero with s0 := d, s1 := a, s2 := b }
  | .pmuladd d a b c => { Fields.zero with s0 := d, s1 := a, s2 := b, s3 := c }
  | .gena d seed => { Fields.zero with s0 := d, boff0 := seed }
  | .sample d seed k => { Fields.zero with s0 := d, boff0 := seed, imm8 := k }
  | .enc14 dst a => { Fields.zero with s1 := a, boff0 := dst }
  | .dec14 d src => { Fields.zero with s0 := d, boff0 := src }
  | .encr dst r => { Fields.zero with s1 := r, boff0 := dst }
  | .decr d src => { Fields.zero with s0 := d, boff0 := src }
  | .enca dst b seed => { Fields.zero with s1 := b, boff0 := dst, boff1 := seed }
  | .deca d seedDst src => { Fields.zero with s0 := d, boff0 := src, boff1 := seedDst }
  | .encb dst u r => { Fields.zero with s1 := u, s2 := r, boff0 := dst }
  | .decb u r src => { Fields.zero with s0 := u, s1 := r, boff0 := src }
  | .helprec r x seed k => { Fields.zero with s0 := r, s1 := x, boff0 := seed, imm8 := k }
  | .recKey key x r => { Fields.zero with s1 := x, s2 := r, boff0 := key }
  | .zerop d => { Fields.zero with s0 := d }
  | .zerob start len => { Fields.zero with boff0 := start, boff1 := len }

/-- The word of an opcode and its fields, reserved bits 0 (R110, R115). -/
def packFields (o : Op) (f : Fields) : Command :=
  f.boff1 ++ f.boff0 ++ f.imm8 ++ 0#4 ++ f.s3 ++ f.s2 ++ f.s1 ++ f.s0 ++ 0#2 ++ o.code

/-- The command word of a command (R110). -/
def encode (i : Instr) : Command := packFields i.op i.fields

/-- CMD0, bits 31:0 of the command word (R46). -/
def encodeCmd0 (i : Instr) : Word := (encode i).extractLsb' 0 32

/-- CMD1, bits 63:32 of the command word (R46). -/
def encodeCmd1 (i : Instr) : Word := (encode i).extractLsb' 32 32

end Sys2Proof
end

