-- ==== Sys2Proof/Machine/State.lean ====
section
/-! DEFINITION. The state of one RLWE-CORE block as plain data (10_state.md), the model's own input and bus-data fields, the reasons a step could stop, and the state after reset. -/

namespace Sys2Proof.Machine

/-- BMEM: (offset, byte) pairs, offsets strictly rising, no byte 0 listed; an unlisted offset reads 0 (R47, R312; log 21). -/
abbrev Memory := List Host.Cell

/-- The one form in which a memory is held: offsets strictly rising, inside BMEM, and no entry equal to what an unlisted offset reads as. -/
abbrev Memory.wf (m : Memory) : Prop :=
  m.Pairwise (fun c d => c.1 < d.1) ∧ ∀ c ∈ m, c.1 < Config.bmemBytes ∧ c.2 ≠ 0#8

/-- The sequencer's phase (R48). -/
inductive Phase where
  /-- waiting for the host to issue a command -/
  | idle
  /-- reset in progress (R313) -/
  | clearing
  /-- a command word copied at issue is executing, the wait for a collaborator included -/
  | exec (cmd : Command)
  deriving DecidableEq, Repr

/-- A request on the collaborator port (R60). -/
inductive PortRequest where
  /-- `Stream(seed, nonce, n)`, from SAMPLE or HELPREC -/
  | stream (seed : Bytes 32) (nonce : Bytes 8) (n : Nat)
  /-- `Xof(seed, n)`, from GENA -/
  | xof (seed : Bytes 32) (n : Nat)
  deriving DecidableEq, Repr

/-- The width of a host access (R31). -/
inductive Width where
  | w8
  | w16
  | w32
  deriving DecidableEq, Repr

/-- What the outside world does to the block, one at a time (R30, R31; log 1). -/
inductive Input where
  /-- a host bus read -/
  | read (addr : BitVec 18) (width : Width)
  /-- a host bus write; a narrow write carries its data in the low bits (log 15) -/
  | write (addr : BitVec 18) (width : Width) (data : Word)
  /-- `rst_n` goes to 0 -/
  | rstFall
  /-- `rst_n` goes to 1 -/
  | rstRise
  /-- clock cycles in which the sequencer ends what it is doing, unless it waits for the collaborator -/
  | clock
  /-- the collaborator answers the outstanding request -/
  | answer
  /-- the collaborator answers a request that a reset has abandoned -/
  | lateAnswer
  deriving DecidableEq, Repr

/-- The internal buffers that no host access reaches (R49; log 11). -/
structure Scratch where
  /-- the sampler stream, 3072 bytes -/
  stream : Bytes 3072
  /-- the HelpRec random bits, 32 bytes -/
  randomBits : Bytes 32
  /-- the XOF words, 1024 words -/
  xofWords : Poly
  /-- copies of the source slots taken under R11 -/
  slotCopies : List Poly
  /-- copies of the source byte ranges taken under R11 -/
  byteCopies : List (List Byte)
  /-- accumulator acc1 of SAMPLE -/
  acc1 : Word
  /-- accumulator acc2 of SAMPLE -/
  acc2 : Word
  /-- accumulator norm of HELPREC and REC -/
  norm : Int
  deriving DecidableEq, Repr

/-- All scratch overwritten with zero (R49). -/
def Scratch.zero : Scratch where
  stream := Vector.replicate 3072 0#8
  randomBits := Vector.replicate 32 0#8
  xofWords := Vector.replicate 1024 0#32
  slotCopies := []
  byteCopies := []
  acc1 := 0#32
  acc2 := 0#32
  norm := 0

/-- The state of the block. BUSY, `irq` and the CSR words are views of it (R42–R45, R63; log 17). -/
structure State where
  /-- PMEM: the polynomial slots P0..P7 (R40) -/
  pmem : Vector Poly 8
  /-- BMEM (R47) -/
  bmem : Memory
  /-- CTRL.IRQEN (R42) -/
  irqen : Bool
  /-- STATUS.DONE (R43) -/
  done : Bool
  /-- STATUS.ERR (R43) -/
  err : Bool
  /-- STATUS.ACCERR (R43) -/
  accerr : Bool
  /-- RESULT.CODE (R44) -/
  resultCode : Status
  /-- RESULT.OPCODE (R44) -/
  resultOp : BitVec 6
  /-- FIRSTERR: `none` is VALID = 0, `some c` is VALID = 1 with CODE = c (R45) -/
  firstErr : Option Status
  /-- CMD0 (R46) -/
  cmd0 : Word
  /-- CMD1 (R46) -/
  cmd1 : Word
  /-- the sequencer phase (R48) -/
  phase : Phase
  /-- the internal buffers (R49) -/
  scratch : Scratch
  /-- the outstanding collaborator request (R60) -/
  request : Option PortRequest
  /-- the level of the `rst_n` input (R31, R310) -/
  rstN : Bool
  /-- MODEL'S OWN: the data the last bus read returned (R31; log 4) -/
  rdata : Word
  /-- MODEL'S OWN: what the outside does next, first element first (log 1) -/
  inputs : List Input
  deriving DecidableEq, Repr

/-- A slot that holds 0 in every coefficient. -/
def zeroPoly : Poly := Vector.replicate 1024 0#32

/-- The block at the instant `rst_n` has risen: phase Clearing, every CSR at its reset value, PMEM, BMEM and scratch 0 (R310–R314 and the
table of 10_state.md §8). The model's own fields hold the values of log 5. -/
def State.reset : State where
  pmem := Vector.replicate 8 zeroPoly
  bmem := []
  irqen := false
  done := false
  err := false
  accerr := false
  resultCode := .success
  resultOp := 0#6
  firstErr := none
  cmd0 := 0#32
  cmd1 := 0#32
  phase := .clearing
  scratch := Scratch.zero
  request := none
  rstN := true
  rdata := 0#32
  inputs := []

/-- Why a step could stop with a fault. There is no constructor: this hardware has no trap (R277), a host access error only sets ACCERR
(R84), and every word on every state has exactly one outcome (93_implementation_defined.md §2; log 18). Nobody raises one; safe. -/
inductive Fault where
  deriving DecidableEq, Repr

/-- Why a step could be refused. -/
inductive Refusal where
  /-- An instruction that has no meaning in this model. Only a refused arm of `exec` would raise it, and there is none; safe. -/
  | notModelled (mnemonic : String)
  deriving DecidableEq, Repr

end Sys2Proof.Machine
end

