-- ==== Sys2Proof/Machine/Flags.lean ====
section
/-! DEFINITION. The status codes as numbers, the flags, and the CSR words as views of the state (10_state.md R42–R45, R63; 60_exceptions.md R270, R273). -/

namespace Sys2Proof.Machine

/-- The 4-bit value a status code is recorded as (R270). -/
def statusCode : Status → BitVec 4
  | .success => 0#4
  | .genericError => 1#4
  | .testError => 2#4
  | .unknown => 3#4
  | .notImplemented => 4#4
  | .outOfMemory => 5#4
  | .invalidParameter => 6#4
  | .sharedKeyError => 7#4
  | .tooManyIterations => 8#4

/-- FIRSTERR after a command has completed with status `c`: the first status that is not Success is kept (R45). -/
def recordFirst (old : Option Status) (c : Status) : Option Status :=
  match old with
  | some f => some f
  | none => if c = .success then none else some c

/-- STATUS.BUSY = 1 exactly when the phase is not Idle (R48). -/
def State.busy (s : State) : Bool := decide (s.phase ≠ .idle)

/-- The `irq` output: IRQEN ∧ DONE, a level (R63). -/
def State.irq (s : State) : Bool := s.irqen && s.done

/-- CTRL as read: START and SRST read 0, IRQEN is bit 2 (R42). -/
def ctrlWord (s : State) : Word :=
  0#29 ++ BitVec.ofBool s.irqen ++ 0#2

/-- STATUS as read: BUSY, DONE, ERR, ACCERR are bits 0 to 3 (R43). -/
def statusWord (s : State) : Word :=
  0#28 ++ BitVec.ofBool s.accerr ++ BitVec.ofBool s.err ++ BitVec.ofBool s.done ++ BitVec.ofBool s.busy

/-- RESULT as read: OPCODE in bits 13:8, CODE in bits 3:0 (R44). -/
def resultWord (s : State) : Word :=
  0#18 ++ s.resultOp ++ 0#4 ++ statusCode s.resultCode

/-- FIRSTERR as read: VALID in bit 31, CODE in bits 3:0 (R45). -/
def firstErrWord (s : State) : Word :=
  match s.firstErr with
  | none => 0#32
  | some c => 1#1 ++ 0#27 ++ statusCode c

end Sys2Proof.Machine
end

