-- ==== Sys2Proof/Machine/Ops.lean ====
section
/-! DEFINITION. The named operations over slots, BMEM and the sequencer: reading and writing a slot, a coefficient and a byte range, the completion record (this hardware's form of an exception), reset and the end of Clearing. -/

namespace Sys2Proof.Machine

/-- The answer of a step or of a command. -/
abbrev Answer := Host.Outcome State Fault Refusal

/-- The sequence f 0, f 1, …, f (n-1). -/
def tabulate {α : Type} (n : Nat) (f : Nat → α) : Vector α n :=
  ⟨⟨(List.range n).map f⟩, by simp⟩

/-- Element `i` of a sequence of bit vectors. -/
def nth {w n : Nat} (v : Vector (BitVec w) n) (i : Nat) : BitVec w := v[i]?.getD 0#w

/-- The slot contents with coefficient `i` equal to `f i` (R12). -/
def polyOf (f : Nat → Word) : Poly := tabulate 1024 f

/-- The elements off, …, off+n-1 of a byte sequence. -/
def slice {m : Nat} (v : Bytes m) (off n : Nat) : Bytes n := tabulate n fun k => nth v (off + k)

/-- The contents of a slot (R10, R40). -/
def State.slot (s : State) (d : Slot) : Poly := s.pmem[d.toNat]'(d.isLt)

/-- `P[d][i]` (R10). -/
def State.coeff (s : State) (d : Slot) (i : Nat) : Word := nth (s.slot d) i

/-- The whole slot `d` is written (R12). -/
def State.setSlot (s : State) (d : Slot) (p : Poly) : State :=
  { s with pmem := s.pmem.set d.toNat p d.isLt }

/-- `P[d][i] <- v` for one coefficient (R10). -/
def State.setCoeff (s : State) (d : Slot) (i : Nat) (v : Word) : State :=
  s.setSlot d ((s.slot d).setIfInBounds i v)

/-- The byte at an offset; an unlisted offset reads 0 (R312; log 21). -/
def Memory.read (m : Memory) (a : Nat) : Byte := (m.lookup a).getD 0#8

/-- The entries of a byte sequence that starts at offset `a`, bytes 0 left out. -/
def cellsFrom : Nat → List Byte → Memory
  | _, [] => []
  | a, b :: bs => if b = 0#8 then cellsFrom (a + 1) bs else (a, b) :: cellsFrom (a + 1) bs

/-- The bytes `bs` are written from offset `off` on. -/
def Memory.writeRange (m : Memory) (off : Nat) (bs : List Byte) : Memory :=
  m.filter (fun c => decide (c.1 < off)) ++ cellsFrom off bs ++
    m.filter (fun c => decide (off + bs.length ≤ c.1))

/-- `B[a]` (R10). -/
def State.byteAt (s : State) (a : Nat) : Byte := Memory.read s.bmem a

/-- `MemRead(off, n)` (R10). -/
def State.memRead (s : State) (off n : Nat) : Bytes n := tabulate n fun k => s.byteAt (off + k)

/-- `MemWrite(off, n, v)` (R10). -/
def State.memWrite (s : State) (off : Nat) {n : Nat} (v : Bytes n) : State :=
  { s with bmem := Memory.writeRange s.bmem off v.toList }

/-- The completion record: how every command ends, with Success, with a failure or by a refusal (R273). It is this hardware's only form of
an exception (R277): RESULT takes opcode and code, FIRSTERR the first failing code; nothing else is saved and nothing is redirected. -/
def State.complete (s : State) (op : BitVec 6) (c : Status) : State :=
  { s with
    resultOp := op
    resultCode := c
    firstErr := recordFirst s.firstErr c
    err := decide (c ≠ .success)
    scratch := Scratch.zero
    request := none
    phase := .idle
    done := true }

/-- The effect of a command's rule before its completion: the status it ends with and the state it has made. -/
abbrev Effect := State → Status × State

/-- A command: its operand checks, then its rule, then the completion record (R272, R273). A command whose checks fail completes with
InvalidParameter and nothing else changed (R272, R274; log 13). -/
def perform (i : Instr) (rule : Effect) (s : State) : Answer :=
  match operandError i with
  | some _ => .next (s.complete i.op.code .invalidParameter)
  | none => .next ((rule s).2.complete i.op.code (rule s).1)

/-- The rule of a command that always succeeds. -/
def succeed (f : State → State) : Effect := fun s => (.success, f s)

/-- Reset, hard or soft: every CSR takes its reset value, the command in flight and an outstanding request are abandoned with no completion
record, and the phase becomes Clearing (R310, R311). The memories are zeroed in the Clearing phase (R312, R313; log 7). -/
def State.enterReset (s : State) : State :=
  { s with
    irqen := false
    done := false
    err := false
    accerr := false
    resultCode := .success
    resultOp := 0#6
    firstErr := none
    cmd0 := 0#32
    cmd1 := 0#32
    phase := .clearing
    request := none }

/-- The Clearing phase ends: PMEM, BMEM and scratch have been zeroed, STATUS is 0, the phase is Idle (R312, R313; log 7, log 8). -/
def State.finishClearing (s : State) : State :=
  { s with
    pmem := Vector.replicate 8 zeroPoly
    bmem := []
    scratch := Scratch.zero
    done := false
    err := false
    accerr := false
    phase := .idle }

end Sys2Proof.Machine
end

