-- ==== Sys2Proof/Machine/Operands.lean ====
section
/-! DEFINITION. Operand forms: coefficients as signed integers, wrapping and canonical residues (00_scope.md R9), little-endian composition (20_memory.md R81, R82), seeds and nonces, the collaborator request of a command (10_state.md R60), the operand copies of R11. -/

namespace Sys2Proof.Machine

/-- `wrap32(v)` (R9). -/
def wrap32 (v : Int) : Word := BitVec.ofInt 32 v

/-- `x mod q`, in [0, q) for every integer x (R9). -/
def modq (x : Int) : Int := x % (Config.q : Int)

/-- `s32(P[a][i])` (R9, R40). -/
def State.s32 (s : State) (a : Slot) (i : Nat) : Int := (s.coeff a i).toInt

/-- Two bytes little-endian (R81). -/
def le16 (b0 b1 : Byte) : BitVec 16 := b1 ++ b0

/-- Four bytes little-endian (R81, R82). -/
def le32 (b0 b1 b2 b3 : Byte) : Word := b3 ++ b2 ++ b1 ++ b0

/-- Byte `k` of a word, byte 0 the lowest (R81). -/
def byteOf (v : Word) (k : Nat) : Byte := v.extractLsb' (8 * k) 8

/-- The 32-byte seed at a BMEM offset (R60, R190, R192, R240). -/
def State.seedAt (s : State) (off : Offset) : Bytes 32 := s.memRead off.toNat 32

/-- The 8 nonce bytes of SAMPLE: byte 0 is the nonce, the others 0 (R192). -/
def sampleNonce (k : Imm8) : Bytes 8 := tabulate 8 fun j => if j = 0 then k else 0#8

/-- The 8 nonce bytes of HELPREC: byte 1 is the nonce, the others 0 (R240). -/
def helprecNonce (k : Imm8) : Bytes 8 := tabulate 8 fun j => if j = 1 then k else 0#8

/-- The collaborator request a command makes, if it makes one (R60). -/
def requestOf (i : Instr) (s : State) : Option PortRequest :=
  match i with
  | .gena _ seed => some (.xof (s.seedAt seed) 1024)
  | .sample _ seed k => some (.stream (s.seedAt seed) (sampleNonce k) 3072)
  | .helprec _ _ seed k => some (.stream (s.seedAt seed) (helprecNonce k) 32)
  | .nop | .redonce _ _ | .twored _ _ | .corr _ _ | .smul _ _ _ | .nttf _ _ | .ntti _ _ | .pmul _ _ _
  | .pmuladd _ _ _ _ | .enc14 _ _ | .dec14 _ _ | .encr _ _ | .decr _ _ | .enca _ _ _ | .deca _ _ _
  | .encb _ _ _ | .decb _ _ _ | .recKey _ _ _ | .zerop _ | .zerob _ _ => none

/-- The source slots of a command (R119, the entries marked "s"). -/
def sourceSlots : Instr → List Slot
  | .nop => []
  | .redonce _ a => [a]
  | .twored _ a => [a]
  | .corr _ a => [a]
  | .smul _ a _ => [a]
  | .nttf _ a => [a]
  | .ntti _ a => [a]
  | .pmul _ a b => [a, b]
  | .pmuladd _ a b c => [a, b, c]
  | .gena _ _ => []
  | .sample _ _ _ => []
  | .enc14 _ a => [a]
  | .dec14 _ _ => []
  | .encr _ r => [r]
  | .decr _ _ => []
  | .enca _ b _ => [b]
  | .deca _ _ _ => []
  | .encb _ u r => [u, r]
  | .decb _ _ _ => []
  | .helprec _ x _ _ => [x]
  | .recKey _ x r => [x, r]
  | .zerop _ => []
  | .zerob _ _ => []

/-- The BMEM ranges a command reads (R119, the entries marked "r"). -/
def sourceRegions : Instr → List Region
  | .nop => []
  | .redonce _ _ => []
  | .twored _ _ => []
  | .corr _ _ => []
  | .smul _ _ _ => []
  | .nttf _ _ => []
  | .ntti _ _ => []
  | .pmul _ _ _ => []
  | .pmuladd _ _ _ _ => []
  | .gena _ seed => [⟨seed.toNat, 32⟩]
  | .sample _ seed _ => [⟨seed.toNat, 32⟩]
  | .enc14 _ _ => []
  | .dec14 _ src => [⟨src.toNat, 1792⟩]
  | .encr _ _ => []
  | .decr _ src => [⟨src.toNat, 256⟩]
  | .enca _ _ seed => [⟨seed.toNat, 32⟩]
  | .deca _ _ src => [⟨src.toNat, 1824⟩]
  | .encb _ _ _ => []
  | .decb _ _ src => [⟨src.toNat, 2048⟩]
  | .helprec _ _ seed _ => [⟨seed.toNat, 32⟩]
  | .recKey _ _ _ => []
  | .zerop _ => []
  | .zerob _ _ => []

/-- The scratch when a command enters execution: copies of its source operands (R11, R49; log 11). -/
def operandCopies (i : Instr) (s : State) : Scratch :=
  { Scratch.zero with
    slotCopies := (sourceSlots i).map s.slot
    byteCopies := (sourceRegions i).map fun r => (s.memRead r.off r.len).toList }

/-- A command word that has passed its checks enters execution: phase Exec with the copy of the word, the operands copied, the collaborator
request made (R48, R60, R272; log 11, log 12). -/
def State.enterExec (s : State) (w : Command) (i : Instr) : State :=
  { s with phase := .exec w, scratch := operandCopies i s, request := requestOf i s }

end Sys2Proof.Machine
end

