-- ==== Sys2Proof/Machine/Bus.lean ====
section
/-! DEFINITION. The host bus: the register map (10_state.md R32–R46, R51), access errors (20_memory.md R83–R85), command issue (60_exceptions.md R272) and soft reset (70_reset_and_hazards.md R311). -/

namespace Sys2Proof.Machine

/-- The bytes of an access (R31). -/
def widthBytes : Width → Nat
  | .w8 => 1
  | .w16 => 2
  | .w32 => 4

/-- The control and status registers (R32). -/
inductive Csr where
  | id | version | paramN | paramQ | paramPsi | paramSlots | paramBmem
  | ctrl | status | result | firstErr | cmd0 | cmd1
  deriving DecidableEq, Repr

/-- The CSR at an address below 0x10000; 0x0001C and 0x00038 to 0x0FFFF are unmapped (R32). -/
def csrAt (a : Nat) : Option Csr :=
  match a with
  | 0x00 => some .id
  | 0x04 => some .version
  | 0x08 => some .paramN
  | 0x0C => some .paramQ
  | 0x10 => some .paramPsi
  | 0x14 => some .paramSlots
  | 0x18 => some .paramBmem
  | 0x20 => some .ctrl
  | 0x24 => some .status
  | 0x28 => some .result
  | 0x2C => some .firstErr
  | 0x30 => some .cmd0
  | 0x34 => some .cmd1
  | _ => none

/-- What a host access reaches. -/
inductive Target where
  | csr (r : Csr)
  /-- coefficient `i` of slot `d` -/
  | pmem (d : Slot) (i : Nat)
  /-- bytes of BMEM from offset `off` on -/
  | bmem (off : Nat)
  deriving DecidableEq, Repr

/-- The register map with its widths and alignments; `none` is an address, width or alignment the map does not allow, or a byte at or
beyond BMEM_BYTES (R32, R83, R84). -/
def target (addr : BitVec 18) (width : Width) : Option Target :=
  let a := addr.toNat
  if a < 0x10000 then
    if width = .w32 then (csrAt a).map Target.csr else none
  else if a < 0x18000 then
    if width = .w32 ∧ a % 4 = 0 then
      some (.pmem (BitVec.ofNat 3 ((a - 0x10000) / 0x1000)) (a % 0x1000 / 4))
    else none
  else if a < 0x20000 then none
  else if a % widthBytes width = 0 ∧ a - 0x20000 + widthBytes width ≤ Config.bmemBytes then
    some (.bmem (a - 0x20000))
  else none

/-- The value of a CSR as read (R33–R46). -/
def csrValue (r : Csr) (s : State) : Word :=
  match r with
  | .id => 0x524C5745#32
  | .version => 0x00010007#32
  | .paramN => BitVec.ofNat 32 Config.n
  | .paramQ => BitVec.ofNat 32 Config.q
  | .paramPsi => 0#18 ++ BitVec.ofNat 14 Config.psi
  | .paramSlots => 8#32
  | .paramBmem => BitVec.ofNat 32 Config.bmemBytes
  | .ctrl => ctrlWord s
  | .status => statusWord s
  | .result => resultWord s
  | .firstErr => firstErrWord s
  | .cmd0 => s.cmd0
  | .cmd1 => s.cmd1

/-- The little-endian value of the bytes of BMEM at an offset, in the low bits of the bus data (R81; log 15). -/
def bmemValue (s : State) (width : Width) (off : Nat) : Word :=
  match width with
  | .w8 => (s.byteAt off).setWidth 32
  | .w16 => (le16 (s.byteAt off) (s.byteAt (off + 1))).setWidth 32
  | .w32 => le32 (s.byteAt off) (s.byteAt (off + 1)) (s.byteAt (off + 2)) (s.byteAt (off + 3))

/-- The value a read returns; `none` is an access error (R81, R84, R85). -/
def readValue (s : State) (addr : BitVec 18) (width : Width) : Option Word :=
  match target addr width with
  | none => none
  | some (.csr r) => some (csrValue r s)
  | some (.pmem d i) => if s.busy then none else some (s.coeff d i)
  | some (.bmem off) => if s.busy then none else some (bmemValue s width off)

/-- A bus read: the value, or 0 and ACCERR (R84). Nothing else changes (R87). -/
def State.busRead (s : State) (addr : BitVec 18) (width : Width) : State :=
  match readValue s addr width with
  | some v => { s with rdata := v }
  | none => { s with rdata := 0#32, accerr := true }

/-- Command issue (R272): DONE and ERR are cleared, the word is checked in the order of R272, and it either completes at once with its refusal
or enters execution. -/
def State.issue (s0 : State) : State :=
  let s : State := { s0 with done := false, err := false }
  let w := commandOf s.cmd0 s.cmd1
  match decode w with
  | .refused e => s.complete (opBits w) e.status
  | .instr i =>
    match operandError i with
    | some _ => s.complete (opBits w) .invalidParameter
    | none => s.enterExec w i

/-- A write to CTRL: SRST first, then IRQEN, then START; START while BUSY is an access error (R42, R85). -/
def State.writeCtrl (s0 : State) (v : Word) : State :=
  if v.getLsbD 1 then s0.enterReset
  else
    let s : State := { s0 with irqen := v.getLsbD 2 }
    if v.getLsbD 0 then
      if s.busy then { s with accerr := true } else s.issue
    else s

/-- A write to STATUS clears the W1C bits written with 1 (R43). -/
def State.writeStatus (s : State) (v : Word) : State :=
  { s with
    done := s.done && !v.getLsbD 1
    err := s.err && !v.getLsbD 2
    accerr := s.accerr && !v.getLsbD 3 }

/-- A write to a CSR; `none` is an access error. Writes to RO registers are ignored (R51); FIRSTERR is cleared by any write (R45); CMD0 and
CMD1 are not written while BUSY (R46). -/
def State.writeCsr (s : State) (r : Csr) (v : Word) : Option State :=
  match r with
  | .id | .version | .paramN | .paramQ | .paramPsi | .paramSlots | .paramBmem | .result => some s
  | .ctrl => some (s.writeCtrl v)
  | .status => some (s.writeStatus v)
  | .firstErr => some { s with firstErr := none }
  | .cmd0 => if s.busy then none else some { s with cmd0 := v }
  | .cmd1 => if s.busy then none else some { s with cmd1 := v }

/-- The state a write leaves; `none` is an access error (R81, R84, R85). -/
def writeEffect (s : State) (addr : BitVec 18) (width : Width) (v : Word) : Option State :=
  match target addr width with
  | none => none
  | some (.csr r) => s.writeCsr r v
  | some (.pmem d i) => if s.busy then none else some (s.setCoeff d i v)
  | some (.bmem off) =>
    if s.busy then none else some (s.memWrite off (tabulate (widthBytes width) fun k => byteOf v k))

/-- A bus write: its effect, or ACCERR and nothing else (R84). -/
def State.busWrite (s : State) (addr : BitVec 18) (width : Width) (v : Word) : State :=
  (writeEffect s addr width v).getD { s with accerr := true }

end Sys2Proof.Machine
end

