-- ==== Sys2Proof/Machine/Codec.lean ====
section
/-! DEFINITION. The 14-bit packer, the r packer and the message codec: ENC14, DEC14, ENCR, DECR, ENCA, DECA, ENCB, DECB (44_codec.md R200–R217). -/

namespace Sys2Proof.Machine

/-- The 56-bit integer V_g of a group of four coefficients, each cut to its low 14 bits (R200). -/
def packGroup (p : Poly) (g : Nat) : BitVec 56 :=
  (nth p (4 * g + 3)).setWidth 14 ++ (nth p (4 * g + 2)).setWidth 14 ++
    (nth p (4 * g + 1)).setWidth 14 ++ (nth p (4 * g)).setWidth 14

/-- Pack14: byte 7g + k is byte k of V_g (R200). -/
def pack14 (p : Poly) : Bytes 1792 :=
  tabulate 1792 fun b => (packGroup p (b / 7)).extractLsb' (8 * (b % 7)) 8

/-- The little-endian integer of the bytes 7g..7g+6 (R200). -/
def unpackGroup (v : Bytes 1792) (g : Nat) : BitVec 56 :=
  nth v (7 * g + 6) ++ nth v (7 * g + 5) ++ nth v (7 * g + 4) ++ nth v (7 * g + 3) ++
    nth v (7 * g + 2) ++ nth v (7 * g + 1) ++ nth v (7 * g)

/-- Unpack14: coefficient 4g + m is (V_g >> 14m) & 0x3FFF (R200). -/
def unpack14 (v : Bytes 1792) : Poly :=
  polyOf fun i => ((unpackGroup v (i / 4)).extractLsb' (14 * (i % 4)) 14).setWidth 32

/-- PackR: four values of two bits to a byte, the first lowest (R201). -/
def packR (p : Poly) : Bytes 256 :=
  tabulate 256 fun j =>
    (nth p (4 * j + 3)).setWidth 2 ++ (nth p (4 * j + 2)).setWidth 2 ++
      (nth p (4 * j + 1)).setWidth 2 ++ (nth p (4 * j)).setWidth 2

/-- UnpackR: value 4j + m is (byte j >> 2m) & 3 (R201). -/
def unpackR (v : Bytes 256) : Poly :=
  polyOf fun i => ((nth v (i / 4)).extractLsb' (2 * (i % 4)) 2).setWidth 32

/-- Message A: packed b, then the seed (R214). -/
def messageA (b : Poly) (seed : Bytes 32) : Bytes 1824 := pack14 b ++ seed

/-- Message B: packed u, then packed r (R216). -/
def messageB (u r : Poly) : Bytes 2048 := pack14 u ++ packR r

/-- ENC14 (R210). -/
def execEnc14 (dst : Offset) (a : Slot) (s : State) : Answer :=
  perform (.enc14 dst a) (succeed fun s => s.memWrite dst.toNat (pack14 (s.slot a))) s

/-- DEC14 (R211). -/
def execDec14 (d : Slot) (src : Offset) (s : State) : Answer :=
  perform (.dec14 d src) (succeed fun s => s.setSlot d (unpack14 (s.memRead src.toNat 1792))) s

/-- ENCR (R212). -/
def execEncr (dst : Offset) (r : Slot) (s : State) : Answer :=
  perform (.encr dst r) (succeed fun s => s.memWrite dst.toNat (packR (s.slot r))) s

/-- DECR (R213). -/
def execDecr (d : Slot) (src : Offset) (s : State) : Answer :=
  perform (.decr d src) (succeed fun s => s.setSlot d (unpackR (s.memRead src.toNat 256))) s

/-- ENCA (R214). -/
def execEnca (dst : Offset) (b : Slot) (seed : Offset) (s : State) : Answer :=
  perform (.enca dst b seed)
    (succeed fun s => s.memWrite dst.toNat (messageA (s.slot b) (s.memRead seed.toNat 32))) s

/-- DECA: the message is read whole, then the slot and the seed are written (R215). -/
def execDeca (d : Slot) (seedDst src : Offset) (s : State) : Answer :=
  perform (.deca d seedDst src)
    (succeed fun s =>
      let msg := s.memRead src.toNat 1824
      (s.setSlot d (unpack14 (slice msg 0 1792))).memWrite seedDst.toNat (slice msg 1792 32)) s

/-- ENCB (R216). -/
def execEncb (dst : Offset) (u r : Slot) (s : State) : Answer :=
  perform (.encb dst u r) (succeed fun s => s.memWrite dst.toNat (messageB (s.slot u) (s.slot r))) s

/-- DECB (R217). -/
def execDecb (u r : Slot) (src : Offset) (s : State) : Answer :=
  perform (.decb u r src)
    (succeed fun s =>
      let msg := s.memRead src.toNat 2048
      (s.setSlot u (unpack14 (slice msg 0 1792))).setSlot r (unpackR (slice msg 1792 256))) s

end Sys2Proof.Machine
end

