-- ==== Sys2Proof/Machine/Control.lean ====
section
/-! DEFINITION. NOP, ZEROP and ZEROB (46_control.md R260–R262). -/

namespace Sys2Proof.Machine

/-- NOP: nothing but the completion record (R260). -/
def execNop (s : State) : Answer :=
  perform .nop (succeed fun s => s) s

/-- ZEROP: every coefficient of the slot is 0 (R261). -/
def execZerop (d : Slot) (s : State) : Answer :=
  perform (.zerop d) (succeed fun s => s.setSlot d (polyOf fun _ => 0#32)) s

/-- ZEROB: the bytes start, …, start + len - 1 are 0 (R262). -/
def execZerob (start len : Offset) (s : State) : Answer :=
  perform (.zerob start len)
    (succeed fun s => s.memWrite start.toNat (tabulate len.toNat fun _ => (0#8 : Byte))) s

end Sys2Proof.Machine
end

