-- ==== Sys2Proof/Machine/Modular.lean ====
section
/-! DEFINITION. REDONCE, TWORED, CORR and SMUL (40_modular.md R140–R146). -/

namespace Sys2Proof.Machine

/-- The one value that meets the three contracts of QC at once: every coefficient is replaced by its canonical residue (R140–R142, R144, R146). -/
def reduceSlot (d a : Slot) (s : State) : State :=
  s.setSlot d (polyOf fun i => wrap32 (modq (s.s32 a i)))

/-- REDONCE (R140). -/
def execRedonce (d a : Slot) (s : State) : Answer :=
  perform (.redonce d a) (succeed (reduceSlot d a)) s

/-- TWORED (R141). -/
def execTwored (d a : Slot) (s : State) : Answer :=
  perform (.twored d a) (succeed (reduceSlot d a)) s

/-- CORR (R142). -/
def execCorr (d a : Slot) (s : State) : Answer :=
  perform (.corr d a) (succeed (reduceSlot d a)) s

/-- SMUL: the signed product by k, wrapped modulo 2^32 and not reduced (R143). -/
def execSmul (d a : Slot) (k : Imm8) (s : State) : Answer :=
  perform (.smul d a k) (succeed fun s => s.setSlot d (polyOf fun i => wrap32 (s.s32 a i * (k.toNat : Int)))) s

end Sys2Proof.Machine
end

