-- ==== Sys2Proof/Machine/Ntt.lean ====
section
/-! DEFINITION. The negacyclic number-theoretic transform and its inverse, NTTF and NTTI (41_ntt.md R160–R164), with the twiddle constants of R162. -/

namespace Sys2Proof.Machine

/-- `brv10(i)`: the ten binary digits of i in reverse order (R9). -/
def brv10 (i : Nat) : Nat :=
  ((List.range 10).map fun b => (i.testBit b).toNat * 2 ^ (9 - b)).sum

/-- x mod q as a natural number below q (R9). -/
def residue (x : Int) : Nat := (modq x).toNat

/-- `PSI^e mod q`. The exponent is first reduced modulo the order 2048 of PSI (R5), which changes no value (Laws.psiPow_eq; log 16). -/
def psiPow (e : Nat) : Nat := Config.psi ^ (e % Config.psiOrder) % Config.q

/-- `PSIINV^e mod q`; the exponent is reduced as in `psiPow` (Laws.psiInvPow_eq; log 16). -/
def psiInvPow (e : Nat) : Nat := Config.psiInv ^ (e % Config.psiOrder) % Config.q

/-- `NTT(a)[i]`: the value of a at PSI^(2·brv10(i)+1) (R160). -/
def nttAt (a : Nat → Int) (i : Nat) : Nat :=
  (∑ j ∈ Finset.range Config.n, residue (a j) * psiPow ((2 * brv10 i + 1) * j)) % Config.q

/-- `INTT(A)[j]` (R161). -/
def inttAt (a : Nat → Int) (j : Nat) : Nat :=
  (Config.nInv * ∑ i ∈ Finset.range Config.n, residue (a i) * psiInvPow ((2 * brv10 i + 1) * j)) % Config.q

/-- `psi_rev[k]` (R162). -/
def psiRev (k : Nat) : Nat := psiPow (brv10 k)

/-- `psiinv_rev[k]` (R162). -/
def psiInvRev (k : Nat) : Nat := psiInvPow (brv10 k)

/-- `omegainv_10N` (R162). -/
def omegaInv10N : Nat := psiInvRev 1 * Config.nInv % Config.q

/-- NTTF (R163). -/
def execNttf (d a : Slot) (s : State) : Answer :=
  perform (.nttf d a) (succeed fun s => s.setSlot d (polyOf fun i => wrap32 (nttAt (s.s32 a) i))) s

/-- NTTI (R164). -/
def execNtti (d a : Slot) (s : State) : Answer :=
  perform (.ntti d a) (succeed fun s => s.setSlot d (polyOf fun j => wrap32 (inttAt (s.s32 a) j))) s

end Sys2Proof.Machine
end

