-- ==== Sys2Proof/Machine/Pointwise.lean ====
section
/-! DEFINITION. PMUL and PMULADD (42_pointwise.md R180, R181). -/

namespace Sys2Proof.Machine

/-- PMUL: the exact product, then its canonical residue, lane by lane (R180). -/
def execPmul (d a b : Slot) (s : State) : Answer :=
  perform (.pmul d a b) (succeed fun s => s.setSlot d (polyOf fun i => wrap32 (modq (s.s32 a i * s.s32 b i)))) s

/-- PMULADD: the exact product plus the third operand, then its canonical residue, lane by lane (R181). -/
def execPmuladd (d a b c : Slot) (s : State) : Answer :=
  perform (.pmuladd d a b c)
    (succeed fun s => s.setSlot d (polyOf fun i => wrap32 (modq (s.s32 a i * s.s32 b i + s.s32 c i)))) s

end Sys2Proof.Machine
end

