-- ==== Sys2Proof/Machine/Sampling.lean ====
section
/-! DEFINITION. GENA and SAMPLE (43_sampling.md R190–R193), each as a rule over the collaborator's answer. -/

namespace Sys2Proof.Machine

/-- A collaborator failure: the destination slot is zeroed, nothing else changes, the code is passed on (R271, R274). -/
def failSlot (d : Slot) (c : Status) : Effect := fun s => (c, s.setSlot d zeroPoly)

/-- Every word lies in [0, q) (R191). -/
def wordsInRange (w : Vector Word 1024) : Bool := w.toList.all fun v => decide (v.toNat < Config.q)

/-- The rule of GENA over the answer of the collaborator (R190, R191). -/
def genaRule (d : Slot) (resp : Status × Vector Word 1024) : Effect := fun s =>
  let held : State := { s with scratch := { s.scratch with xofWords := resp.2 } }
  if resp.1 ≠ .success then failSlot d resp.1 s
  else if wordsInRange resp.2 then (.success, held.setSlot d resp.2)
  else failSlot d .genericError held

/-- GENA (R190). -/
def execGena (d : Slot) (seed : Offset) (s : State) : Answer :=
  perform (.gena d seed) (fun s => genaRule d (Config.xof (s.seedAt seed) 1024) s) s

/-- Word `k` of the sampler stream, little-endian (R82, R192). -/
def streamWord (st : Bytes 3072) (k : Nat) : Word :=
  le32 (nth st (4 * k)) (nth st (4 * k + 1)) (nth st (4 * k + 2)) (nth st (4 * k + 3))

/-- The accumulation of bits from..from+count-1 of each byte of a word (R192). -/
def addBits (acc w : Word) (start count : Nat) : Word :=
  (List.range count).foldl (fun x j => x + ((w >>> (start + j)) &&& 0x01010101#32)) acc

/-- acc1 of block i after both loops (R192). -/
def sampleAcc1 (st : Bytes 3072) (i : Nat) : Word :=
  addBits (addBits 0#32 (streamWord st i) 0 8) (streamWord st (i + 512)) 0 4

/-- acc2 of block i after both loops (R192). -/
def sampleAcc2 (st : Bytes 3072) (i : Nat) : Word :=
  addBits (addBits 0#32 (streamWord st (i + 256)) 0 8) (streamWord st (i + 512)) 4 4

/-- byte(x, m) - byte(x, m + 1) (R192). -/
def byteDiff (x : Word) (m : Nat) : Int := ((byteOf x m).toNat : Int) - ((byteOf x (m + 1)).toNat : Int)

/-- `e[k]`: e[2i] and e[2i+1] come from acc1 of block i, e[2i+512] and e[2i+513] from acc2 (R192). -/
def sampleCoeff (st : Bytes 3072) (k : Nat) : Int :=
  let acc := if k < 512 then sampleAcc1 st (k / 2) else sampleAcc2 st ((k - 512) / 2)
  if k % 2 = 0 then byteDiff acc 0 else byteDiff acc 2

/-- The rule of SAMPLE over the answer of the collaborator (R192). -/
def sampleRule (d : Slot) (resp : Status × Bytes 3072) : Effect := fun s =>
  if resp.1 ≠ .success then failSlot d resp.1 s
  else
    let held : State :=
      { s with
        scratch :=
          { s.scratch with stream := resp.2, acc1 := sampleAcc1 resp.2 255, acc2 := sampleAcc2 resp.2 255 } }
    (.success, held.setSlot d (polyOf fun k => wrap32 (sampleCoeff resp.2 k)))

/-- SAMPLE (R192). -/
def execSample (d : Slot) (seed : Offset) (nonce : Imm8) (s : State) : Answer :=
  perform (.sample d seed nonce)
    (fun s => sampleRule d (Config.stream (s.seedAt seed) (sampleNonce nonce) 3072) s) s

end Sys2Proof.Machine
end

