-- ==== Sys2Proof/Machine/Reconciliation.lean ====
section
/-! DEFINITION. HELPREC, LDDecode and REC on mathematical integers (45_reconciliation.md R240–R243; 00_scope.md R7). -/

namespace Sys2Proof.Machine

/-- `[c]` of R9. -/
def ind (c : Prop) [Decidable c] : Int := if c then 1 else 0

/-- v0 of a value y: the number of thresholds Q4, Q34, Q54, Q74 it reaches (R240, C3). -/
def helpV0 (y : Int) : Int :=
  ind (Config.q4 ≤ y) + ind (Config.q34 ≤ y) + ind (Config.q54 ≤ y) + ind (Config.q74 ≤ y)

/-- v1 of a value y: the number of thresholds Q2, Q, Q32 it reaches (R240, C3). -/
def helpV1 (y : Int) : Int :=
  ind (Config.q2 ≤ y) + ind (Config.q1 ≤ y) + ind (Config.q32 ≤ y)

/-- Bit `i mod 8` of byte `i div 8` (R82, R240). -/
def bitAt {n : Nat} (v : Bytes n) (i : Nat) : Bool := (nth v (i / 8)).getLsbD (i % 8)

/-- y[j] of lane i (R240). -/
def helpY (x : Nat → Int) (rb : Bytes 32) (i j : Nat) : Int :=
  2 * x (i + 256 * j) - ((bitAt rb i).toNat : Int)

/-- norm of lane i (R240). -/
def helpNorm (x : Nat → Int) (rb : Bytes 32) (i : Nat) : Int :=
  let term (j : Nat) : Int := |2 * helpY x rb i j - Config.q1 * helpV0 (helpY x rb i j)|
  term 0 + term 1 + term 2 + term 3

/-- c[j] of lane i: v0 where norm < Q, else v1 (R240). -/
def helpC (x : Nat → Int) (rb : Bytes 32) (i j : Nat) : Int :=
  if helpNorm x rb i < Config.q1 then helpV0 (helpY x rb i j) else helpV1 (helpY x rb i j)

/-- `R[k]`, the hint value k: lane k mod 256, part k div 256 (R240). -/
def helpHint (x : Nat → Int) (rb : Bytes 32) (k : Nat) : Int :=
  let i := k % 256
  if k < 768 then (helpC x rb i (k / 256) - helpC x rb i 3) % 4
  else (2 * helpC x rb i 3 + ind (Config.q1 ≤ helpNorm x rb i)) % 4

/-- The rule of HELPREC over the answer of the collaborator (R240). -/
def helprecRule (r x : Slot) (resp : Status × Bytes 32) : Effect := fun s =>
  if resp.1 ≠ .success then failSlot r resp.1 s
  else
    let held : State :=
      { s with
        scratch := { s.scratch with randomBits := resp.2, norm := helpNorm (s.s32 x) resp.2 255 } }
    (.success, held.setSlot r (polyOf fun k => wrap32 (helpHint (s.s32 x) resp.2 k)))

/-- HELPREC (R240). -/
def execHelprec (r x : Slot) (seed : Offset) (nonce : Imm8) (s : State) : Answer :=
  perform (.helprec r x seed nonce)
    (fun s => helprecRule r x (Config.stream (s.seedAt seed) (helprecNonce nonce) 32) s) s

/-- The fold of LDDecode into (-4Q, 4Q]; |t| = 4Q is not folded (R241). -/
def ldFold (t : Int) : Int :=
  if t > 4 * Config.q1 then t - 8 * Config.q1
  else if t < -(4 * Config.q1) then t + 8 * Config.q1
  else t

/-- norm of LDDecode (R241). -/
def ldNorm (t0 t1 t2 t3 : Int) : Int := |ldFold t0| + |ldFold t1| + |ldFold t2| + |ldFold t3|

/-- LDDecode: true (1) when norm ≤ 8Q, else false (0) (R241, C4). -/
def ldDecode (t0 t1 t2 t3 : Int) : Bool := decide (ldNorm t0 t1 t2 t3 ≤ 8 * Config.q1)

/-- `R[k]` of REC: the low two bits of an r word (R243). -/
def recHint (p : Poly) (k : Nat) : Int := ((nth p k).toNat % 4 : Nat)

/-- t[j] of lane i for j = 0, 1, 2 (R243). -/
def recT (x : Nat → Int) (r : Poly) (i j : Nat) : Int :=
  8 * x (i + 256 * j) - (2 * recHint r (i + 256 * j) + recHint r (i + 768)) * Config.q1

/-- t[3] of lane i (R243). -/
def recT3 (x : Nat → Int) (r : Poly) (i : Nat) : Int :=
  8 * x (i + 768) - recHint r (i + 768) * Config.q1

/-- Key bit i (R243). -/
def recBit (x : Nat → Int) (r : Poly) (i : Nat) : Bool :=
  ldDecode (recT x r i 0) (recT x r i 1) (recT x r i 2) (recT3 x r i)

/-- Key byte j: the OR of the key bits 8j + t shifted to bit t, built from zero (R243). -/
def recKeyByte (x : Nat → Int) (r : Poly) (j : Nat) : Byte :=
  (List.range 8).foldl (fun acc t => acc ||| ((BitVec.ofBool (recBit x r (8 * j + t))).setWidth 8 <<< t)) 0#8

/-- The key (R243). -/
def recKeyBytes (x : Nat → Int) (r : Poly) : Bytes 32 := tabulate 32 fun j => recKeyByte x r j

/-- REC (R243). -/
def execRecKey (key : Offset) (x r : Slot) (s : State) : Answer :=
  perform (.recKey key x r)
    (succeed fun s =>
      let held : State :=
        { s with
          scratch :=
            { s.scratch with
              norm := ldNorm (recT (s.s32 x) (s.slot r) 255 0) (recT (s.s32 x) (s.slot r) 255 1)
                (recT (s.s32 x) (s.slot r) 255 2) (recT3 (s.s32 x) (s.slot r) 255) } }
      held.memWrite key.toNat (recKeyBytes (s.s32 x) (s.slot r))) s

end Sys2Proof.Machine
end

