-- ==== Sys2Proof/Machine/Dispatch.lean ====
section
/-! DEFINITION. The meaning of every command, one arm per constructor of Instr. -/

namespace Sys2Proof.Machine

/-- The execution of one command from the state in which the sequencer runs it to its completion record. -/
def exec (i : Instr) (s : State) : Host.Outcome State Fault Refusal :=
  match i with
  | .nop => Sys2Proof.Machine.execNop s
  | .redonce d a => Sys2Proof.Machine.execRedonce d a s
  | .twored d a => Sys2Proof.Machine.execTwored d a s
  | .corr d a => Sys2Proof.Machine.execCorr d a s
  | .smul d a k => Sys2Proof.Machine.execSmul d a k s
  | .nttf d a => Sys2Proof.Machine.execNttf d a s
  | .ntti d a => Sys2Proof.Machine.execNtti d a s
  | .pmul d a b => Sys2Proof.Machine.execPmul d a b s
  | .pmuladd d a b c => Sys2Proof.Machine.execPmuladd d a b c s
  | .gena d seed => Sys2Proof.Machine.execGena d seed s
  | .sample d seed nonce => Sys2Proof.Machine.execSample d seed nonce s
  | .enc14 dst a => Sys2Proof.Machine.execEnc14 dst a s
  | .dec14 d src => Sys2Proof.Machine.execDec14 d src s
  | .encr dst r => Sys2Proof.Machine.execEncr dst r s
  | .decr d src => Sys2Proof.Machine.execDecr d src s
  | .enca dst b seed => Sys2Proof.Machine.execEnca dst b seed s
  | .deca d seedDst src => Sys2Proof.Machine.execDeca d seedDst src s
  | .encb dst u r => Sys2Proof.Machine.execEncb dst u r s
  | .decb u r src => Sys2Proof.Machine.execDecb u r src s
  | .helprec r x seed nonce => Sys2Proof.Machine.execHelprec r x seed nonce s
  | .recKey key x r => Sys2Proof.Machine.execRecKey key x r s
  | .zerop d => Sys2Proof.Machine.execZerop d s
  | .zerob start len => Sys2Proof.Machine.execZerob start len s

end Sys2Proof.Machine
end

