-- ==== Sys2Proof/Machine/Sequencer.lean ====
section
/-! DEFINITION. The turns of the agents (10_state.md R30, R48): the sequencer's, and each kind of input's; the hard reset (70_reset_and_hazards.md R310). -/

namespace Sys2Proof.Machine

/-- The command word in execution is run to its completion. A word that is no command cannot enter execution (R272); on a state that holds
one it completes as its refusal would (log 14). -/
def runCommand (w : Command) (s : State) : Answer :=
  match decode w with
  | .instr i => exec i s
  | .refused e => .next (s.complete (opBits w) e.status)

/-- The sequencer's turn: it waits in Idle and while `rst_n` is 0, it ends Clearing, it runs the command in Exec; an outstanding request is
answered (R48, R310, R313; log 2). -/
def sequencerTurn (s : State) : Answer :=
  if s.rstN then
    match s.phase with
    | .idle => .next s
    | .clearing => .next s.finishClearing
    | .exec w => runCommand w s
  else .next s

/-- A host read while `rst_n` is 0 returns the reset values and changes no CSR (R310; log 9). -/
def State.readInReset (s : State) (addr : BitVec 18) (width : Width) : State :=
  { s with rdata := (readValue s addr width).getD 0#32 }

/-- The turn of the input that comes next (log 1). -/
def inputTurn (i : Input) (s : State) : Answer :=
  match i with
  | .read addr width => .next (if s.rstN then s.busRead addr width else s.readInReset addr width)
  | .write addr width v => .next (if s.rstN then s.busWrite addr width v else s)
  | .rstFall => .next { s.enterReset with rstN := false }
  | .rstRise => .next { s with rstN := true }
  | .clock => if s.request.isSome then .next s else sequencerTurn s
  | .answer => if s.request.isSome then sequencerTurn s else .next s
  | .lateAnswer => .next s

/-- One step: the turn of the next input, or the sequencer's where no input is left (log 1, log 2). -/
def turn (s : State) : Answer :=
  match s.inputs with
  | [] => sequencerTurn s
  | i :: rest => inputTurn i { s with inputs := rest }

/-- The state in which the sequencer is about to run a command word: it stands in CMD0 and CMD1, it is the copy in execution, its operands are
copied and its request is made, `rst_n` is 1 and no input comes before the sequencer's turn (R46, R48, R272; log 6). -/
def State.holdCommand (s : State) (cmd0 cmd1 : Word) : State :=
  let held : State := { s with cmd0 := cmd0, cmd1 := cmd1, rstN := true, inputs := [] }
  let w := commandOf cmd0 cmd1
  match decode w with
  | .instr i => held.enterExec w i
  | .refused _ => { held with phase := .exec w }

end Sys2Proof.Machine
end

