-- ==== Sys2Proof/Machine/Step.lean ====
section
/-! DEFINITION. One step of the machine, and where a step finds its next command. -/

namespace Sys2Proof.Machine

/-- One step: one turn of one agent (10_state.md R30, R48; 20_memory.md R90). -/
def step (s : State) : Host.Outcome State Fault Refusal := turn s

/-- `s` with the command whose low `nbits` bits are `w` (as the opcode table numbers them) in CMD0 and CMD1 and in execution, so that the next
step runs it (10_state.md R46, R48; log 6). -/
def State.withFetchWord (s : State) (nbits w : Nat) : State :=
  s.holdCommand (tableCmd0 nbits w) (tableCmd1 nbits w)

end Sys2Proof.Machine
end

