-- ==== Sys2Proof/Machine/NttSchedule.lean ====
section
/-! DEFINITION. The two reference schedules of the transforms (41_ntt.md R165, R166), level by level; the commands do not use them. The butterflies of one level touch disjoint pairs, so a level is written as the sequence it leaves. -/

namespace Sys2Proof.Machine

/-- One level of the Cooley–Tukey schedule, with m blocks of length 2t, t = 512 / m (R165). -/
def ctLevel (m : Nat) (a : Nat → Int) (j : Nat) : Int :=
  let t := 512 / m
  let root : Int := psiRev (m + j / (2 * t))
  if j % (2 * t) < t then modq (a j + modq (a (j + t) * root))
  else modq (a (j - t) - modq (a j * root))

/-- The Cooley–Tukey schedule: levels m = 1, 2, 4, …, 512 (R165). -/
def ctSchedule (a : Nat → Int) : Nat → Int :=
  (List.range 10).foldl (fun b l => ctLevel (2 ^ l) b) fun j => modq (a j)

/-- One of the first nine levels of the Gentleman–Sande schedule, with h blocks of length 2t, t = 512 / h (R166). -/
def gsLevel (h : Nat) (a : Nat → Int) (j : Nat) : Int :=
  let t := 512 / h
  let root : Int := psiInvRev (h + j / (2 * t))
  if j % (2 * t) < t then modq (a j + a (j + t))
  else modq ((a (j - t) - a j) * root)

/-- Level 10 of the Gentleman–Sande schedule, which folds in N⁻¹ (R166). -/
def gsLast (a : Nat → Int) (j : Nat) : Int :=
  if j < 512 then modq ((a j + a (j + 512)) * (Config.nInv : Int))
  else modq ((a (j - 512) - a j) * (omegaInv10N : Int))

/-- The Gentleman–Sande schedule: levels h = 512, 256, …, 2, then level 10 (R166). -/
def gsSchedule (a : Nat → Int) : Nat → Int :=
  gsLast ((List.range 9).foldl (fun b l => gsLevel (2 ^ (9 - l)) b) fun i => modq (a i))

end Sys2Proof.Machine
end

