-- ==== Sys2Proof/Safety.lean ====
section
/-! DEFINITION. What holds in every state the block can be in, and the terms in which claims speak of a run. -/

namespace Sys2Proof.Machine

/-- What the state is in each phase (R46, R48, R49, R60, R272, R310). -/
def State.PhaseInv (s : State) : Prop :=
  match s.phase with
  | .idle => s.request = none ∧ s.scratch = Scratch.zero
  | .clearing =>
      s.request = none ∧ s.done = false ∧ s.err = false ∧ s.resultCode = .success ∧ s.resultOp = 0#6 ∧
        s.firstErr = none ∧ s.cmd0 = 0#32 ∧ s.cmd1 = 0#32
  | .exec w =>
      w = commandOf s.cmd0 s.cmd1 ∧ s.done = false ∧ s.err = false ∧
        ∃ i, decode w = .instr i ∧ i.WellFormed ∧ s.request = requestOf i s ∧ s.scratch = operandCopies i s

/-- The invariant of the block: BMEM in its canonical form and inside its bounds, FIRSTERR never a recorded Success (R45), the phase's facts,
and every CSR at its reset value while `rst_n` is 0 (R310). -/
def State.Inv (s : State) : Prop :=
  Memory.wf s.bmem ∧ s.firstErr ≠ some .success ∧ s.PhaseInv ∧
    (s.rstN = false → s.phase = .clearing ∧ s.irqen = false ∧ s.accerr = false)

/-- `t` is reached from `s` by steps that answer a next state. -/
inductive Reaches : State → State → Prop where
  | refl (s : State) : Reaches s s
  | tail {s t u : State} : Reaches s t → step t = .next u → Reaches s u

end Sys2Proof.Machine
end

