-- ==== Sys2Proof/Certificates/Slice0/Obligations.lean ====
section
/-! DEFINITION. The statements about the model, and the terms they are written in. The terms under Sys2Proof.Claims are written from the spec's words, not from the model's functions, wherever the spec gives a formula. -/

namespace Sys2Proof.Claims

open Sys2Proof Sys2Proof.Machine

/-- `t` is `s` after the completion record of R273 with opcode `op` and status `c`, PMEM and BMEM left open: the fields the record writes, and
every other field kept. -/
def Completed (s t : State) (op : BitVec 6) (c : Status) : Prop :=
  t.resultOp = op ∧ t.resultCode = c ∧
    t.firstErr = (if s.firstErr = none ∧ c ≠ .success then some c else s.firstErr) ∧
    (t.err = true ↔ c ≠ .success) ∧ t.scratch = Scratch.zero ∧ t.phase = .idle ∧ t.done = true ∧
    t.request = none ∧ t.irqen = s.irqen ∧ t.accerr = s.accerr ∧ t.cmd0 = s.cmd0 ∧ t.cmd1 = s.cmd1 ∧
    t.rstN = s.rstN ∧ t.rdata = s.rdata ∧ t.inputs = s.inputs

/-- Every coefficient of every slot outside `ds` reads as before. -/
def SlotsKeptBut (s t : State) (ds : List Slot) : Prop :=
  ∀ e, e ∉ ds → ∀ i, i < 1024 → t.coeff e i = s.coeff e i

/-- Every byte of BMEM reads as before. -/
def BytesKept (s t : State) : Prop := ∀ a, t.byteAt a = s.byteAt a

/-- Every byte of BMEM outside the `len` bytes from `off` on reads as before. -/
def BytesKeptBut (s t : State) (off len : Nat) : Prop :=
  ∀ a, ¬(off ≤ a ∧ a < off + len) → t.byteAt a = s.byteAt a

/-- The command is refused for its operands: it completes with InvalidParameter under its opcode and changes neither PMEM nor BMEM (R272). -/
def RefusedWithoutEffect (i : Instr) (s : State) (op : BitVec 6) : Prop :=
  ∃ t, exec i s = .next t ∧ SlotsKeptBut s t [] ∧ BytesKept s t ∧ Completed s t op .invalidParameter

/-- The ten binary digits of i in reverse order (R9). -/
def rev10 (i : Nat) : Nat := (BitVec.ofNat 10 i).reverse.toNat

/-- The residue mod q of a word read as a signed integer (R9). -/
def red (w : Word) : Nat := (w.toInt % 12289).toNat

/-- The number of 1 bits of a byte (R9). -/
def popcount (b : Byte) : Int := (((List.range 8).map fun j => (b.getLsbD j).toNat).sum : Nat)

/-- c1(m) of block i (R193). -/
def c1 (st : Bytes 3072) (i m : Nat) : Int :=
  popcount (nth st (4 * i + m)) + popcount (nth st (2048 + 4 * i + m) &&& 0x0F#8)

/-- c2(m) of block i (R193). -/
def c2 (st : Bytes 3072) (i m : Nat) : Int :=
  popcount (nth st (1024 + 4 * i + m)) + popcount (nth st (2048 + 4 * i + m) >>> 4)

/-- How many of the thresholds y reaches (R240). -/
def reached (ts : List Int) (y : Int) : Int := ((ts.filter fun t => decide (t ≤ y)).length : Nat)

/-- The four hints of a lane with inputs x0..x3 and random bit `bit` (R240). -/
def hint (x0 x1 x2 x3 bit : Int) (part : Nat) : Int :=
  let v0 (x : Int) := reached [3073, 9217, 15362, 21506] (2 * x - bit)
  let v1 (x : Int) := reached [6145, 12289, 18434] (2 * x - bit)
  let dist (x : Int) := |2 * (2 * x - bit) - 12289 * v0 x|
  let norm := dist x0 + dist x1 + dist x2 + dist x3
  let c (x : Int) := if norm < 12289 then v0 x else v1 x
  match part with
  | 0 => (c x0 - c x3) % 4
  | 1 => (c x1 - c x3) % 4
  | 2 => (c x2 - c x3) % 4
  | _ => (2 * c x3 + (if norm ≥ 12289 then 1 else 0)) % 4

/-- |u| of one coordinate t of LDDecode, 4Q = 49156 and 8Q = 98312 (R241). -/
def folded (t : Int) : Int :=
  if 49156 < t then |t - 98312| else if t < -49156 then |t + 98312| else |t|

/-- A hint word of REC: its low two bits (R243). -/
def low2 (w : Word) : Int := ((w.toNat % 4 : Nat) : Int)

/-- The code numbers of R270: the status at position n has the value n. -/
def codes : List Status :=
  [.success, .genericError, .testError, .unknown, .notImplemented, .outOfMemory, .invalidParameter, .sharedKeyError,
    .tooManyIterations]

/-- The bytes of an access. -/
def bytesOf : Width → Nat
  | .w8 => 1
  | .w16 => 2
  | .w32 => 4

/-- The addresses of the CSRs (R32). -/
def csrAddresses : List Nat := [0x00, 0x04, 0x08, 0x0C, 0x10, 0x14, 0x18, 0x20, 0x24, 0x28, 0x2C, 0x30, 0x34]

/-- The accesses that the register map allows by address, width and alignment (R32, R83). -/
def Mapped (a : Nat) (w : Width) : Prop :=
  (a ∈ csrAddresses ∧ w = .w32) ∨ (0x10000 ≤ a ∧ a < 0x18000 ∧ a % 4 = 0 ∧ w = .w32) ∨
    (0x20000 ≤ a ∧ a % bytesOf w = 0 ∧ a + bytesOf w ≤ 0x22000)

/-- The assigned opcodes (R118). -/
def assigned : List Nat :=
  [0x00, 0x01, 0x02, 0x03, 0x04, 0x08, 0x09, 0x0C, 0x0D, 0x10, 0x11, 0x18, 0x19, 0x1A, 0x1B, 0x1C, 0x1D, 0x1E, 0x1F,
    0x20, 0x21, 0x28, 0x29]

/-- Two states that agree on all that decides which phase follows: phase, inputs, `rst_n`, whether a request is outstanding, the command
registers, DONE and IRQEN. PMEM, BMEM, scratch, the request's contents, the error records and the read data are free. -/
def SameControl (s₁ s₂ : State) : Prop :=
  s₁.phase = s₂.phase ∧ s₁.inputs = s₂.inputs ∧ s₁.rstN = s₂.rstN ∧
    s₁.request.isSome = s₂.request.isSome ∧ s₁.cmd0 = s₂.cmd0 ∧ s₁.cmd1 = s₂.cmd1 ∧ s₁.done = s₂.done ∧
    s₁.irqen = s₂.irqen

end Sys2Proof.Claims

open Sys2Proof Sys2Proof.Machine Sys2Proof.Claims

/-! ### Encoding -/

/-- Decoding the word of a command gives the command, for every command and all operand values (30_encoding.md R110, R112–R114, R119). -/
def Obligations.DecodeOfEncodeIsTheCommand : Prop :=
  ∀ i : Instr, decode (encode i) = .instr i ∧ commandOf (encodeCmd0 i) (encodeCmd1 i) = encode i

/-- A word that decodes to a command is that command's own word: no bit of a word is dropped (30_encoding.md R115, R117). -/
def Obligations.EncodeOfDecodeIsTheWord : Prop :=
  ∀ (w : Command) (i : Instr), decode w = .instr i → encode i = w

/-- The nine example words of R124 decode to the commands written beside them. -/
def Obligations.ExampleWordsDecode : Prop :=
  decode 0x0000000000000000#64 = .instr .nop ∧
    decode 0x0000000000000108#64 = .instr (.nttf 1 0) ∧
    decode 0x0000000051001B04#64 = .instr (.smul 3 3 81) ∧
    decode 0x000000000004400D#64 = .instr (.pmuladd 0 0 1 2) ∧
    decode 0x0000002001000211#64 = .instr (.sample 2 0x0020 1) ∧
    decode 0x000001000000001C#64 = .instr (.enca 0x0100 0 0x0000) ∧
    decode 0x0000002003002520#64 = .instr (.helprec 5 4 0x0020 3) ∧
    decode 0x000008000000111F#64 = .instr (.decb 1 2 0x0800) ∧
    decode 0x0020002000000029#64 = .instr (.zerob 0x0020 32)

/-- The all-zero word is NOP; every word is a command or is refused by name: an unassigned OP (NotImplemented), then a nonzero reserved bit,
then a nonzero blank field (InvalidParameter), which is the case of a word that no command is encoded as (30_encoding.md R115, R117, R118,
R120). That every word is one of these is the spec's inference "Every 64-bit word is decoded" (30_encoding.md §4). -/
def Obligations.EveryWordIsACommandOrRefused : Prop :=
  decode 0#64 = .instr .nop ∧
  DecodeError.unassignedOp.status = .notImplemented ∧ DecodeError.reservedBits.status = .invalidParameter ∧
  DecodeError.unusedField.status = .invalidParameter ∧
  ∀ w : Command,
    (w.toNat % 64 ∉ assigned → decode w = .refused .unassignedOp) ∧
      (w.toNat % 64 ∈ assigned → (w.toNat / 64 % 4 ≠ 0 ∨ w.toNat / 1048576 % 16 ≠ 0) →
        decode w = .refused .reservedBits) ∧
      (w.toNat % 64 ∈ assigned → w.toNat / 64 % 4 = 0 → w.toNat / 1048576 % 16 = 0 →
        (∃ i, encode i = w ∧ decode w = .instr i) ∨ ((∀ i, encode i ≠ w) ∧ decode w = .refused .unusedField))

/-! ### Issue and completion -/

/-- The operand values each command accepts: SMUL needs k ≠ 0, DECB two different slots, a BMEM region must end at or below 8192, and every
other operand value is accepted (30_encoding.md R116, R119; 40_modular.md R143; 44_codec.md R217). -/
def Obligations.OperandChecksOfEveryCommand : Prop :=
  ∀ (d a b c : Slot) (k : Imm8) (o p : Offset),
    (Instr.nop).WellFormed ∧ (Instr.redonce d a).WellFormed ∧ (Instr.twored d a).WellFormed ∧
      (Instr.corr d a).WellFormed ∧ ((Instr.smul d a k).WellFormed ↔ k ≠ 0) ∧ (Instr.nttf d a).WellFormed ∧
      (Instr.ntti d a).WellFormed ∧ (Instr.pmul d a b).WellFormed ∧ (Instr.pmuladd d a b c).WellFormed ∧
      ((Instr.gena d o).WellFormed ↔ o.toNat + 32 ≤ 8192) ∧
      ((Instr.sample d o k).WellFormed ↔ o.toNat + 32 ≤ 8192) ∧
      ((Instr.enc14 o a).WellFormed ↔ o.toNat + 1792 ≤ 8192) ∧
      ((Instr.dec14 d o).WellFormed ↔ o.toNat + 1792 ≤ 8192) ∧
      ((Instr.encr o a).WellFormed ↔ o.toNat + 256 ≤ 8192) ∧
      ((Instr.decr d o).WellFormed ↔ o.toNat + 256 ≤ 8192) ∧
      ((Instr.enca o b p).WellFormed ↔ o.toNat + 1824 ≤ 8192 ∧ p.toNat + 32 ≤ 8192) ∧
      ((Instr.deca d p o).WellFormed ↔ o.toNat + 1824 ≤ 8192 ∧ p.toNat + 32 ≤ 8192) ∧
      ((Instr.encb o a b).WellFormed ↔ o.toNat + 2048 ≤ 8192) ∧
      ((Instr.decb d a o).WellFormed ↔ o.toNat + 2048 ≤ 8192 ∧ d ≠ a) ∧
      ((Instr.helprec d a o k).WellFormed ↔ o.toNat + 32 ≤ 8192) ∧
      ((Instr.recKey o a b).WellFormed ↔ o.toNat + 32 ≤ 8192) ∧ (Instr.zerop d).WellFormed ∧
      ((Instr.zerob o p).WellFormed ↔ o.toNat + p.toNat ≤ 8192)

/-- Command issue: a CTRL write with START = 1 and SRST = 0 in Idle clears DONE and ERR and then either completes at once with the status of
the first check that fails, changing neither PMEM nor BMEM, or enters Exec with the copied word; `irq` falls on entering Exec and is the
written IRQEN after a refusal (10_state.md R63); while BUSY the write is an access error and no issue (60_exceptions.md R272). What the request and scratch then hold is said by RequestsCarryTheSeedAndTheNonce and the invariant. -/
def Obligations.IssueChecksThenExecutes : Prop :=
  (∀ (s : State) (v : Word) (rest : List Input), s.rstN = true → s.phase ≠ .idle →
    s.inputs = .write 0x00020#18 .w32 v :: rest → v.getLsbD 0 = true → v.getLsbD 1 = false →
    step s = .next { s with inputs := rest, irqen := v.getLsbD 2, accerr := true }) ∧
  ∀ (s : State) (v : Word) (rest : List Input), s.rstN = true → s.phase = .idle →
    s.inputs = .write 0x00020#18 .w32 v :: rest → v.getLsbD 0 = true → v.getLsbD 1 = false →
    let w := commandOf s.cmd0 s.cmd1
    let s' : State := { s with inputs := rest, irqen := v.getLsbD 2, done := false, err := false }
    ∃ t, step s = .next t ∧ t.pmem = s.pmem ∧ t.bmem = s.bmem ∧ (t.phase ≠ .idle → t.irq = false) ∧
      (t.phase = .idle → t.irq = v.getLsbD 2) ∧
      match decode w with
      | .refused .unassignedOp => Completed s' t (w.extractLsb' 0 6) .notImplemented
      | .refused .reservedBits => Completed s' t (w.extractLsb' 0 6) .invalidParameter
      | .refused .unusedField => Completed s' t (w.extractLsb' 0 6) .invalidParameter
      | .instr i =>
        if i.WellFormed then
          t = { s' with phase := .exec w, request := t.request, scratch := t.scratch }
        else Completed s' t (w.extractLsb' 0 6) .invalidParameter

/-- In Exec the sequencer's turn is the execution of the decoded command: with no input left, at a clock turn when no request is outstanding,
and when the outstanding request is answered (10_state.md R48; log 1, log 2 for the inputs). -/
def Obligations.StepRunsTheDecodedCommand : Prop :=
  ∀ (s : State) (w : Command) (i : Instr), s.rstN = true → s.phase = .exec w → decode w = .instr i →
    (s.inputs = [] → step s = exec i s) ∧
      (∀ rest, s.inputs = .clock :: rest → s.request = none → step s = exec i { s with inputs := rest }) ∧
      (∀ rest, s.inputs = .answer :: rest → s.request ≠ none → step s = exec i { s with inputs := rest })

/-- Every command, from every state, ends in one completion record with one status, under its own opcode; `irq`, in every state the level
IRQEN ∧ DONE and so 0 with either of them 0, is then the level of IRQEN (60_exceptions.md R273, R275; 10_state.md R63). -/
def Obligations.EveryCommandEndsInOneCompletionRecord : Prop :=
  (∀ s : State, s.irq = true ↔ s.irqen = true ∧ s.done = true) ∧
  ∀ (i : Instr) (s : State), ∃ t c, exec i s = .next t ∧ Completed s t ((encode i).extractLsb' 0 6) c ∧ t.irq = s.irqen

/-- The collaborator requests of the commands: GENA asks for 1024 XOF words of its seed, SAMPLE for 3072 stream bytes under the nonce bytes
[k, 0, …, 0], HELPREC for 32 under [0, k, 0, …, 0]; no other command makes one (10_state.md R60; 43_sampling.md R190, R192;
45_reconciliation.md R240). -/
def Obligations.RequestsCarryTheSeedAndTheNonce : Prop :=
  ∀ (s : State) (d x : Slot) (o : Offset) (k : Imm8) (i : Instr),
    requestOf (.gena d o) s = some (.xof (s.memRead o.toNat 32) 1024) ∧
      requestOf (.sample d o k) s = some (.stream (s.memRead o.toNat 32) #v[k, 0, 0, 0, 0, 0, 0, 0] 3072) ∧
      requestOf (.helprec d x o k) s = some (.stream (s.memRead o.toNat 32) #v[0, k, 0, 0, 0, 0, 0, 0] 32) ∧
      (requestOf i s ≠ none ↔ (encode i).extractLsb' 0 6 ∈ [0x10#6, 0x11#6, 0x20#6])

/-- A command whose operand values are refused completes with InvalidParameter and leaves PMEM and BMEM as they are (60_exceptions.md R272,
R274, R277; log 13 for a command run without issue). -/
def Obligations.RefusedOperandsChangeNothing : Prop :=
  ∀ (i : Instr) (s : State), ¬i.WellFormed →
    ∃ t, exec i s = .next t ∧ t.pmem = s.pmem ∧ t.bmem = s.bmem ∧
      Completed s t ((encode i).extractLsb' 0 6) .invalidParameter

/-! ### Modular arithmetic -/

/-- REDONCE, TWORED and CORR: every coefficient of the destination becomes x mod q of the source's, for every 32-bit x; nothing else but the
completion record changes (40_modular.md R140–R142, R144, R146). -/
def Obligations.ReductionsGiveTheCanonicalResidue : Prop :=
  ∀ (s : State) (d a : Slot),
    ∀ p ∈ [(Instr.redonce d a, 0x01#6), (Instr.twored d a, 0x02#6), (Instr.corr d a, 0x03#6)],
      ∃ t, exec p.1 s = .next t ∧
        (∀ i, i < 1024 → (t.coeff d i).toInt = (s.coeff a i).toInt % 12289) ∧
        SlotsKeptBut s t [d] ∧ BytesKept s t ∧ Completed s t p.2 .success

/-- SMUL: the signed product wrapped modulo 2^32 for k in 1..255, InvalidParameter and nothing changed for k = 0 (40_modular.md R143). -/
def Obligations.SmulWrapsTheSignedProduct : Prop :=
  ∀ (s : State) (d a : Slot) (k : Imm8),
    (k ≠ 0 → ∃ t, exec (.smul d a k) s = .next t ∧
      (∀ i, i < 1024 → t.coeff d i = BitVec.ofInt 32 ((s.coeff a i).toInt * (k.toNat : Int))) ∧
      SlotsKeptBut s t [d] ∧ BytesKept s t ∧ Completed s t 0x04#6 .success) ∧
    (k = 0 → RefusedWithoutEffect (.smul d a k) s 0x04#6)

/-! ### Transforms -/

/-- NTTF: index i of the destination is the value of the source polynomial at 7^(2·brv10(i)+1) modulo q (41_ntt.md R160, R163). -/
def Obligations.NttfEvaluatesAtOddPowersOfPsi : Prop :=
  ∀ (s : State) (d a : Slot), ∃ t, exec (.nttf d a) s = .next t ∧
    (∀ i, i < 1024 → (t.coeff d i).toNat =
      (∑ j ∈ Finset.range 1024, red (s.coeff a j) * 7 ^ ((2 * rev10 i + 1) * j)) % 12289) ∧
    SlotsKeptBut s t [d] ∧ BytesKept s t ∧ Completed s t 0x08#6 .success

/-- NTTI: coefficient j of the destination is 12277 times the sum of the source's values times powers of 8778, modulo q (41_ntt.md R161, R164). -/
def Obligations.NttiEvaluatesTheInverseSum : Prop :=
  ∀ (s : State) (d a : Slot), ∃ t, exec (.ntti d a) s = .next t ∧
    (∀ j, j < 1024 → (t.coeff d j).toNat =
      (12277 * ∑ i ∈ Finset.range 1024, red (s.coeff a i) * 8778 ^ ((2 * rev10 i + 1) * j)) % 12289) ∧
    SlotsKeptBut s t [d] ∧ BytesKept s t ∧ Completed s t 0x09#6 .success

/-- NTTI after NTTF gives every coefficient back modulo q: the spec's inference "NTTI(NTTF(a))[j] = a[j] mod q" (41_ntt.md §5). -/
def Obligations.NttiUndoesNttf : Prop :=
  ∀ (s : State) (a d e : Slot), ∃ t u, exec (.nttf d a) s = .next t ∧ exec (.ntti e d) t = .next u ∧
    ∀ j, j < 1024 → (u.coeff e j).toInt = (s.coeff a j).toInt % 12289

/-- NTTF after NTTI gives every coefficient back modulo q: the spec's inference "NTTF(NTTI(A))[i] = A[i] mod q" (41_ntt.md §5). -/
def Obligations.NttfUndoesNtti : Prop :=
  ∀ (s : State) (a d e : Slot), ∃ t u, exec (.ntti d a) s = .next t ∧ exec (.nttf e d) t = .next u ∧
    ∀ i, i < 1024 → (u.coeff e i).toInt = (s.coeff a i).toInt % 12289

/-- Two transforms, their pointwise product and the inverse transform give the product in Z_q[X]/(X^1024 + 1): the spec's inference on the
negacyclic product (41_ntt.md §5). -/
def Obligations.TransformsMultiplyNegacyclically : Prop :=
  ∀ (s : State) (a b x y z r : Slot), x ≠ b → x ≠ y →
    ∃ t1 t2 t3 t4, exec (.nttf x a) s = .next t1 ∧ exec (.nttf y b) t1 = .next t2 ∧
      exec (.pmul z x y) t2 = .next t3 ∧ exec (.ntti r z) t3 = .next t4 ∧
      ∀ k, k < 1024 → (t4.coeff r k).toInt =
        (∑ i ∈ Finset.range 1024, ∑ j ∈ Finset.range 1024,
          (if i + j = k then (s.coeff a i).toInt * (s.coeff b j).toInt
            else if i + j = k + 1024 then -((s.coeff a i).toInt * (s.coeff b j).toInt) else 0)) % 12289

/-- NTTF is linear over Z_q: where slot c holds a + b modulo q lane by lane, its transform is the sum of the transforms modulo q:
the spec's inference "NTTF(a + b) = NTTF(a) + NTTF(b) mod q coefficient-wise" (41_ntt.md §5). NttiIsLinear says it of NTTI. -/
def Obligations.NttfIsLinear : Prop :=
  ∀ (s : State) (a b c d : Slot),
    (∀ j, j < 1024 → (s.coeff c j).toInt % 12289 = ((s.coeff a j).toInt + (s.coeff b j).toInt) % 12289) →
    ∃ ta tb tc, exec (.nttf d a) s = .next ta ∧ exec (.nttf d b) s = .next tb ∧ exec (.nttf d c) s = .next tc ∧
      ∀ i, i < 1024 → (tc.coeff d i).toInt = ((ta.coeff d i).toInt + (tb.coeff d i).toInt) % 12289

/-- NTTI is linear over Z_q: where slot c holds a + b modulo q lane by lane, its inverse transform is the sum of the inverse transforms modulo
q: the spec's inference "Both are linear over Z_q" (41_ntt.md §5), of which NttfIsLinear is the other half. -/
def Obligations.NttiIsLinear : Prop :=
  ∀ (s : State) (a b c d : Slot),
    (∀ i, i < 1024 → (s.coeff c i).toInt % 12289 = ((s.coeff a i).toInt + (s.coeff b i).toInt) % 12289) →
    ∃ ta tb tc, exec (.ntti d a) s = .next ta ∧ exec (.ntti d b) s = .next tb ∧ exec (.ntti d c) s = .next tc ∧
      ∀ j, j < 1024 → (tc.coeff d j).toInt = ((ta.coeff d j).toInt + (tb.coeff d j).toInt) % 12289

/-- What NTTF leaves is what the Cooley–Tukey schedule computes, level by level: the spec's inference "It computes NTT of rule R160 exactly"
(41_ntt.md §4). -/
def Obligations.NttfAgreesWithCooleyTukey : Prop :=
  ∀ (s : State) (d a : Slot), ∃ t, exec (.nttf d a) s = .next t ∧
    ∀ i, i < 1024 → (t.coeff d i).toInt = ctSchedule (fun j => (s.coeff a j).toInt) i

/-- What NTTI leaves is what the Gentleman–Sande schedule computes, level by level: the spec's inference "It computes INTT of rule R161 exactly"
(41_ntt.md §4). -/
def Obligations.NttiAgreesWithGentlemanSande : Prop :=
  ∀ (s : State) (d a : Slot), ∃ t, exec (.ntti d a) s = .next t ∧
    ∀ j, j < 1024 → (t.coeff d j).toInt = gsSchedule (fun i => (s.coeff a i).toInt) j

/-! ### Pointwise -/

/-- PMUL and PMULADD: the exact product, or product plus third operand, reduced to [0, q), lane by lane (42_pointwise.md R180, R181). -/
def Obligations.PointwiseProductsAreExactBeforeReduction : Prop :=
  ∀ (s : State) (d a b c : Slot),
    (∃ t, exec (.pmul d a b) s = .next t ∧
      (∀ i, i < 1024 → (t.coeff d i).toInt = ((s.coeff a i).toInt * (s.coeff b i).toInt) % 12289) ∧
      SlotsKeptBut s t [d] ∧ BytesKept s t ∧ Completed s t 0x0C#6 .success) ∧
    (∃ t, exec (.pmuladd d a b c) s = .next t ∧
      (∀ i, i < 1024 →
        (t.coeff d i).toInt = ((s.coeff a i).toInt * (s.coeff b i).toInt + (s.coeff c i).toInt) % 12289) ∧
      SlotsKeptBut s t [d] ∧ BytesKept s t ∧ Completed s t 0x0D#6 .success)

/-- The four laws the spec infers in 42_pointwise.md §3, lane by lane: PMUL commutes and distributes over addition modulo q, PMULADD is PMUL plus the third operand
modulo q, and PMULADD with a zero third operand is PMUL. -/
def Obligations.PointwiseLaws : Prop :=
  ∀ (s : State) (d a b c e : Slot), ∃ tab tba tac tae tadd,
    exec (.pmul d a b) s = .next tab ∧ exec (.pmul d b a) s = .next tba ∧ exec (.pmul d a c) s = .next tac ∧
      exec (.pmul d a e) s = .next tae ∧ exec (.pmuladd d a b c) s = .next tadd ∧
      ∀ i, i < 1024 →
        tab.coeff d i = tba.coeff d i ∧
        (tadd.coeff d i).toInt = ((tab.coeff d i).toInt + (s.coeff c i).toInt) % 12289 ∧
        (s.coeff c i = 0 → tadd.coeff d i = tab.coeff d i) ∧
        ((s.coeff e i).toInt = ((s.coeff b i).toInt + (s.coeff c i).toInt) % 12289 →
          (tae.coeff d i).toInt = ((tab.coeff d i).toInt + (tac.coeff d i).toInt) % 12289)

/-! ### Sampling -/

/-- GENA (refused where its seed ends beyond BMEM): the collaborator's words where it answers Success with words below q; else the destination is zeroed and the status is the
collaborator's, or GenericError for a word at or above q (43_sampling.md R190, R191; 60_exceptions.md R274). -/
def Obligations.GenaTakesTheWordsOrFails : Prop :=
  ∀ (s : State) (d : Slot) (seed : Offset),
    (seed.toNat + 32 ≤ 8192 →
      ∃ t, exec (.gena d seed) s = .next t ∧ SlotsKeptBut s t [d] ∧ BytesKept s t ∧
        let r := Config.xof (s.memRead seed.toNat 32) 1024
        if r.1 ≠ .success then Completed s t 0x10#6 r.1 ∧ ∀ i, i < 1024 → t.coeff d i = 0
        else if ∃ i : Fin 1024, 12289 ≤ (nth r.2 i).toNat then
          Completed s t 0x10#6 .genericError ∧ ∀ i, i < 1024 → t.coeff d i = 0
        else Completed s t 0x10#6 .success ∧ ∀ i, i < 1024 → t.coeff d i = nth r.2 i) ∧
    (8192 < seed.toNat + 32 → RefusedWithoutEffect (.gena d seed) s 0x10#6)

/-- SAMPLE (refused where its seed ends beyond BMEM): the closed form, which the spec infers from its pseudocode ("Closed form of SAMPLE", 43_sampling.md §2), over the collaborator's
stream, or a zeroed destination and the collaborator's status (43_sampling.md R192; 60_exceptions.md R274). -/
def Obligations.SampleCountsStreamBits : Prop :=
  ∀ (s : State) (d : Slot) (seed : Offset) (k : Imm8),
    (seed.toNat + 32 ≤ 8192 →
      ∃ t, exec (.sample d seed k) s = .next t ∧ SlotsKeptBut s t [d] ∧ BytesKept s t ∧
        let nonce : Bytes 8 := #v[k, 0, 0, 0, 0, 0, 0, 0]
        let r := Config.stream (s.memRead seed.toNat 32) nonce 3072
        if r.1 ≠ .success then Completed s t 0x11#6 r.1 ∧ ∀ i, i < 1024 → t.coeff d i = 0
        else Completed s t 0x11#6 .success ∧ ∀ i, i < 256 →
          (t.coeff d (2 * i)).toInt = c1 r.2 i 0 - c1 r.2 i 1 ∧
          (t.coeff d (2 * i + 1)).toInt = c1 r.2 i 2 - c1 r.2 i 3 ∧
          (t.coeff d (2 * i + 512)).toInt = c2 r.2 i 0 - c2 r.2 i 1 ∧
          (t.coeff d (2 * i + 513)).toInt = c2 r.2 i 2 - c2 r.2 i 3) ∧
    (8192 < seed.toNat + 32 → RefusedWithoutEffect (.sample d seed k) s 0x11#6)

/-- Every coefficient SAMPLE leaves lies in [-12, 12], whatever the stream: the spec's inference "every output is an integer in [−12, 12]"
(43_sampling.md §2; 90_conflicts.md C2). -/
def Obligations.SampleStaysWithinTwelve : Prop :=
  ∀ (s : State) (d : Slot) (seed : Offset) (k : Imm8), seed.toNat + 32 ≤ 8192 →
    ∃ t, exec (.sample d seed k) s = .next t ∧
      ∀ i, i < 1024 → -12 ≤ (t.coeff d i).toInt ∧ (t.coeff d i).toInt ≤ 12

/-- Identical seed bytes and nonce give identical outputs and status, wherever the seed lies and whatever else the states hold
(43_sampling.md R192; 10_state.md R61). -/
def Obligations.SampleDependsOnSeedAndNonceOnly : Prop :=
  ∀ (s s' : State) (d d' : Slot) (o o' : Offset) (k : Imm8), o.toNat + 32 ≤ 8192 → o'.toNat + 32 ≤ 8192 →
    (∀ j, j < 32 → s.byteAt (o.toNat + j) = s'.byteAt (o'.toNat + j)) →
    ∃ t t', exec (.sample d o k) s = .next t ∧ exec (.sample d' o' k) s' = .next t' ∧
      t.resultCode = t'.resultCode ∧ ∀ i, i < 1024 → t.coeff d i = t'.coeff d' i

/-! ### Codec -/

/-- ENC14 (refused where its range ends beyond BMEM): bit n of the 1792 bytes is bit n mod 14 of coefficient n div 14, which is the layout of R200 (44_codec.md R200, R210). -/
def Obligations.Enc14LaysOutTheLowBits : Prop :=
  ∀ (s : State) (dst : Offset) (a : Slot),
    (dst.toNat + 1792 ≤ 8192 →
      ∃ t, exec (.enc14 dst a) s = .next t ∧
        (∀ n, n < 14336 →
          (t.byteAt (dst.toNat + n / 8)).getLsbD (n % 8) = (s.coeff a (n / 14)).getLsbD (n % 14)) ∧
        BytesKeptBut s t dst.toNat 1792 ∧ SlotsKeptBut s t [] ∧ Completed s t 0x18#6 .success) ∧
    (8192 < dst.toNat + 1792 → RefusedWithoutEffect (.enc14 dst a) s 0x18#6)

/-- DEC14 (refused where its range ends beyond BMEM): coefficient i is the 14 bits from bit 14i of the byte range on, unreduced (44_codec.md R200, R211). -/
def Obligations.Dec14ReadsFourteenBits : Prop :=
  ∀ (s : State) (d : Slot) (src : Offset),
    (src.toNat + 1792 ≤ 8192 →
      ∃ t, exec (.dec14 d src) s = .next t ∧
        (∀ i b, i < 1024 → b < 32 → (t.coeff d i).getLsbD b =
          (decide (b < 14) && (s.byteAt (src.toNat + (14 * i + b) / 8)).getLsbD ((14 * i + b) % 8))) ∧
        SlotsKeptBut s t [d] ∧ BytesKept s t ∧ Completed s t 0x19#6 .success) ∧
    (8192 < src.toNat + 1792 → RefusedWithoutEffect (.dec14 d src) s 0x19#6)

/-- ENCR and DECR (refused where the range ends beyond BMEM): two bits to a value, the first value lowest in its byte (44_codec.md R201, R212, R213). -/
def Obligations.EncrAndDecrPackTwoBits : Prop :=
  ∀ (s : State) (d : Slot) (o : Offset),
    (8192 < o.toNat + 256 → RefusedWithoutEffect (.encr o d) s 0x1A#6 ∧ RefusedWithoutEffect (.decr d o) s 0x1B#6) ∧
    (o.toNat + 256 ≤ 8192 → (∃ t, exec (.encr o d) s = .next t ∧
      (∀ n, n < 2048 → (t.byteAt (o.toNat + n / 8)).getLsbD (n % 8) = (s.coeff d (n / 2)).getLsbD (n % 2)) ∧
      BytesKeptBut s t o.toNat 256 ∧ SlotsKeptBut s t [] ∧ Completed s t 0x1A#6 .success) ∧
    (∃ t, exec (.decr d o) s = .next t ∧
      (∀ i b, i < 1024 → b < 32 → (t.coeff d i).getLsbD b =
        (decide (b < 2) && (s.byteAt (o.toNat + (2 * i + b) / 8)).getLsbD ((2 * i + b) % 8))) ∧
      SlotsKeptBut s t [d] ∧ BytesKept s t ∧ Completed s t 0x1B#6 .success))

/-- ENCA (refused where a range ends beyond BMEM): 1792 bytes of packed b, then the 32 seed bytes as they were before the command (44_codec.md R214). -/
def Obligations.EncaWritesPackedPolynomialThenSeed : Prop :=
  ∀ (s : State) (dst seed : Offset) (b : Slot),
    (dst.toNat + 1824 ≤ 8192 → seed.toNat + 32 ≤ 8192 →
      ∃ t, exec (.enca dst b seed) s = .next t ∧
        (∀ n, n < 14336 →
          (t.byteAt (dst.toNat + n / 8)).getLsbD (n % 8) = (s.coeff b (n / 14)).getLsbD (n % 14)) ∧
        (∀ j, j < 32 → t.byteAt (dst.toNat + 1792 + j) = s.byteAt (seed.toNat + j)) ∧
        BytesKeptBut s t dst.toNat 1824 ∧ SlotsKeptBut s t [] ∧ Completed s t 0x1C#6 .success) ∧
    (8192 < dst.toNat + 1824 ∨ 8192 < seed.toNat + 32 → RefusedWithoutEffect (.enca dst b seed) s 0x1C#6)

/-- DECA (refused where a range ends beyond BMEM): the polynomial from the first 1792 bytes, the last 32 bytes as they were before the command to the seed destination
(44_codec.md R215). -/
def Obligations.DecaReadsPolynomialAndSeed : Prop :=
  ∀ (s : State) (d : Slot) (sd src : Offset),
    (src.toNat + 1824 ≤ 8192 → sd.toNat + 32 ≤ 8192 →
      ∃ t, exec (.deca d sd src) s = .next t ∧
        (∀ i b, i < 1024 → b < 32 → (t.coeff d i).getLsbD b =
          (decide (b < 14) && (s.byteAt (src.toNat + (14 * i + b) / 8)).getLsbD ((14 * i + b) % 8))) ∧
        (∀ j, j < 32 → t.byteAt (sd.toNat + j) = s.byteAt (src.toNat + 1792 + j)) ∧
        SlotsKeptBut s t [d] ∧ BytesKeptBut s t sd.toNat 32 ∧ Completed s t 0x1D#6 .success) ∧
    (8192 < src.toNat + 1824 ∨ 8192 < sd.toNat + 32 → RefusedWithoutEffect (.deca d sd src) s 0x1D#6)

/-- ENCB (refused where its range ends beyond BMEM): 1792 bytes of packed u, then 256 bytes of packed r (44_codec.md R216). -/
def Obligations.EncbWritesPackedPolynomialThenHints : Prop :=
  ∀ (s : State) (dst : Offset) (u r : Slot),
    (dst.toNat + 2048 ≤ 8192 →
      ∃ t, exec (.encb dst u r) s = .next t ∧
        (∀ n, n < 14336 →
          (t.byteAt (dst.toNat + n / 8)).getLsbD (n % 8) = (s.coeff u (n / 14)).getLsbD (n % 14)) ∧
        (∀ n, n < 2048 →
          (t.byteAt (dst.toNat + 1792 + n / 8)).getLsbD (n % 8) = (s.coeff r (n / 2)).getLsbD (n % 2)) ∧
        BytesKeptBut s t dst.toNat 2048 ∧ SlotsKeptBut s t [] ∧ Completed s t 0x1E#6 .success) ∧
    (8192 < dst.toNat + 2048 → RefusedWithoutEffect (.encb dst u r) s 0x1E#6)

/-- DECB: u from the first 1792 bytes and r from the last 256 into two different slots; one slot for both, or a range that ends beyond
BMEM, is refused and changes nothing
(44_codec.md R217). -/
def Obligations.DecbReadsPolynomialAndHints : Prop :=
  ∀ (s : State) (u r : Slot) (src : Offset),
    (src.toNat + 2048 ≤ 8192 → u ≠ r → ∃ t, exec (.decb u r src) s = .next t ∧
      (∀ i b, i < 1024 → b < 32 → (t.coeff u i).getLsbD b =
        (decide (b < 14) && (s.byteAt (src.toNat + (14 * i + b) / 8)).getLsbD ((14 * i + b) % 8))) ∧
      (∀ i b, i < 1024 → b < 32 → (t.coeff r i).getLsbD b =
        (decide (b < 2) && (s.byteAt (src.toNat + 1792 + (2 * i + b) / 8)).getLsbD ((2 * i + b) % 8))) ∧
      SlotsKeptBut s t [u, r] ∧ BytesKept s t ∧ Completed s t 0x1F#6 .success) ∧
    (8192 < src.toNat + 2048 ∨ u = r → RefusedWithoutEffect (.decb u r src) s 0x1F#6)

/-- DEC14 after ENC14 gives a polynomial with coefficients in [0, 16384) back: the spec's inference in 44_codec.md §2. -/
def Obligations.Dec14UndoesEnc14 : Prop :=
  ∀ (s : State) (a d : Slot) (o : Offset), o.toNat + 1792 ≤ 8192 →
    (∀ i, i < 1024 → (s.coeff a i).toNat < 16384) →
    ∃ t u, exec (.enc14 o a) s = .next t ∧ exec (.dec14 d o) t = .next u ∧
      ∀ i, i < 1024 → u.coeff d i = s.coeff a i

/-- ENC14 after DEC14 gives every 1792-byte sequence back and leaves BMEM as it was: the spec's inference in 44_codec.md §2. -/
def Obligations.Enc14UndoesDec14 : Prop :=
  ∀ (s : State) (d : Slot) (o : Offset), o.toNat + 1792 ≤ 8192 →
    ∃ t u, exec (.dec14 d o) s = .next t ∧ exec (.enc14 o d) t = .next u ∧ BytesKept s u

/-- DECA after ENCA gives (b, seed) back, DECB after ENCB gives (u, r) back: the spec's inferences in 44_codec.md §3 and §4, taken to message
B. -/
def Obligations.MessagesRoundTrip : Prop :=
  (∀ (s : State) (b d : Slot) (o seed sd : Offset), o.toNat + 1824 ≤ 8192 → seed.toNat + 32 ≤ 8192 →
    sd.toNat + 32 ≤ 8192 → (∀ i, i < 1024 → (s.coeff b i).toNat < 16384) →
    ∃ t v, exec (.enca o b seed) s = .next t ∧ exec (.deca d sd o) t = .next v ∧
      (∀ i, i < 1024 → v.coeff d i = s.coeff b i) ∧
      ∀ j, j < 32 → v.byteAt (sd.toNat + j) = s.byteAt (seed.toNat + j)) ∧
  (∀ (s : State) (u r d e : Slot) (o : Offset), o.toNat + 2048 ≤ 8192 → d ≠ e →
    (∀ i, i < 1024 → (s.coeff u i).toNat < 16384 ∧ (s.coeff r i).toNat < 4) →
    ∃ t v, exec (.encb o u r) s = .next t ∧ exec (.decb d e o) t = .next v ∧
      ∀ i, i < 1024 → v.coeff d i = s.coeff u i ∧ v.coeff e i = s.coeff r i)

/-! ### Reconciliation -/

/-- HELPREC (refused where its seed ends beyond BMEM): the hints of R240 lane by lane from the collaborator's 32 random bytes, or a zeroed destination and the collaborator's status
(45_reconciliation.md R240; 60_exceptions.md R274). -/
def Obligations.HelprecComputesTheHints : Prop :=
  ∀ (s : State) (r x : Slot) (seed : Offset) (k : Imm8),
    (seed.toNat + 32 ≤ 8192 →
      ∃ t, exec (.helprec r x seed k) s = .next t ∧ SlotsKeptBut s t [r] ∧ BytesKept s t ∧
        let nonce : Bytes 8 := #v[0, k, 0, 0, 0, 0, 0, 0]
        let q := Config.stream (s.memRead seed.toNat 32) nonce 32
        if q.1 ≠ .success then Completed s t 0x20#6 q.1 ∧ ∀ i, i < 1024 → t.coeff r i = 0
        else Completed s t 0x20#6 .success ∧ ∀ i part, i < 256 → part < 4 →
          (t.coeff r (i + 256 * part)).toInt =
            hint (s.coeff x i).toInt (s.coeff x (i + 256)).toInt (s.coeff x (i + 512)).toInt (s.coeff x (i + 768)).toInt
              (((nth q.2 (i / 8)).toNat / 2 ^ (i % 8) % 2 : Nat) : Int) part) ∧
    (8192 < seed.toNat + 32 → RefusedWithoutEffect (.helprec r x seed k) s 0x20#6)

/-- Every hint HELPREC leaves lies in [0, 4), for any input: the spec's inference in 45_reconciliation.md §1. -/
def Obligations.HelprecHintsAreBelowFour : Prop :=
  ∀ (s : State) (r x : Slot) (seed : Offset) (k : Imm8), seed.toNat + 32 ≤ 8192 →
    ∃ t, exec (.helprec r x seed k) s = .next t ∧ ∀ i, i < 1024 → (t.coeff r i).toNat < 4

/-- REC (refused where its key ends beyond BMEM): key bit i is LDDecode of lane i; the 32 key bytes are written whole (45_reconciliation.md
R241, R243). -/
def Obligations.RecWritesTheDecodedKey : Prop :=
  ∀ (s : State) (key : Offset) (x r : Slot),
    (key.toNat + 32 ≤ 8192 →
      ∃ t, exec (.recKey key x r) s = .next t ∧
        (∀ i, i < 256 →
          let h (k : Nat) := low2 (s.coeff r k)
          let v (k : Nat) := (s.coeff x k).toInt
          ((t.byteAt (key.toNat + i / 8)).getLsbD (i % 8) = true ↔
            folded (8 * v i - (2 * h i + h (i + 768)) * 12289) +
              folded (8 * v (i + 256) - (2 * h (i + 256) + h (i + 768)) * 12289) +
              folded (8 * v (i + 512) - (2 * h (i + 512) + h (i + 768)) * 12289) +
              folded (8 * v (i + 768) - h (i + 768) * 12289) ≤ 98312)) ∧
        BytesKeptBut s t key.toNat 32 ∧ SlotsKeptBut s t [] ∧ Completed s t 0x21#6 .success) ∧
    (8192 < key.toNat + 32 → RefusedWithoutEffect (.recKey key x r) s 0x21#6)

/-! ### Control -/

/-- NOP changes the completion fields and nothing else (46_control.md R260). -/
def Obligations.NopOnlyCompletes : Prop :=
  ∀ s : State, ∃ t, exec .nop s = .next t ∧ SlotsKeptBut s t [] ∧ BytesKept s t ∧ Completed s t 0x00#6 .success

/-- ZEROP: every coefficient of the slot is 0, nothing else changes (46_control.md R261). -/
def Obligations.ZeropClearsTheSlot : Prop :=
  ∀ (s : State) (d : Slot), ∃ t, exec (.zerop d) s = .next t ∧ (∀ i, i < 1024 → t.coeff d i = 0) ∧
    SlotsKeptBut s t [d] ∧ BytesKept s t ∧ Completed s t 0x28#6 .success

/-- ZEROB: the bytes of the range are 0 where the range ends at or below 8192 (length 0 included), nothing else changes; a range beyond BMEM
is refused and changes nothing (46_control.md R262). -/
def Obligations.ZerobClearsTheRange : Prop :=
  ∀ (s : State) (start len : Offset),
    (start.toNat + len.toNat ≤ 8192 → ∃ t, exec (.zerob start len) s = .next t ∧
      (∀ j, j < len.toNat → t.byteAt (start.toNat + j) = 0) ∧
      BytesKeptBut s t start.toNat len.toNat ∧ SlotsKeptBut s t [] ∧ Completed s t 0x29#6 .success) ∧
    (8192 < start.toNat + len.toNat → RefusedWithoutEffect (.zerob start len) s 0x29#6)

/-! ### The host bus -/

/-- The identification and parameter registers read their constants in every phase, reading them changes nothing but the read data, and
writing them changes nothing (10_state.md R33–R39, R51). -/
def Obligations.ConstantRegistersReadTheirValues : Prop :=
  ∀ (s : State) (rest : List Input),
    ∀ p ∈ [(0x00000#18, 0x524C5745#32), (0x00004#18, 0x00010007#32), (0x00008#18, 1024#32), (0x0000C#18, 12289#32),
        (0x00010#18, 7#32), (0x00014#18, 8#32), (0x00018#18, 8192#32)],
      s.rstN = true →
        (s.inputs = .read p.1 .w32 :: rest → step s = .next { s with inputs := rest, rdata := p.2 }) ∧
        ∀ v, s.inputs = .write p.1 .w32 v :: rest → step s = .next { s with inputs := rest }

/-- CTRL, STATUS, RESULT, FIRSTERR, CMD0 and CMD1 as read, bit by bit, in every phase; reading them changes nothing but the read data
(10_state.md R42–R46, R48, R51; 60_exceptions.md R270). -/
def Obligations.ControlRegistersReadTheirFields : Prop :=
  ∀ (s : State) (addr : BitVec 18) (rest : List Input), s.rstN = true → s.inputs = .read addr .w32 :: rest →
    addr ∈ [0x00020#18, 0x00024#18, 0x00028#18, 0x0002C#18, 0x00030#18, 0x00034#18] →
    ∃ v : Word, step s = .next { s with inputs := rest, rdata := v } ∧
      (addr = 0x00020#18 → v.toNat = 4 * s.irqen.toNat) ∧
      (addr = 0x00024#18 →
        v.toNat = (if s.phase = .idle then 0 else 1) + 2 * s.done.toNat + 4 * s.err.toNat + 8 * s.accerr.toNat) ∧
      (addr = 0x00028#18 → ∃ n, codes[n]? = some s.resultCode ∧ v.toNat = 256 * s.resultOp.toNat + n) ∧
      (addr = 0x0002C#18 →
        (s.firstErr = none → v.toNat = 0) ∧
        ∀ c, s.firstErr = some c → ∃ n, codes[n]? = some c ∧ v.toNat = 2147483648 + n) ∧
      (addr = 0x00030#18 → v = s.cmd0) ∧ (addr = 0x00034#18 → v = s.cmd1)

/-- An access the register map does not allow reads 0 or writes nothing and sets ACCERR; in Idle, every access the map allows, read or write,
is no access error: it leaves no ACCERR that was not there before (20_memory.md R83, R84; 10_state.md R32). -/
def Obligations.UnmappedAccessesAreAccessErrors : Prop :=
  ∀ (s : State) (addr : BitVec 18) (w : Width) (rest : List Input), s.rstN = true →
    (¬Mapped addr.toNat w →
      (s.inputs = .read addr w :: rest → step s = .next { s with inputs := rest, rdata := 0, accerr := true }) ∧
      ∀ v, s.inputs = .write addr w v :: rest → step s = .next { s with inputs := rest, accerr := true }) ∧
    (Mapped addr.toNat w → s.phase = .idle →
      (s.inputs = .read addr w :: rest → ∃ v, step s = .next { s with inputs := rest, rdata := v }) ∧
      ∀ v, s.inputs = .write addr w v :: rest → ∃ t, step s = .next t ∧ (t.accerr = true → s.accerr = true))

/-- While BUSY: window accesses, CMD writes and START are access errors (of START the IRQEN bit still acts); reads of every CSR stay allowed
(20_memory.md R85; 10_state.md R42, R46). -/
def Obligations.BusyPhaseAccessesAreLost : Prop :=
  ∀ (s : State) (addr : BitVec 18) (w : Width) (v : Word) (rest : List Input), s.rstN = true → s.phase ≠ .idle →
    (0x10000 ≤ addr.toNat → s.inputs = .read addr w :: rest →
      step s = .next { s with inputs := rest, rdata := 0, accerr := true }) ∧
    (0x10000 ≤ addr.toNat → s.inputs = .write addr w v :: rest →
      step s = .next { s with inputs := rest, accerr := true }) ∧
    ((addr = 0x00030#18 ∨ addr = 0x00034#18) → s.inputs = .write addr w v :: rest →
      step s = .next { s with inputs := rest, accerr := true }) ∧
    (addr = 0x00020#18 → w = .w32 → v.getLsbD 0 = true → v.getLsbD 1 = false → s.inputs = .write addr w v :: rest →
      step s = .next { s with inputs := rest, irqen := v.getLsbD 2, accerr := true }) ∧
    (addr.toNat ∈ csrAddresses → s.inputs = .read addr .w32 :: rest →
      ∃ x, step s = .next { s with inputs := rest, rdata := x })

/-- The PMEM window in Idle: coefficient i of slot d stands at 0x10000 + 0x1000·d + 4·i, is read whole and is written alone (10_state.md R32,
R40). -/
def Obligations.PmemWindowReadsAndWrites : Prop :=
  ∀ (s : State) (d : Slot) (i : Nat) (v : Word) (rest : List Input), s.rstN = true → s.phase = .idle → i < 1024 →
    let addr := BitVec.ofNat 18 (0x10000 + 0x1000 * d.toNat + 4 * i)
    (s.inputs = .read addr .w32 :: rest → step s = .next { s with inputs := rest, rdata := s.coeff d i }) ∧
    (s.inputs = .write addr .w32 v :: rest →
      ∃ t, step s = .next t ∧ t = { s with inputs := rest, pmem := t.pmem } ∧
        ∀ e j, j < 1024 → t.coeff e j = if e = d ∧ j = i then v else s.coeff e j)

/-- The BMEM window in Idle is little-endian at every width: bit n of the data is bit n mod 8 of byte n div 8, on reads and on writes, and a
write changes those bytes alone (20_memory.md R81, R83; log 15 for the place of narrow data). -/
def Obligations.BmemWindowIsLittleEndian : Prop :=
  ∀ (s : State) (b : Nat) (w : Width) (v : Word) (rest : List Input), s.rstN = true → s.phase = .idle →
    b % bytesOf w = 0 → b + bytesOf w ≤ 8192 →
    let addr := BitVec.ofNat 18 (0x20000 + b)
    (s.inputs = .read addr w :: rest →
      ∃ x, step s = .next { s with inputs := rest, rdata := x } ∧
        ∀ n, n < 32 → x.getLsbD n = (decide (n < 8 * bytesOf w) && (s.byteAt (b + n / 8)).getLsbD (n % 8))) ∧
    (s.inputs = .write addr w v :: rest →
      ∃ t, step s = .next t ∧ t = { s with inputs := rest, bmem := t.bmem } ∧ BytesKeptBut s t b (bytesOf w) ∧
        ∀ n, n < 8 * bytesOf w → (t.byteAt (b + n / 8)).getLsbD (n % 8) = v.getLsbD n)

/-- Writes to CSRs: RO registers ignore them, STATUS clears the flags written with 1, FIRSTERR is cleared by any value, CTRL without START and
SRST sets IRQEN, each in every phase; CMD0 and CMD1 take the value in Idle. `irq` falls when DONE is cleared or IRQEN is written 0, and is
DONE when IRQEN is written 1 (10_state.md R42, R43, R45, R46, R51, R63). -/
def Obligations.CsrWritesActAsTheirFieldsSay : Prop :=
  ∀ (s : State) (addr : BitVec 18) (v : Word) (rest : List Input), s.rstN = true →
    s.inputs = .write addr .w32 v :: rest →
    (addr.toNat ∈ [0x00, 0x04, 0x08, 0x0C, 0x10, 0x14, 0x18, 0x28] → step s = .next { s with inputs := rest }) ∧
    (addr = 0x00024#18 → ∃ t, step s = .next t ∧
      t = { s with
        inputs := rest, done := s.done && !v.getLsbD 1, err := s.err && !v.getLsbD 2,
        accerr := s.accerr && !v.getLsbD 3 } ∧
      (v.getLsbD 1 = true → t.irq = false) ∧ (v.getLsbD 1 = false → t.irq = s.irq)) ∧
    (addr = 0x0002C#18 → step s = .next { s with inputs := rest, firstErr := none }) ∧
    (addr = 0x00020#18 → v.getLsbD 0 = false → v.getLsbD 1 = false → ∃ t, step s = .next t ∧
      t = { s with inputs := rest, irqen := v.getLsbD 2 } ∧
      (v.getLsbD 2 = false → t.irq = false) ∧ (v.getLsbD 2 = true → t.irq = s.done)) ∧
    (addr = 0x00030#18 → s.phase = .idle → step s = .next { s with inputs := rest, cmd0 := v }) ∧
    (addr = 0x00034#18 → s.phase = .idle → step s = .next { s with inputs := rest, cmd1 := v })

/-! ### Reset -/

/-- Soft reset: a CTRL write with SRST = 1, in any phase and whatever START and IRQEN of the same write are, puts every CSR at its reset
value, abandons command and request without a record, and enters Clearing; a response to an abandoned request is discarded
(70_reset_and_hazards.md R311; 10_state.md R42). That PMEM, BMEM and scratch hold their old contents until the end of Clearing zeroes them is
the model's choice of log 7 (70_reset_and_hazards.md R313). -/
def Obligations.SoftResetAbandonsEverything : Prop :=
  (∀ (s : State) (v : Word) (rest : List Input), s.rstN = true → s.inputs = .write 0x00020#18 .w32 v :: rest →
    v.getLsbD 1 = true →
    step s = .next { s with
      inputs := rest, irqen := false, done := false, err := false, accerr := false, resultCode := .success,
      resultOp := 0, firstErr := none, cmd0 := 0, cmd1 := 0, phase := .clearing, request := none }) ∧
  ∀ (s : State) (rest : List Input), s.request = none → s.inputs = .answer :: rest ∨ s.inputs = .lateAnswer :: rest →
    step s = .next { s with inputs := rest }

/-- Hard reset: `rst_n` falling does as the soft reset in every state; while it is 0 no bus access and no clock changes anything but the read
data; when it rises nothing but the pin changes, and in every state of the invariant whose `rst_n` is 0 the phase is then Clearing
(70_reset_and_hazards.md R310). That PMEM, BMEM and scratch hold their old contents until the end of Clearing zeroes them is the model's
choice of log 7 (70_reset_and_hazards.md R313); the accesses while `rst_n` is 0 are its choice of log 9. -/
def Obligations.HardResetHoldsTheBlock : Prop :=
  ∀ (s : State) (rest : List Input),
    (s.inputs = .rstFall :: rest →
      step s = .next { s with
        inputs := rest, irqen := false, done := false, err := false, accerr := false, resultCode := .success,
        resultOp := 0, firstErr := none, cmd0 := 0, cmd1 := 0, phase := .clearing, request := none, rstN := false }) ∧
    (∀ i, s.rstN = false → s.inputs = i :: rest → i ≠ .rstFall → i ≠ .rstRise →
      ∃ x, step s = .next { s with inputs := rest, rdata := x }) ∧
    (s.inputs = .rstRise :: rest → step s = .next { s with inputs := rest, rstN := true }) ∧
    (s.Inv → s.rstN = false → s.inputs = .rstRise :: rest →
      ∃ t, step s = .next t ∧ t.phase = .clearing ∧ t.rstN = true)

/-- The end of Clearing: every coefficient, every byte and all scratch are 0, STATUS is 0, the phase is Idle, and nothing else changes
(70_reset_and_hazards.md R312, R313; that ACCERR ends at 0 and IRQEN is kept is the reading of log 8). -/
def Obligations.ClearingZeroesTheMemories : Prop :=
  ∀ s : State, s.rstN = true → s.phase = .clearing → s.request = none →
    (s.inputs = [] ∨ ∃ rest, s.inputs = .clock :: rest) →
    ∃ t, step s = .next t ∧ (∀ d i, i < 1024 → t.coeff d i = 0) ∧ (∀ a, t.byteAt a = 0) ∧
      t = { s with
        inputs := s.inputs.tail, pmem := t.pmem, bmem := [], scratch := Scratch.zero, done := false, err := false,
        accerr := false, phase := .idle }

/-- No value from before a reset, hard or soft, can be read after it: two blocks that agree in the last read data and in what the outside does
next, and may differ in everything else, are the same block after a soft reset and the end of Clearing (`rst_n` being 1 in both), and after
`rst_n` has fallen and risen and Clearing has ended (70_reset_and_hazards.md R312). -/
def Obligations.ResetForgetsEverySecret : Prop :=
  (∀ (s₁ s₂ : State) (v : Word) (rest : List Input), v.getLsbD 1 = true →
    (∀ s ∈ [s₁, s₂], s.rstN = true ∧ s.inputs = .write 0x00020#18 .w32 v :: .clock :: rest) → s₁.rdata = s₂.rdata →
    ∃ t₁ t₂ u, step s₁ = .next t₁ ∧ step s₂ = .next t₂ ∧ step t₁ = .next u ∧ step t₂ = .next u ∧ u.phase = .idle) ∧
  ∀ (s₁ s₂ : State) (rest : List Input),
    (∀ s ∈ [s₁, s₂], s.inputs = .rstFall :: .rstRise :: .clock :: rest) → s₁.rdata = s₂.rdata →
    ∃ t₁ t₂ r₁ r₂ u, step s₁ = .next t₁ ∧ step s₂ = .next t₂ ∧ step t₁ = .next r₁ ∧ step t₂ = .next r₂ ∧
      step r₁ = .next u ∧ step r₂ = .next u ∧ u.phase = .idle

/-- The state right after reset holds the reset values of 10_state.md §8 (R314), in the Clearing phase. -/
def Obligations.ResetStateHoldsTheResetValues : Prop :=
  (∀ d i, i < 1024 → State.reset.coeff d i = 0) ∧ (∀ a, State.reset.byteAt a = 0) ∧ State.reset.phase = .clearing ∧
    State.reset.scratch = Scratch.zero ∧ State.reset.request = none ∧ State.reset.irq = false ∧
    ctrlWord State.reset = 0 ∧ statusWord State.reset = 1 ∧ resultWord State.reset = 0 ∧
    firstErrWord State.reset = 0 ∧ State.reset.cmd0 = 0 ∧ State.reset.cmd1 = 0 ∧
    ∃ t, step State.reset = .next t ∧ t.phase = .idle ∧ statusWord t = 0

/-! ### The whole machine -/

/-- Every step keeps the invariant of the block: BMEM canonical and inside its bounds, no Success in FIRSTERR, no request and no scratch in Idle,
reset values in Clearing, and in Exec the checked command of CMD1 ‖ CMD0 with its own request (10_state.md R45–R49, R60; 60_exceptions.md
R272). The contents of scratch in Exec are the model's choice of log 11. -/
def Obligations.EveryStepKeepsTheInvariant : Prop :=
  ∀ s t : State, s.Inv → step s = .next t → t.Inv

/-- The state after reset meets the invariant. -/
def Obligations.ResetMeetsTheInvariant : Prop := State.reset.Inv

/-- PMEM and BMEM change only in steps that end in Idle: never while the block stays or becomes busy. For Exec this is the spec's inference
"applied at completion" (20_memory.md §5); for Clearing, whose zeroing R313 lets go on during the phase, it is the model's choice of log 7
(the memories are zeroed in the step that ends it). -/
def Obligations.MemoriesAreKeptWhileBusy : Prop :=
  ∀ s t : State, step s = .next t → t.phase ≠ .idle → t.pmem = s.pmem ∧ t.bmem = s.bmem

/-- Which phase follows, DONE and `irq` do not depend on PMEM, BMEM, scratch or the collaborator's data: two states of the same control stay
so at every step (70_reset_and_hazards.md R330 as far as steps show time; log 19). -/
def Obligations.ControlDoesNotDependOnData : Prop :=
  ∀ s₁ s₂ t₁ t₂ : State, SameControl s₁ s₂ → step s₁ = .next t₁ → step s₂ = .next t₂ →
    SameControl t₁ t₂ ∧ t₁.irq = t₂.irq

/-- A command with an outstanding request waits at every clock turn, and a late answer to an abandoned request is discarded
(70_reset_and_hazards.md R311, R326). -/
def Obligations.TheBlockWaitsForTheCollaborator : Prop :=
  ∀ (s : State) (rest : List Input),
    (s.request ≠ none → s.inputs = .clock :: rest → step s = .next { s with inputs := rest }) ∧
    (s.inputs = .lateAnswer :: rest → step s = .next { s with inputs := rest })
end

