-- ==== Sys2Proof/Laws/Decode.lean ====
section
/-! SUPPORT. The fields of a packed word (30_encoding.md R110), and the opcode map read both ways (R118). -/

namespace Sys2Proof

theorem Op.ofCode_code (o : Op) : Op.ofCode o.code = some o := by cases o <;> decide

theorem Op.code_of_ofCode {c : BitVec 6} {o : Op} (h : Op.ofCode c = some o) : o.code = c := by
  have := List.find?_some h
  simpa using this

theorem opBits_packFields (o : Op) (f : Fields) : opBits (packFields o f) = o.code := by
  unfold opBits packFields
  apply BitVec.eq_of_getLsbD_eq
  intro i hi
  simp only [BitVec.getLsbD_extractLsb', BitVec.getLsbD_append, hi, decide_true, Bool.true_and, Nat.zero_add, if_true]

/-- A window of an append that lies in the high part. -/
theorem extractLsb'_append_high {n m k l : Nat} (x : BitVec n) (y : BitVec m) (h : m ≤ k) :
    (x ++ y).extractLsb' k l = x.extractLsb' (k - m) l := by
  apply BitVec.eq_of_getLsbD_eq
  intro i hi
  simp only [BitVec.getLsbD_extractLsb', BitVec.getLsbD_append, hi, decide_true, Bool.true_and]
  rw [if_neg (by omega)]
  congr 1; omega

/-- A window of an append that is exactly the low part. -/
theorem extractLsb'_append_low {n m : Nat} (x : BitVec n) (y : BitVec m) :
    (x ++ y).extractLsb' 0 m = y := by
  apply BitVec.eq_of_getLsbD_eq
  intro i hi
  simp [BitVec.getLsbD_append, hi]

theorem res0Bits_packFields (o : Op) (f : Fields) : res0Bits (packFields o f) = 0#2 := by
  unfold res0Bits packFields
  rw [extractLsb'_append_high _ _ (by decide), extractLsb'_append_low]

theorem res1Bits_packFields (o : Op) (f : Fields) : res1Bits (packFields o f) = 0#4 := by
  unfold res1Bits packFields
  iterate 6 rw [extractLsb'_append_high _ _ (by decide)]
  rw [extractLsb'_append_low]

theorem fieldsOf_packFields (o : Op) (f : Fields) : fieldsOf (packFields o f) = f := by
  obtain ⟨s0, s1, s2, s3, imm, b0, b1⟩ := f
  simp only [fieldsOf, packFields, Fields.mk.injEq]
  refine ⟨?_, ?_, ?_, ?_, ?_, ?_, ?_⟩
  · iterate 2 rw [extractLsb'_append_high _ _ (by decide)]
    exact extractLsb'_append_low _ _
  · iterate 3 rw [extractLsb'_append_high _ _ (by decide)]
    exact extractLsb'_append_low _ _
  · iterate 4 rw [extractLsb'_append_high _ _ (by decide)]
    exact extractLsb'_append_low _ _
  · iterate 5 rw [extractLsb'_append_high _ _ (by decide)]
    exact extractLsb'_append_low _ _
  · iterate 7 rw [extractLsb'_append_high _ _ (by decide)]
    exact extractLsb'_append_low _ _
  · iterate 8 rw [extractLsb'_append_high _ _ (by decide)]
    exact extractLsb'_append_low _ _
  · iterate 9 rw [extractLsb'_append_high _ _ (by decide)]
    exact BitVec.extractLsb'_eq_self

/-- What the decoder needs of a word to read it as a command: an assigned opcode, reserved bits 0, blank fields 0. -/
theorem decode_eq_instr_iff (w : Command) (i : Instr) :
    decode w = .instr i ↔
      ∃ o, Op.ofCode (opBits w) = some o ∧ res0Bits w = 0#2 ∧ res1Bits w = 0#4 ∧
        unusedNonzero o.uses (fieldsOf w) = false ∧ Instr.ofFields o (fieldsOf w) = i := by
  unfold decode
  cases h : Op.ofCode (opBits w) with
  | none => simp
  | some o =>
    by_cases hr : res0Bits w ≠ 0#2 ∨ res1Bits w ≠ 0#4
    · simp only [if_pos hr, reduceCtorEq, false_iff]
      rintro ⟨o', -, h0, h1, -⟩
      rcases hr with hr | hr <;> contradiction
    · have hr' : res0Bits w = 0#2 ∧ res1Bits w = 0#4 := by
        rw [not_or, not_not, not_not] at hr; exact hr
      cases hu : unusedNonzero o.uses (fieldsOf w) <;> simp [hr', hu]

theorem ofFields_op (o : Op) (f : Fields) : (Instr.ofFields o f).op = o := by cases o <;> rfl

end Sys2Proof
end

