-- ==== Sys2Proof/Laws/Sequence.lean ====
section
/-! SUPPORT. What sequences of bit vectors hold: `tabulate`, `nth`, `polyOf`, `slice`, concatenation. -/

namespace Sys2Proof.Machine

theorem nth_tabulate {w n i : Nat} (f : Nat → BitVec w) (h : i < n) : nth (tabulate n f) i = f i := by
  simp [nth, tabulate, h]

theorem nth_of_ge {w n i : Nat} (v : Vector (BitVec w) n) (h : n ≤ i) : nth v i = 0#w := by
  simp [nth, h]

theorem nth_eq_getElem {w n i : Nat} (v : Vector (BitVec w) n) (h : i < n) : nth v i = v[i] := by
  simp [nth, h]

/-- Two sequences that agree at every index are one. -/
theorem nth_ext {w n : Nat} {u v : Vector (BitVec w) n} (h : ∀ i, i < n → nth u i = nth v i) : u = v := by
  apply Vector.ext
  intro i hi
  rw [← nth_eq_getElem u hi, ← nth_eq_getElem v hi]
  exact h i hi

theorem nth_replicate {w n i : Nat} (b : BitVec w) (h : i < n) : nth (Vector.replicate n b) i = b := by
  simp [nth, h]

@[simp] theorem nth_replicate_zero {w n i : Nat} : nth (Vector.replicate n 0#w) i = 0#w := by
  by_cases h : i < n
  · exact nth_replicate _ h
  · exact nth_of_ge _ (Nat.le_of_not_lt h)

@[simp] theorem nth_zeroPoly (i : Nat) : nth zeroPoly i = 0#32 := nth_replicate_zero

theorem nth_polyOf {i : Nat} (f : Nat → Word) (h : i < 1024) : nth (polyOf f) i = f i := nth_tabulate f h

theorem polyOf_zero : polyOf (fun _ => 0#32) = zeroPoly :=
  nth_ext fun i hi => by rw [nth_polyOf _ hi, nth_zeroPoly]

theorem nth_slice {m i n : Nat} (v : Bytes m) (off : Nat) (h : i < n) : nth (slice v off n) i = nth v (off + i) :=
  nth_tabulate _ h

theorem nth_append_left {w m n i : Nat} (u : Vector (BitVec w) m) (v : Vector (BitVec w) n) (h : i < m) :
    nth (u ++ v) i = nth u i := by
  rw [nth_eq_getElem _ (Nat.lt_add_right n h), nth_eq_getElem _ h, Vector.getElem_append_left h]

theorem nth_append_right {w m n i : Nat} (u : Vector (BitVec w) m) (v : Vector (BitVec w) n) (h : i < n) :
    nth (u ++ v) (m + i) = nth v i := by
  rw [nth_eq_getElem _ (Nat.add_lt_add_left h m), nth_eq_getElem _ h,
    Vector.getElem_append_right _ (Nat.le_add_right m i)]
  simp

theorem nth_set {n i j : Nat} (p : Vector Word n) (v : Word) (hj : j < n) :
    nth (p.setIfInBounds i v) j = if i = j then v else nth p j := by
  simp only [nth, Vector.getElem?_setIfInBounds]
  by_cases h : i = j
  · subst h; simp [hj]
  · simp [h]

@[simp] theorem toList_length_bytes {n : Nat} (v : Bytes n) : v.toList.length = n := by simp

theorem toList_getD {n i : Nat} (v : Bytes n) : v.toList.getD i 0#8 = nth v i := by
  simp [nth, List.getD_eq_getElem?_getD]

end Sys2Proof.Machine
end

