-- ==== Sys2Proof/Laws/Memory.lean ====
section
/-! SUPPORT. What BMEM operations do: reading after a range write, the canonical form kept, and that equal reads mean equal memories. -/

namespace Sys2Proof.Machine

@[simp] theorem Memory.read_nil (a : Nat) : Memory.read [] a = 0#8 := rfl

theorem Memory.read_cons (c : Host.Cell) (m : Memory) (a : Nat) :
    Memory.read (c :: m) a = if a = c.1 then c.2 else Memory.read m a := by
  obtain ⟨k, b⟩ := c
  by_cases h : a = k
  · subst h; simp [Memory.read]
  · have : (a == k) = false := by simp [h]
    simp [Memory.read, List.lookup_cons, this, h]

/-- A list with no entry at an address reads 0 there. -/
theorem Memory.read_eq_zero {m : Memory} {a : Nat} (h : ∀ c ∈ m, c.1 ≠ a) : Memory.read m a = 0#8 := by
  induction m with
  | nil => rfl
  | cons c m ih =>
    rw [Memory.read_cons, if_neg fun e => h c (by simp) e.symm, ih fun d hd => h d (by simp [hd])]

theorem Memory.read_append_left {m₁ m₂ : Memory} {a : Nat} (h : ∀ c ∈ m₂, c.1 ≠ a) :
    Memory.read (m₁ ++ m₂) a = Memory.read m₁ a := by
  induction m₁ with
  | nil => simpa using Memory.read_eq_zero h
  | cons c m ih => rw [List.cons_append, Memory.read_cons, Memory.read_cons, ih]

theorem Memory.read_append_right {m₁ m₂ : Memory} {a : Nat} (h : ∀ c ∈ m₁, c.1 ≠ a) :
    Memory.read (m₁ ++ m₂) a = Memory.read m₂ a := by
  induction m₁ with
  | nil => rfl
  | cons c m ih =>
    rw [List.cons_append, Memory.read_cons, if_neg fun e => h c (by simp) e.symm]
    exact ih fun d hd => h d (by simp [hd])

/-- Filtering by an address test keeps the reading at every address that passes it. -/
theorem Memory.read_filter {m : Memory} {p : Nat → Bool} {a : Nat} (h : p a = true) :
    Memory.read (m.filter fun c => p c.1) a = Memory.read m a := by
  induction m with
  | nil => rfl
  | cons c m ih =>
    by_cases hc : p c.1
    · rw [List.filter_cons_of_pos (by simpa using hc), Memory.read_cons, Memory.read_cons, ih]
    · rw [List.filter_cons_of_neg (by simpa using hc), ih, Memory.read_cons, if_neg]
      intro e; rw [e] at h; exact hc h

theorem mem_cellsFrom {a : Nat} {bs : List Byte} {c : Host.Cell} (h : c ∈ cellsFrom a bs) :
    a ≤ c.1 ∧ c.1 < a + bs.length ∧ c.2 ≠ 0#8 := by
  induction bs generalizing a with
  | nil => simp [cellsFrom] at h
  | cons b bs ih =>
    simp only [cellsFrom] at h
    split at h
    · obtain ⟨h1, h2, h3⟩ := ih h
      exact ⟨by omega, by simp only [List.length_cons]; omega, h3⟩
    · rename_i hb
      rcases List.mem_cons.1 h with rfl | h
      · exact ⟨Nat.le_refl _, by simp, hb⟩
      · obtain ⟨h1, h2, h3⟩ := ih h
        exact ⟨by omega, by simp only [List.length_cons]; omega, h3⟩

theorem read_cellsFrom (a k : Nat) (bs : List Byte) (h : k < bs.length) :
    Memory.read (cellsFrom a bs) (a + k) = bs.getD k 0#8 := by
  induction bs generalizing a k with
  | nil => simp at h
  | cons b bs ih =>
    have later : ∀ c ∈ cellsFrom (a + 1) bs, c.1 ≠ a := fun c hc e => by
      have := (mem_cellsFrom hc).1; omega
    simp only [cellsFrom]
    rcases k with _ | k
    · split
      · rename_i hb
        exact (Memory.read_eq_zero later).trans (by simp [hb])
      · rw [Memory.read_cons]; simp
    · have e : a + (k + 1) = a + 1 + k := by omega
      have hk : k < bs.length := by simpa using h
      split
      · rw [e, ih (a + 1) k hk]; simp
      · rw [Memory.read_cons, if_neg (by simp), e, ih (a + 1) k hk]; simp

theorem cellsFrom_pairwise (a : Nat) (bs : List Byte) :
    (cellsFrom a bs).Pairwise fun c d => c.1 < d.1 := by
  induction bs generalizing a with
  | nil => simp [cellsFrom]
  | cons b bs ih =>
    simp only [cellsFrom]
    split
    · exact ih _
    · exact List.pairwise_cons.2 ⟨fun c hc => by have := (mem_cellsFrom hc).1; omega, ih _⟩

/-- A range write, read back: the written bytes inside the range, the old bytes outside it. -/
theorem Memory.read_writeRange (m : Memory) (off : Nat) (bs : List Byte) (a : Nat) :
    Memory.read (Memory.writeRange m off bs) a =
      if off ≤ a ∧ a < off + bs.length then bs.getD (a - off) 0#8 else Memory.read m a := by
  unfold Memory.writeRange
  by_cases hlo : a < off
  · rw [if_neg (by omega), Memory.read_append_left, Memory.read_append_left]
    · exact Memory.read_filter (p := fun x => decide (x < off)) (by simpa using hlo)
    · intro c hc e; have := (mem_cellsFrom hc).1; omega
    · intro c hc e; have h := (List.mem_filter.1 hc).2
      simp only [decide_eq_true_eq] at h; omega
  · by_cases hhi : a < off + bs.length
    · rw [if_pos ⟨by omega, hhi⟩, Memory.read_append_left, Memory.read_append_right]
      · have e : a = off + (a - off) := by omega
        conv_lhs => rw [e]
        exact read_cellsFrom off (a - off) bs (by omega)
      · intro c hc e; have h := (List.mem_filter.1 hc).2
        simp only [decide_eq_true_eq] at h; omega
      · intro c hc e; have h := (List.mem_filter.1 hc).2
        simp only [decide_eq_true_eq] at h; omega
    · rw [if_neg (by omega), Memory.read_append_right]
      · exact Memory.read_filter (p := fun x => decide (off + bs.length ≤ x)) (by simp; omega)
      · intro c hc e
        rcases List.mem_append.1 hc with h | h
        · have h := (List.mem_filter.1 h).2; simp only [decide_eq_true_eq] at h; omega
        · have := (mem_cellsFrom h).2.1; omega

/-- A range write inside BMEM keeps the canonical form. -/
theorem Memory.wf_writeRange {m : Memory} {off : Nat} {bs : List Byte} (h : Memory.wf m)
    (hr : off + bs.length ≤ Config.bmemBytes) : Memory.wf (Memory.writeRange m off bs) := by
  obtain ⟨hs, hv⟩ := h
  unfold Memory.writeRange
  refine ⟨?_, ?_⟩
  · refine List.pairwise_append.2 ⟨List.pairwise_append.2 ⟨hs.filter _, cellsFrom_pairwise _ _, ?_⟩, hs.filter _, ?_⟩
    · intro c hc d hd
      have h1 := (List.mem_filter.1 hc).2; have h2 := (mem_cellsFrom hd).1
      simp only [decide_eq_true_eq] at h1; omega
    · intro c hc d hd
      have h2 := (List.mem_filter.1 hd).2; simp only [decide_eq_true_eq] at h2
      rcases List.mem_append.1 hc with h1 | h1
      · have h1 := (List.mem_filter.1 h1).2; simp only [decide_eq_true_eq] at h1; omega
      · have := (mem_cellsFrom h1).2.1; omega
  · intro c hc
    rcases List.mem_append.1 hc with hc | hc
    · rcases List.mem_append.1 hc with hc | hc
      · exact hv c (List.mem_filter.1 hc).1
      · have := mem_cellsFrom hc; exact ⟨by omega, this.2.2⟩
    · exact hv c (List.mem_filter.1 hc).1

theorem Memory.wf_nil : Memory.wf [] := ⟨List.Pairwise.nil, by simp⟩

theorem Memory.read_ne_zero_iff {m : Memory} (h : Memory.wf m) (a : Nat) :
    Memory.read m a ≠ 0#8 ↔ ∃ c ∈ m, c.1 = a := by
  constructor
  · intro hr
    by_contra hn
    exact hr (Memory.read_eq_zero fun c hc e => hn ⟨c, hc, e⟩)
  · rintro ⟨c, hc, rfl⟩
    obtain ⟨hs, hv⟩ := h
    induction m with
    | nil => simp at hc
    | cons d m ih =>
      rw [Memory.read_cons]
      rcases List.mem_cons.1 hc with rfl | hc'
      · rw [if_pos rfl]; exact (hv c (by simp)).2
      · have := (List.pairwise_cons.1 hs).1 c hc'
        rw [if_neg (by omega)]
        exact ih hc' (List.pairwise_cons.1 hs).2 fun e he => hv e (by simp [he])

/-- Equal memories are equal data: two canonical memories that read alike are one list. -/
theorem Memory.ext_of_read {m₁ m₂ : Memory} (h₁ : Memory.wf m₁) (h₂ : Memory.wf m₂)
    (h : ∀ a, Memory.read m₁ a = Memory.read m₂ a) : m₁ = m₂ := by
  induction m₁ generalizing m₂ with
  | nil =>
    rcases m₂ with _ | ⟨c, m₂⟩
    · rfl
    · exact absurd (h c.1).symm ((Memory.read_ne_zero_iff h₂ c.1).2 ⟨c, by simp, rfl⟩)
  | cons c m₁ ih =>
    rcases m₂ with _ | ⟨d, m₂⟩
    · exact absurd (h c.1) ((Memory.read_ne_zero_iff h₁ c.1).2 ⟨c, by simp, rfl⟩)
    · obtain ⟨c1, c2⟩ := List.pairwise_cons.1 h₁.1
      obtain ⟨d1, d2⟩ := List.pairwise_cons.1 h₂.1
      have w1 : Memory.wf m₁ := ⟨c2, fun e he => h₁.2 e (by simp [he])⟩
      have w2 : Memory.wf m₂ := ⟨d2, fun e he => h₂.2 e (by simp [he])⟩
      have hk : c.1 = d.1 := by
        obtain ⟨e, he, hce⟩ := (Memory.read_ne_zero_iff h₂ c.1).1 (h c.1 ▸ (Memory.read_ne_zero_iff h₁ c.1).2 ⟨c, by simp, rfl⟩)
        obtain ⟨f, hf, hdf⟩ := (Memory.read_ne_zero_iff h₁ d.1).1 ((h d.1).symm ▸ (Memory.read_ne_zero_iff h₂ d.1).2 ⟨d, by simp, rfl⟩)
        rcases List.mem_cons.1 he with rfl | he
        · exact hce.symm
        · rcases List.mem_cons.1 hf with rfl | hf
          · exact hdf
          · have := d1 e he; have := c1 f hf; omega
      have hv : c.2 = d.2 := by
        have := h c.1
        rw [Memory.read_cons, if_pos rfl, Memory.read_cons, if_pos hk] at this; exact this
      have hcd : c = d := Prod.ext hk hv
      subst hcd
      congr 1
      refine ih w1 w2 fun a => ?_
      by_cases ha : a = c.1
      · rw [Memory.read_eq_zero fun e he => by have := c1 e he; omega,
          Memory.read_eq_zero fun e he => by have := d1 e he; omega]
      · have := h a
        rwa [Memory.read_cons, if_neg ha, Memory.read_cons, if_neg ha] at this

theorem nth_memRead (s : State) (off : Nat) {n i : Nat} (h : i < n) : nth (s.memRead off n) i = s.byteAt (off + i) :=
  nth_tabulate _ h

/-- A byte of BMEM after `MemWrite`: the written byte inside the range, the old byte outside it. -/
theorem byteAt_memWrite (s : State) (off : Nat) {n : Nat} (v : Bytes n) (a : Nat) :
    (s.memWrite off v).byteAt a = if off ≤ a ∧ a < off + n then nth v (a - off) else s.byteAt a := by
  have := Memory.read_writeRange s.bmem off v.toList a
  rw [toList_length_bytes, toList_getD] at this
  exact this

theorem wf_memWrite {s : State} {off n : Nat} (v : Bytes n) (h : Memory.wf s.bmem)
    (hr : off + n ≤ Config.bmemBytes) : Memory.wf (s.memWrite off v).bmem :=
  Memory.wf_writeRange h (by rw [toList_length_bytes]; exact hr)

end Sys2Proof.Machine
end

