-- ==== Sys2Proof/Laws/State.lean ====
section
/-! SUPPORT. What each update of the state leaves in each field, one line a field. -/

namespace Sys2Proof.Machine

variable (s : State)

@[simp] theorem setSlot_pmem (d : Slot) (p : Poly) : (s.setSlot d p).pmem = s.pmem.set d.toNat p d.isLt := rfl
@[simp] theorem setSlot_bmem (d : Slot) (p : Poly) : (s.setSlot d p).bmem = s.bmem := rfl
@[simp] theorem setSlot_irqen (d : Slot) (p : Poly) : (s.setSlot d p).irqen = s.irqen := rfl
@[simp] theorem setSlot_done (d : Slot) (p : Poly) : (s.setSlot d p).done = s.done := rfl
@[simp] theorem setSlot_err (d : Slot) (p : Poly) : (s.setSlot d p).err = s.err := rfl
@[simp] theorem setSlot_accerr (d : Slot) (p : Poly) : (s.setSlot d p).accerr = s.accerr := rfl
@[simp] theorem setSlot_resultCode (d : Slot) (p : Poly) : (s.setSlot d p).resultCode = s.resultCode := rfl
@[simp] theorem setSlot_resultOp (d : Slot) (p : Poly) : (s.setSlot d p).resultOp = s.resultOp := rfl
@[simp] theorem setSlot_firstErr (d : Slot) (p : Poly) : (s.setSlot d p).firstErr = s.firstErr := rfl
@[simp] theorem setSlot_cmd0 (d : Slot) (p : Poly) : (s.setSlot d p).cmd0 = s.cmd0 := rfl
@[simp] theorem setSlot_cmd1 (d : Slot) (p : Poly) : (s.setSlot d p).cmd1 = s.cmd1 := rfl
@[simp] theorem setSlot_phase (d : Slot) (p : Poly) : (s.setSlot d p).phase = s.phase := rfl
@[simp] theorem setSlot_scratch (d : Slot) (p : Poly) : (s.setSlot d p).scratch = s.scratch := rfl
@[simp] theorem setSlot_request (d : Slot) (p : Poly) : (s.setSlot d p).request = s.request := rfl
@[simp] theorem setSlot_rstN (d : Slot) (p : Poly) : (s.setSlot d p).rstN = s.rstN := rfl
@[simp] theorem setSlot_rdata (d : Slot) (p : Poly) : (s.setSlot d p).rdata = s.rdata := rfl
@[simp] theorem setSlot_inputs (d : Slot) (p : Poly) : (s.setSlot d p).inputs = s.inputs := rfl

@[simp] theorem setCoeff_pmem (d : Slot) (i : Nat) (v : Word) : (s.setCoeff d i v).pmem = s.pmem.set d.toNat ((s.slot d).setIfInBounds i v) d.isLt := rfl
@[simp] theorem setCoeff_bmem (d : Slot) (i : Nat) (v : Word) : (s.setCoeff d i v).bmem = s.bmem := rfl
@[simp] theorem setCoeff_irqen (d : Slot) (i : Nat) (v : Word) : (s.setCoeff d i v).irqen = s.irqen := rfl
@[simp] theorem setCoeff_done (d : Slot) (i : Nat) (v : Word) : (s.setCoeff d i v).done = s.done := rfl
@[simp] theorem setCoeff_err (d : Slot) (i : Nat) (v : Word) : (s.setCoeff d i v).err = s.err := rfl
@[simp] theorem setCoeff_accerr (d : Slot) (i : Nat) (v : Word) : (s.setCoeff d i v).accerr = s.accerr := rfl
@[simp] theorem setCoeff_resultCode (d : Slot) (i : Nat) (v : Word) : (s.setCoeff d i v).resultCode = s.resultCode := rfl
@[simp] theorem setCoeff_resultOp (d : Slot) (i : Nat) (v : Word) : (s.setCoeff d i v).resultOp = s.resultOp := rfl
@[simp] theorem setCoeff_firstErr (d : Slot) (i : Nat) (v : Word) : (s.setCoeff d i v).firstErr = s.firstErr := rfl
@[simp] theorem setCoeff_cmd0 (d : Slot) (i : Nat) (v : Word) : (s.setCoeff d i v).cmd0 = s.cmd0 := rfl
@[simp] theorem setCoeff_cmd1 (d : Slot) (i : Nat) (v : Word) : (s.setCoeff d i v).cmd1 = s.cmd1 := rfl
@[simp] theorem setCoeff_phase (d : Slot) (i : Nat) (v : Word) : (s.setCoeff d i v).phase = s.phase := rfl
@[simp] theorem setCoeff_scratch (d : Slot) (i : Nat) (v : Word) : (s.setCoeff d i v).scratch = s.scratch := rfl
@[simp] theorem setCoeff_request (d : Slot) (i : Nat) (v : Word) : (s.setCoeff d i v).request = s.request := rfl
@[simp] theorem setCoeff_rstN (d : Slot) (i : Nat) (v : Word) : (s.setCoeff d i v).rstN = s.rstN := rfl
@[simp] theorem setCoeff_rdata (d : Slot) (i : Nat) (v : Word) : (s.setCoeff d i v).rdata = s.rdata := rfl
@[simp] theorem setCoeff_inputs (d : Slot) (i : Nat) (v : Word) : (s.setCoeff d i v).inputs = s.inputs := rfl

@[simp] theorem memWrite_pmem (off : Nat) {n : Nat} (v : Bytes n) : (s.memWrite off v).pmem = s.pmem := rfl
@[simp] theorem memWrite_bmem (off : Nat) {n : Nat} (v : Bytes n) : (s.memWrite off v).bmem = Memory.writeRange s.bmem off v.toList := rfl
@[simp] theorem memWrite_irqen (off : Nat) {n : Nat} (v : Bytes n) : (s.memWrite off v).irqen = s.irqen := rfl
@[simp] theorem memWrite_done (off : Nat) {n : Nat} (v : Bytes n) : (s.memWrite off v).done = s.done := rfl
@[simp] theorem memWrite_err (off : Nat) {n : Nat} (v : Bytes n) : (s.memWrite off v).err = s.err := rfl
@[simp] theorem memWrite_accerr (off : Nat) {n : Nat} (v : Bytes n) : (s.memWrite off v).accerr = s.accerr := rfl
@[simp] theorem memWrite_resultCode (off : Nat) {n : Nat} (v : Bytes n) : (s.memWrite off v).resultCode = s.resultCode := rfl
@[simp] theorem memWrite_resultOp (off : Nat) {n : Nat} (v : Bytes n) : (s.memWrite off v).resultOp = s.resultOp := rfl
@[simp] theorem memWrite_firstErr (off : Nat) {n : Nat} (v : Bytes n) : (s.memWrite off v).firstErr = s.firstErr := rfl
@[simp] theorem memWrite_cmd0 (off : Nat) {n : Nat} (v : Bytes n) : (s.memWrite off v).cmd0 = s.cmd0 := rfl
@[simp] theorem memWrite_cmd1 (off : Nat) {n : Nat} (v : Bytes n) : (s.memWrite off v).cmd1 = s.cmd1 := rfl
@[simp] theorem memWrite_phase (off : Nat) {n : Nat} (v : Bytes n) : (s.memWrite off v).phase = s.phase := rfl
@[simp] theorem memWrite_scratch (off : Nat) {n : Nat} (v : Bytes n) : (s.memWrite off v).scratch = s.scratch := rfl
@[simp] theorem memWrite_request (off : Nat) {n : Nat} (v : Bytes n) : (s.memWrite off v).request = s.request := rfl
@[simp] theorem memWrite_rstN (off : Nat) {n : Nat} (v : Bytes n) : (s.memWrite off v).rstN = s.rstN := rfl
@[simp] theorem memWrite_rdata (off : Nat) {n : Nat} (v : Bytes n) : (s.memWrite off v).rdata = s.rdata := rfl
@[simp] theorem memWrite_inputs (off : Nat) {n : Nat} (v : Bytes n) : (s.memWrite off v).inputs = s.inputs := rfl

@[simp] theorem complete_pmem (op : BitVec 6) (c : Status) : (s.complete op c).pmem = s.pmem := rfl
@[simp] theorem complete_bmem (op : BitVec 6) (c : Status) : (s.complete op c).bmem = s.bmem := rfl
@[simp] theorem complete_irqen (op : BitVec 6) (c : Status) : (s.complete op c).irqen = s.irqen := rfl
@[simp] theorem complete_done (op : BitVec 6) (c : Status) : (s.complete op c).done = true := rfl
@[simp] theorem complete_err (op : BitVec 6) (c : Status) : (s.complete op c).err = decide (c ≠ .success) := rfl
@[simp] theorem complete_accerr (op : BitVec 6) (c : Status) : (s.complete op c).accerr = s.accerr := rfl
@[simp] theorem complete_resultCode (op : BitVec 6) (c : Status) : (s.complete op c).resultCode = c := rfl
@[simp] theorem complete_resultOp (op : BitVec 6) (c : Status) : (s.complete op c).resultOp = op := rfl
@[simp] theorem complete_firstErr (op : BitVec 6) (c : Status) : (s.complete op c).firstErr = recordFirst s.firstErr c := rfl
@[simp] theorem complete_cmd0 (op : BitVec 6) (c : Status) : (s.complete op c).cmd0 = s.cmd0 := rfl
@[simp] theorem complete_cmd1 (op : BitVec 6) (c : Status) : (s.complete op c).cmd1 = s.cmd1 := rfl
@[simp] theorem complete_phase (op : BitVec 6) (c : Status) : (s.complete op c).phase = .idle := rfl
@[simp] theorem complete_scratch (op : BitVec 6) (c : Status) : (s.complete op c).scratch = Scratch.zero := rfl
@[simp] theorem complete_request (op : BitVec 6) (c : Status) : (s.complete op c).request = none := rfl
@[simp] theorem complete_rstN (op : BitVec 6) (c : Status) : (s.complete op c).rstN = s.rstN := rfl
@[simp] theorem complete_rdata (op : BitVec 6) (c : Status) : (s.complete op c).rdata = s.rdata := rfl
@[simp] theorem complete_inputs (op : BitVec 6) (c : Status) : (s.complete op c).inputs = s.inputs := rfl

@[simp] theorem enterReset_pmem : (s.enterReset).pmem = s.pmem := rfl
@[simp] theorem enterReset_bmem : (s.enterReset).bmem = s.bmem := rfl
@[simp] theorem enterReset_irqen : (s.enterReset).irqen = false := rfl
@[simp] theorem enterReset_done : (s.enterReset).done = false := rfl
@[simp] theorem enterReset_err : (s.enterReset).err = false := rfl
@[simp] theorem enterReset_accerr : (s.enterReset).accerr = false := rfl
@[simp] theorem enterReset_resultCode : (s.enterReset).resultCode = .success := rfl
@[simp] theorem enterReset_resultOp : (s.enterReset).resultOp = 0#6 := rfl
@[simp] theorem enterReset_firstErr : (s.enterReset).firstErr = none := rfl
@[simp] theorem enterReset_cmd0 : (s.enterReset).cmd0 = 0#32 := rfl
@[simp] theorem enterReset_cmd1 : (s.enterReset).cmd1 = 0#32 := rfl
@[simp] theorem enterReset_phase : (s.enterReset).phase = .clearing := rfl
@[simp] theorem enterReset_scratch : (s.enterReset).scratch = s.scratch := rfl
@[simp] theorem enterReset_request : (s.enterReset).request = none := rfl
@[simp] theorem enterReset_rstN : (s.enterReset).rstN = s.rstN := rfl
@[simp] theorem enterReset_rdata : (s.enterReset).rdata = s.rdata := rfl
@[simp] theorem enterReset_inputs : (s.enterReset).inputs = s.inputs := rfl

@[simp] theorem finishClearing_pmem : (s.finishClearing).pmem = Vector.replicate 8 zeroPoly := rfl
@[simp] theorem finishClearing_bmem : (s.finishClearing).bmem = [] := rfl
@[simp] theorem finishClearing_irqen : (s.finishClearing).irqen = s.irqen := rfl
@[simp] theorem finishClearing_done : (s.finishClearing).done = false := rfl
@[simp] theorem finishClearing_err : (s.finishClearing).err = false := rfl
@[simp] theorem finishClearing_accerr : (s.finishClearing).accerr = false := rfl
@[simp] theorem finishClearing_resultCode : (s.finishClearing).resultCode = s.resultCode := rfl
@[simp] theorem finishClearing_resultOp : (s.finishClearing).resultOp = s.resultOp := rfl
@[simp] theorem finishClearing_firstErr : (s.finishClearing).firstErr = s.firstErr := rfl
@[simp] theorem finishClearing_cmd0 : (s.finishClearing).cmd0 = s.cmd0 := rfl
@[simp] theorem finishClearing_cmd1 : (s.finishClearing).cmd1 = s.cmd1 := rfl
@[simp] theorem finishClearing_phase : (s.finishClearing).phase = .idle := rfl
@[simp] theorem finishClearing_scratch : (s.finishClearing).scratch = Scratch.zero := rfl
@[simp] theorem finishClearing_request : (s.finishClearing).request = s.request := rfl
@[simp] theorem finishClearing_rstN : (s.finishClearing).rstN = s.rstN := rfl
@[simp] theorem finishClearing_rdata : (s.finishClearing).rdata = s.rdata := rfl
@[simp] theorem finishClearing_inputs : (s.finishClearing).inputs = s.inputs := rfl

@[simp] theorem enterExec_pmem (w : Command) (i : Instr) : (s.enterExec w i).pmem = s.pmem := rfl
@[simp] theorem enterExec_bmem (w : Command) (i : Instr) : (s.enterExec w i).bmem = s.bmem := rfl
@[simp] theorem enterExec_irqen (w : Command) (i : Instr) : (s.enterExec w i).irqen = s.irqen := rfl
@[simp] theorem enterExec_done (w : Command) (i : Instr) : (s.enterExec w i).done = s.done := rfl
@[simp] theorem enterExec_err (w : Command) (i : Instr) : (s.enterExec w i).err = s.err := rfl
@[simp] theorem enterExec_accerr (w : Command) (i : Instr) : (s.enterExec w i).accerr = s.accerr := rfl
@[simp] theorem enterExec_resultCode (w : Command) (i : Instr) : (s.enterExec w i).resultCode = s.resultCode := rfl
@[simp] theorem enterExec_resultOp (w : Command) (i : Instr) : (s.enterExec w i).resultOp = s.resultOp := rfl
@[simp] theorem enterExec_firstErr (w : Command) (i : Instr) : (s.enterExec w i).firstErr = s.firstErr := rfl
@[simp] theorem enterExec_cmd0 (w : Command) (i : Instr) : (s.enterExec w i).cmd0 = s.cmd0 := rfl
@[simp] theorem enterExec_cmd1 (w : Command) (i : Instr) : (s.enterExec w i).cmd1 = s.cmd1 := rfl
@[simp] theorem enterExec_phase (w : Command) (i : Instr) : (s.enterExec w i).phase = .exec w := rfl
@[simp] theorem enterExec_scratch (w : Command) (i : Instr) : (s.enterExec w i).scratch = operandCopies i s := rfl
@[simp] theorem enterExec_request (w : Command) (i : Instr) : (s.enterExec w i).request = requestOf i s := rfl
@[simp] theorem enterExec_rstN (w : Command) (i : Instr) : (s.enterExec w i).rstN = s.rstN := rfl
@[simp] theorem enterExec_rdata (w : Command) (i : Instr) : (s.enterExec w i).rdata = s.rdata := rfl
@[simp] theorem enterExec_inputs (w : Command) (i : Instr) : (s.enterExec w i).inputs = s.inputs := rfl

@[simp] theorem writeStatus_pmem (v : Word) : (s.writeStatus v).pmem = s.pmem := rfl
@[simp] theorem writeStatus_bmem (v : Word) : (s.writeStatus v).bmem = s.bmem := rfl
@[simp] theorem writeStatus_irqen (v : Word) : (s.writeStatus v).irqen = s.irqen := rfl
@[simp] theorem writeStatus_done (v : Word) : (s.writeStatus v).done = (s.done && !v.getLsbD 1) := rfl
@[simp] theorem writeStatus_err (v : Word) : (s.writeStatus v).err = (s.err && !v.getLsbD 2) := rfl
@[simp] theorem writeStatus_accerr (v : Word) : (s.writeStatus v).accerr = (s.accerr && !v.getLsbD 3) := rfl
@[simp] theorem writeStatus_resultCode (v : Word) : (s.writeStatus v).resultCode = s.resultCode := rfl
@[simp] theorem writeStatus_resultOp (v : Word) : (s.writeStatus v).resultOp = s.resultOp := rfl
@[simp] theorem writeStatus_firstErr (v : Word) : (s.writeStatus v).firstErr = s.firstErr := rfl
@[simp] theorem writeStatus_cmd0 (v : Word) : (s.writeStatus v).cmd0 = s.cmd0 := rfl
@[simp] theorem writeStatus_cmd1 (v : Word) : (s.writeStatus v).cmd1 = s.cmd1 := rfl
@[simp] theorem writeStatus_phase (v : Word) : (s.writeStatus v).phase = s.phase := rfl
@[simp] theorem writeStatus_scratch (v : Word) : (s.writeStatus v).scratch = s.scratch := rfl
@[simp] theorem writeStatus_request (v : Word) : (s.writeStatus v).request = s.request := rfl
@[simp] theorem writeStatus_rstN (v : Word) : (s.writeStatus v).rstN = s.rstN := rfl
@[simp] theorem writeStatus_rdata (v : Word) : (s.writeStatus v).rdata = s.rdata := rfl
@[simp] theorem writeStatus_inputs (v : Word) : (s.writeStatus v).inputs = s.inputs := rfl

end Sys2Proof.Machine
end

