-- ==== Sys2Proof/Laws/Ops.lean ====
section
/-! SUPPORT. What the shared operations do: slots and coefficients, the completion record, and all a command can answer. -/

namespace Sys2Proof.Machine

variable (s : State)

/-- Slot `e` after a write of slot `d`. -/
theorem slot_setSlot (d e : Slot) (p : Poly) : (s.setSlot d p).slot e = if d = e then p else s.slot e := by
  unfold State.slot
  simp only [setSlot_pmem, Vector.getElem_set, BitVec.toNat_inj]

@[simp] theorem slot_setSlot_self (d : Slot) (p : Poly) : (s.setSlot d p).slot d = p := by
  rw [slot_setSlot, if_pos rfl]

theorem slot_setSlot_ne {d e : Slot} (p : Poly) (h : d ≠ e) : (s.setSlot d p).slot e = s.slot e := by
  rw [slot_setSlot, if_neg h]

@[simp] theorem coeff_setSlot_self (d : Slot) (p : Poly) (i : Nat) : (s.setSlot d p).coeff d i = nth p i := by
  unfold State.coeff; rw [slot_setSlot_self]

theorem coeff_setSlot_ne {d e : Slot} (p : Poly) (i : Nat) (h : d ≠ e) :
    (s.setSlot d p).coeff e i = s.coeff e i := by
  unfold State.coeff; rw [slot_setSlot_ne s p h]

/-- Coefficient `j` of slot `e` after coefficient `i` of slot `d` is written. -/
theorem coeff_setCoeff (d e : Slot) (i j : Nat) (v : Word) (hj : j < 1024) :
    (s.setCoeff d i v).coeff e j = if d = e ∧ i = j then v else s.coeff e j := by
  unfold State.setCoeff
  by_cases h : d = e
  · subst h; rw [coeff_setSlot_self, nth_set _ _ hj]; simp [State.coeff]
  · rw [coeff_setSlot_ne s _ _ h, if_neg (fun c => h c.1)]

/-- A slot depends on PMEM only. -/
theorem slot_congr {s t : State} (h : t.pmem = s.pmem) (d : Slot) : t.slot d = s.slot d := by
  unfold State.slot; simp only [h]

theorem coeff_congr {s t : State} (h : t.pmem = s.pmem) (d : Slot) (i : Nat) : t.coeff d i = s.coeff d i := by
  unfold State.coeff; rw [slot_congr h]

/-- A byte depends on BMEM only. -/
theorem byteAt_congr {s t : State} (h : t.bmem = s.bmem) (a : Nat) : t.byteAt a = s.byteAt a := by
  unfold State.byteAt; rw [h]

@[simp] theorem slot_complete (op : BitVec 6) (c : Status) (d : Slot) : (s.complete op c).slot d = s.slot d := rfl
@[simp] theorem coeff_complete (op : BitVec 6) (c : Status) (d : Slot) (i : Nat) :
    (s.complete op c).coeff d i = s.coeff d i := rfl
@[simp] theorem byteAt_complete (op : BitVec 6) (c : Status) (a : Nat) : (s.complete op c).byteAt a = s.byteAt a := rfl
@[simp] theorem slot_memWrite (off : Nat) {n : Nat} (v : Bytes n) (d : Slot) : (s.memWrite off v).slot d = s.slot d := rfl
@[simp] theorem coeff_memWrite (off : Nat) {n : Nat} (v : Bytes n) (d : Slot) (i : Nat) :
    (s.memWrite off v).coeff d i = s.coeff d i := rfl
@[simp] theorem byteAt_setSlot (d : Slot) (p : Poly) (a : Nat) : (s.setSlot d p).byteAt a = s.byteAt a := rfl

/-- Two PMEM contents that agree slot by slot are one. -/
theorem pmem_ext {s t : State} (h : ∀ d, t.slot d = s.slot d) : t.pmem = s.pmem := by
  apply Vector.ext
  intro i hi
  have := h (BitVec.ofNat 3 i)
  unfold State.slot at this
  have e : (BitVec.ofNat 3 i).toNat = i := by
    rw [BitVec.toNat_ofNat]; exact Nat.mod_eq_of_lt hi
  simpa only [e] using this

/-- A command whose operand checks pass: its rule, then the completion record. -/
theorem perform_ok {i : Instr} (h : operandError i = none) (rule : Effect) :
    perform i rule s = .next ((rule s).2.complete i.op.code (rule s).1) := by
  unfold perform; rw [h]

/-- A command whose operand checks fail: InvalidParameter and nothing else. -/
theorem perform_refused {i : Instr} (h : operandError i ≠ none) (rule : Effect) :
    perform i rule s = .next (s.complete i.op.code .invalidParameter) := by
  unfold perform
  split
  · rfl
  · contradiction

/-- All that a command can answer. -/
theorem perform_cases {i : Instr} {rule : Effect} {t : State} (h : perform i rule s = .next t) :
    (operandError i = none ∧ t = (rule s).2.complete i.op.code (rule s).1) ∨
      (operandError i ≠ none ∧ t = s.complete i.op.code .invalidParameter) := by
  by_cases e : operandError i = none
  · rw [perform_ok s e] at h
    exact .inl ⟨e, by simpa using h.symm⟩
  · rw [perform_refused s e] at h
    exact .inr ⟨e, by simpa using h.symm⟩

@[simp] theorem succeed_apply (f : State → State) : succeed f s = (.success, f s) := rfl

@[simp] theorem recordFirst_some (c d : Status) : recordFirst (some c) d = some c := rfl

@[simp] theorem recordFirst_none_success : recordFirst none .success = none := rfl

theorem recordFirst_none_failure {c : Status} (h : c ≠ .success) : recordFirst none c = some c := by
  simp [recordFirst, h]

/-- A command that ends with Success records no error. -/
theorem recordFirst_success (o : Option Status) : recordFirst o .success = o := by
  cases o <;> rfl

theorem recordFirst_ne_success {o : Option Status} (h : o ≠ some .success) (c : Status) :
    recordFirst o c ≠ some .success := by
  cases o with
  | some d => exact h
  | none => unfold recordFirst; split <;> simp_all

theorem busy_iff : s.busy = true ↔ s.phase ≠ .idle := by simp [State.busy]

@[simp] theorem busy_complete (op : BitVec 6) (c : Status) : (s.complete op c).busy = false := by simp [State.busy]

/-- `irq` is a level: 1 exactly where IRQEN and DONE are both 1 (R63). -/
theorem irq_iff : s.irq = true ↔ s.irqen = true ∧ s.done = true := by simp [State.irq]

theorem irq_of_not_done {s : State} (h : s.done = false) : s.irq = false := by simp [State.irq, h]

theorem irq_of_not_irqen {s : State} (h : s.irqen = false) : s.irq = false := by simp [State.irq, h]

/-- A completion leaves `irq` at the level of IRQEN. -/
@[simp] theorem irq_complete (op : BitVec 6) (c : Status) : (s.complete op c).irq = s.irqen := by simp [State.irq]

end Sys2Proof.Machine
end

