-- ==== Sys2Proof/Laws/Operands.lean ====
section
/-! SUPPORT. When the operand checks of each command pass (30_encoding.md R116, R119), and residues modulo q. -/

namespace Sys2Proof.Machine

theorem regionOk_iff (r : Region) : regionOk r = true ↔ r.off + r.len ≤ 8192 := decide_eq_true_iff

/-- The operand checks of a command with BMEM regions only. -/
theorem operandError_regions {i : Instr} {rs : List Region} (h : operandFacts i = .ofRegions rs) :
    operandError i = none ↔ ∀ r ∈ rs, r.off + r.len ≤ 8192 := by
  unfold operandError
  rw [h]
  simp only [OperandFacts.ofRegions, Bool.false_eq_true, if_false]
  by_cases ha : rs.all regionOk = true
  · simp only [ha, Bool.not_true, Bool.false_eq_true, if_false, true_iff]
    intro r hr
    exact (regionOk_iff r).1 (List.all_eq_true.1 ha r hr)
  · have hf : rs.all regionOk = false := by simpa using ha
    simp only [hf, Bool.not_false, if_true, reduceCtorEq, false_iff]
    intro hall
    exact ha (List.all_eq_true.2 fun r hr => (regionOk_iff r).2 (hall r hr))

theorem ok_smul (d a : Slot) (k : Imm8) : operandError (.smul d a k) = none ↔ k ≠ 0#8 := by
  by_cases h : k = 0#8 <;> simp [operandError, operandFacts, h]

theorem ok_gena (d : Slot) (o : Offset) : operandError (.gena d o) = none ↔ o.toNat + 32 ≤ 8192 := by
  rw [operandError_regions rfl]; simp

theorem ok_sample (d : Slot) (o : Offset) (k : Imm8) :
    operandError (.sample d o k) = none ↔ o.toNat + 32 ≤ 8192 := by
  rw [operandError_regions rfl]; simp

theorem ok_enc14 (o : Offset) (a : Slot) : operandError (.enc14 o a) = none ↔ o.toNat + 1792 ≤ 8192 := by
  rw [operandError_regions rfl]; simp

theorem ok_dec14 (d : Slot) (o : Offset) : operandError (.dec14 d o) = none ↔ o.toNat + 1792 ≤ 8192 := by
  rw [operandError_regions rfl]; simp

theorem ok_encr (o : Offset) (a : Slot) : operandError (.encr o a) = none ↔ o.toNat + 256 ≤ 8192 := by
  rw [operandError_regions rfl]; simp

theorem ok_decr (d : Slot) (o : Offset) : operandError (.decr d o) = none ↔ o.toNat + 256 ≤ 8192 := by
  rw [operandError_regions rfl]; simp

theorem ok_enca (o : Offset) (b : Slot) (sd : Offset) :
    operandError (.enca o b sd) = none ↔ o.toNat + 1824 ≤ 8192 ∧ sd.toNat + 32 ≤ 8192 := by
  rw [operandError_regions rfl]; simp

theorem ok_deca (d : Slot) (sd o : Offset) :
    operandError (.deca d sd o) = none ↔ o.toNat + 1824 ≤ 8192 ∧ sd.toNat + 32 ≤ 8192 := by
  rw [operandError_regions rfl]; simp

theorem ok_encb (o : Offset) (u r : Slot) : operandError (.encb o u r) = none ↔ o.toNat + 2048 ≤ 8192 := by
  rw [operandError_regions rfl]; simp

theorem ok_decb (u r : Slot) (o : Offset) :
    operandError (.decb u r o) = none ↔ o.toNat + 2048 ≤ 8192 ∧ u ≠ r := by
  have hr : regionOk ⟨o.toNat, 2048⟩ = decide (o.toNat + 2048 ≤ 8192) := rfl
  by_cases h : u = r <;> by_cases g : o.toNat + 2048 ≤ 8192 <;>
    simp [operandError, operandFacts, hr, h, g]

theorem ok_helprec (r x : Slot) (o : Offset) (k : Imm8) :
    operandError (.helprec r x o k) = none ↔ o.toNat + 32 ≤ 8192 := by
  rw [operandError_regions rfl]; simp

theorem ok_recKey (o : Offset) (x r : Slot) : operandError (.recKey o x r) = none ↔ o.toNat + 32 ≤ 8192 := by
  rw [operandError_regions rfl]; simp

theorem ok_zerob (o l : Offset) : operandError (.zerob o l) = none ↔ o.toNat + l.toNat ≤ 8192 := by
  rw [operandError_regions rfl]; simp

theorem modq_nonneg (x : Int) : 0 ≤ modq x := Int.emod_nonneg _ (by decide)

theorem modq_lt (x : Int) : modq x < 12289 := Int.emod_lt_of_pos _ (by decide)

/-- A canonical residue, stored and read back as a signed word, is itself. -/
theorem toInt_wrap32 {x : Int} (h0 : -2147483648 ≤ x) (h1 : x < 2147483648) : (wrap32 x).toInt = x := by
  unfold wrap32
  rw [BitVec.toInt_ofInt]
  exact Int.bmod_eq_of_le (by omega) (by omega)

theorem toInt_wrap32_modq (x : Int) : (wrap32 (modq x)).toInt = modq x :=
  toInt_wrap32 (by have := modq_nonneg x; omega) (by have := modq_lt x; omega)

theorem modq_idem (x : Int) : modq (modq x) = modq x := Int.emod_emod_of_dvd _ (Int.dvd_refl _)

end Sys2Proof.Machine
end

