-- ==== Sys2Proof/Laws/Exec.lean ====
section
/-! SUPPORT. What each command answers: its rule over the state, then the completion record. One lemma a command, for operands that pass the checks; and one for all commands whose operands fail them. -/

namespace Sys2Proof.Machine

variable (s : State)

theorem exec_nop : exec .nop s = .next (s.complete 0x00#6 .success) := rfl

theorem exec_redonce (d a : Slot) :
    exec (.redonce d a) s = .next ((reduceSlot d a s).complete 0x01#6 .success) := rfl

theorem exec_twored (d a : Slot) :
    exec (.twored d a) s = .next ((reduceSlot d a s).complete 0x02#6 .success) := rfl

theorem exec_corr (d a : Slot) :
    exec (.corr d a) s = .next ((reduceSlot d a s).complete 0x03#6 .success) := rfl

theorem exec_smul (d a : Slot) {k : Imm8} (h : k ≠ 0#8) :
    exec (.smul d a k) s =
      .next ((s.setSlot d (polyOf fun i => wrap32 (s.s32 a i * (k.toNat : Int)))).complete 0x04#6 .success) := by
  rw [exec, execSmul, perform_ok s ((ok_smul d a k).2 h)]
  rfl

theorem exec_nttf (d a : Slot) :
    exec (.nttf d a) s = .next ((s.setSlot d (polyOf fun i => wrap32 (nttAt (s.s32 a) i))).complete 0x08#6 .success) :=
  rfl

theorem exec_ntti (d a : Slot) :
    exec (.ntti d a) s = .next ((s.setSlot d (polyOf fun j => wrap32 (inttAt (s.s32 a) j))).complete 0x09#6 .success) :=
  rfl

theorem exec_pmul (d a b : Slot) :
    exec (.pmul d a b) s =
      .next ((s.setSlot d (polyOf fun i => wrap32 (modq (s.s32 a i * s.s32 b i)))).complete 0x0C#6 .success) := rfl

theorem exec_pmuladd (d a b c : Slot) :
    exec (.pmuladd d a b c) s =
      .next ((s.setSlot d (polyOf fun i => wrap32 (modq (s.s32 a i * s.s32 b i + s.s32 c i)))).complete 0x0D#6 .success) :=
  rfl

theorem exec_gena (d : Slot) {seed : Offset} (h : seed.toNat + 32 ≤ 8192) :
    exec (.gena d seed) s =
      .next ((genaRule d (Config.xof (s.seedAt seed) 1024) s).2.complete 0x10#6
        (genaRule d (Config.xof (s.seedAt seed) 1024) s).1) := by
  rw [exec, execGena, perform_ok s ((ok_gena d seed).2 h)]
  rfl

theorem exec_sample (d : Slot) {seed : Offset} (k : Imm8) (h : seed.toNat + 32 ≤ 8192) :
    exec (.sample d seed k) s =
      .next ((sampleRule d (Config.stream (s.seedAt seed) (sampleNonce k) 3072) s).2.complete 0x11#6
        (sampleRule d (Config.stream (s.seedAt seed) (sampleNonce k) 3072) s).1) := by
  rw [exec, execSample, perform_ok s ((ok_sample d seed k).2 h)]
  rfl

theorem exec_enc14 {dst : Offset} (a : Slot) (h : dst.toNat + 1792 ≤ 8192) :
    exec (.enc14 dst a) s = .next ((s.memWrite dst.toNat (pack14 (s.slot a))).complete 0x18#6 .success) := by
  rw [exec, execEnc14, perform_ok s ((ok_enc14 dst a).2 h)]
  rfl

theorem exec_dec14 (d : Slot) {src : Offset} (h : src.toNat + 1792 ≤ 8192) :
    exec (.dec14 d src) s = .next ((s.setSlot d (unpack14 (s.memRead src.toNat 1792))).complete 0x19#6 .success) := by
  rw [exec, execDec14, perform_ok s ((ok_dec14 d src).2 h)]
  rfl

theorem exec_encr {dst : Offset} (r : Slot) (h : dst.toNat + 256 ≤ 8192) :
    exec (.encr dst r) s = .next ((s.memWrite dst.toNat (packR (s.slot r))).complete 0x1A#6 .success) := by
  rw [exec, execEncr, perform_ok s ((ok_encr dst r).2 h)]
  rfl

theorem exec_decr (d : Slot) {src : Offset} (h : src.toNat + 256 ≤ 8192) :
    exec (.decr d src) s = .next ((s.setSlot d (unpackR (s.memRead src.toNat 256))).complete 0x1B#6 .success) := by
  rw [exec, execDecr, perform_ok s ((ok_decr d src).2 h)]
  rfl

theorem exec_enca {dst seed : Offset} (b : Slot) (h : dst.toNat + 1824 ≤ 8192) (h' : seed.toNat + 32 ≤ 8192) :
    exec (.enca dst b seed) s =
      .next ((s.memWrite dst.toNat (messageA (s.slot b) (s.memRead seed.toNat 32))).complete 0x1C#6 .success) := by
  rw [exec, execEnca, perform_ok s ((ok_enca dst b seed).2 ⟨h, h'⟩)]
  rfl

theorem exec_deca (d : Slot) {sd src : Offset} (h : src.toNat + 1824 ≤ 8192) (h' : sd.toNat + 32 ≤ 8192) :
    exec (.deca d sd src) s =
      .next (((s.setSlot d (unpack14 (slice (s.memRead src.toNat 1824) 0 1792))).memWrite sd.toNat
        (slice (s.memRead src.toNat 1824) 1792 32)).complete 0x1D#6 .success) := by
  rw [exec, execDeca, perform_ok s ((ok_deca d sd src).2 ⟨h, h'⟩)]
  rfl

theorem exec_encb {dst : Offset} (u r : Slot) (h : dst.toNat + 2048 ≤ 8192) :
    exec (.encb dst u r) s =
      .next ((s.memWrite dst.toNat (messageB (s.slot u) (s.slot r))).complete 0x1E#6 .success) := by
  rw [exec, execEncb, perform_ok s ((ok_encb dst u r).2 h)]
  rfl

theorem exec_decb {u r : Slot} {src : Offset} (h : src.toNat + 2048 ≤ 8192) (h' : u ≠ r) :
    exec (.decb u r src) s =
      .next (((s.setSlot u (unpack14 (slice (s.memRead src.toNat 2048) 0 1792))).setSlot r
        (unpackR (slice (s.memRead src.toNat 2048) 1792 256))).complete 0x1F#6 .success) := by
  rw [exec, execDecb, perform_ok s ((ok_decb u r src).2 ⟨h, h'⟩)]
  rfl

theorem exec_helprec (r x : Slot) {seed : Offset} (k : Imm8) (h : seed.toNat + 32 ≤ 8192) :
    exec (.helprec r x seed k) s =
      .next ((helprecRule r x (Config.stream (s.seedAt seed) (helprecNonce k) 32) s).2.complete 0x20#6
        (helprecRule r x (Config.stream (s.seedAt seed) (helprecNonce k) 32) s).1) := by
  rw [exec, execHelprec, perform_ok s ((ok_helprec r x seed k).2 h)]
  rfl

/-- REC leaves the key in BMEM; what it holds in scratch on the way is zeroed by the completion record. -/
theorem exec_recKey {key : Offset} (x r : Slot) (h : key.toNat + 32 ≤ 8192) :
    exec (.recKey key x r) s =
      .next ((s.memWrite key.toNat (recKeyBytes (s.s32 x) (s.slot r))).complete 0x21#6 .success) := by
  rw [exec, execRecKey, perform_ok s ((ok_recKey key x r).2 h)]
  rfl

theorem exec_zerop (d : Slot) : exec (.zerop d) s = .next ((s.setSlot d zeroPoly).complete 0x28#6 .success) := by
  rw [← polyOf_zero]; rfl

theorem exec_zerob {start len : Offset} (h : start.toNat + len.toNat ≤ 8192) :
    exec (.zerob start len) s =
      .next ((s.memWrite start.toNat (tabulate len.toNat fun _ => (0#8 : Byte))).complete 0x29#6 .success) := by
  rw [exec, execZerob, perform_ok s ((ok_zerob start len).2 h)]
  rfl

/-- Every command is its operand checks, a rule of its own and the completion record. -/
theorem exec_eq_perform (i : Instr) : ∃ rule : Effect, ∀ s, exec i s = perform i rule s := by
  cases i <;>
    simp only [exec, execNop, execRedonce, execTwored, execCorr, execSmul, execNttf, execNtti, execPmul, execPmuladd,
      execGena, execSample, execEnc14, execDec14, execEncr, execDecr, execEnca, execDeca, execEncb, execDecb,
      execHelprec, execRecKey, execZerop, execZerob] <;>
    exact ⟨_, fun _ => rfl⟩

/-- Operands that fail the checks: InvalidParameter and nothing else (R272). -/
theorem exec_refused {i : Instr} (h : operandError i ≠ none) :
    exec i s = .next (s.complete i.op.code .invalidParameter) := by
  obtain ⟨rule, e⟩ := exec_eq_perform i
  rw [e, perform_refused s h]

/-- Every command answers a next state that its completion record has closed. -/
theorem exec_complete (i : Instr) : ∃ (u : State) (c : Status), exec i s = .next (u.complete i.op.code c) := by
  obtain ⟨rule, e⟩ := exec_eq_perform i
  by_cases h : operandError i = none
  · exact ⟨_, _, by rw [e, perform_ok s h]⟩
  · exact ⟨s, .invalidParameter, exec_refused s h⟩

end Sys2Proof.Machine
end

