-- ==== Sys2Proof/Laws/Ntt.lean ====
section
/-! SUPPORT. The powers used by the transforms are the powers of 41_ntt.md R160 and R161, and the transforms read as the formulas there. -/

namespace Sys2Proof.Machine

/-- PSI has order dividing 2048 modulo q (R5). -/
theorem psi_pow_order : Config.psi ^ Config.psiOrder % Config.q = 1 := by decide +kernel

theorem psiInv_pow_order : Config.psiInv ^ Config.psiOrder % Config.q = 1 := by decide +kernel

/-- PSIINV is the inverse of PSI modulo q (R161). -/
theorem psi_mul_psiInv : Config.psi * Config.psiInv % Config.q = 1 := by decide

/-- Ninv is the inverse of N modulo q (R161). -/
theorem n_mul_nInv : Config.n * Config.nInv % Config.q = 1 := by decide

/-- An exponent may be reduced modulo an order. -/
theorem pow_mod_order {g d m : Nat} (h : g ^ d % m = 1) (e : Nat) : g ^ (e % d) % m = g ^ e % m := by
  conv_rhs => rw [← Nat.div_add_mod e d, pow_add, pow_mul, Nat.mul_mod, Nat.pow_mod, h]
  rw [one_pow, ← Nat.mod_mod_of_dvd (g ^ (e % d)) (Nat.dvd_refl m), Nat.mod_mod, Nat.mul_mod, Nat.mod_mod,
    ← Nat.mul_mod, one_mul, Nat.mod_mod]

/-- `psiPow e` is PSI^e mod q. -/
theorem psiPow_eq (e : Nat) : psiPow e = Config.psi ^ e % Config.q := pow_mod_order psi_pow_order e

/-- `psiInvPow e` is PSIINV^e mod q. -/
theorem psiInvPow_eq (e : Nat) : psiInvPow e = Config.psiInv ^ e % Config.q := pow_mod_order psiInv_pow_order e

/-- A sum of products may use factors reduced modulo m. -/
theorem sum_mul_mod (m n : Nat) (f g : Nat → Nat) :
    (∑ j ∈ Finset.range n, f j * (g j % m)) % m = (∑ j ∈ Finset.range n, f j * g j) % m := by
  induction n with
  | zero => rfl
  | succ n ih =>
    rw [Finset.sum_range_succ, Finset.sum_range_succ, Nat.add_mod, ih, Nat.mul_mod, Nat.mod_mod, ← Nat.mul_mod,
      ← Nat.add_mod]

/-- `NTT(a)[i]` in the words of R160. -/
theorem nttAt_eq (a : Nat → Int) (i : Nat) :
    nttAt a i = (∑ j ∈ Finset.range Config.n, residue (a j) * Config.psi ^ ((2 * brv10 i + 1) * j)) % Config.q := by
  unfold nttAt
  simp only [psiPow_eq]
  exact sum_mul_mod _ _ _ _

/-- `INTT(A)[j]` in the words of R161. -/
theorem inttAt_eq (a : Nat → Int) (j : Nat) :
    inttAt a j =
      (Config.nInv * ∑ i ∈ Finset.range Config.n, residue (a i) * Config.psiInv ^ ((2 * brv10 i + 1) * j)) % Config.q := by
  unfold inttAt
  simp only [psiInvPow_eq]
  rw [Nat.mul_mod, sum_mul_mod, ← Nat.mul_mod]

theorem residue_lt (x : Int) : residue x < 12289 := by
  have := modq_lt x; have := modq_nonneg x; unfold residue; omega

theorem residue_cast (x : Int) : ((residue x : Nat) : Int) = modq x := Int.toNat_of_nonneg (modq_nonneg x)

theorem nttAt_lt (a : Nat → Int) (i : Nat) : nttAt a i < 12289 := Nat.mod_lt _ (by decide)

theorem inttAt_lt (a : Nat → Int) (j : Nat) : inttAt a j < 12289 := Nat.mod_lt _ (by decide)

end Sys2Proof.Machine
end

