-- ==== Sys2Proof/Laws/PerInstr.lean ====
section
/-! SUPPORT. Families of lemmas with one lemma per command. FieldsFit: a command's own fields leave its blank fields 0 and rebuild the command (30_encoding.md R117, R119). -/

namespace Sys2Proof.Laws.FieldsFit

/-- The fields of a command leave every field blank for it 0, and the command is read back from them. -/
def Statement (i : Instr) : Prop :=
  unusedNonzero i.op.uses i.fields = false ∧ Instr.ofFields i.op i.fields = i

theorem nop : Statement .nop := ⟨rfl, rfl⟩
theorem redonce (d a : Slot) : Statement (.redonce d a) := ⟨rfl, rfl⟩
theorem twored (d a : Slot) : Statement (.twored d a) := ⟨rfl, rfl⟩
theorem corr (d a : Slot) : Statement (.corr d a) := ⟨rfl, rfl⟩
theorem smul (d a : Slot) (k : Imm8) : Statement (.smul d a k) := ⟨rfl, rfl⟩
theorem nttf (d a : Slot) : Statement (.nttf d a) := ⟨rfl, rfl⟩
theorem ntti (d a : Slot) : Statement (.ntti d a) := ⟨rfl, rfl⟩
theorem pmul (d a b : Slot) : Statement (.pmul d a b) := ⟨rfl, rfl⟩
theorem pmuladd (d a b c : Slot) : Statement (.pmuladd d a b c) := ⟨rfl, rfl⟩
theorem gena (d : Slot) (seed : Offset) : Statement (.gena d seed) := ⟨rfl, rfl⟩
theorem sample (d : Slot) (seed : Offset) (nonce : Imm8) : Statement (.sample d seed nonce) := ⟨rfl, rfl⟩
theorem enc14 (dst : Offset) (a : Slot) : Statement (.enc14 dst a) := ⟨rfl, rfl⟩
theorem dec14 (d : Slot) (src : Offset) : Statement (.dec14 d src) := ⟨rfl, rfl⟩
theorem encr (dst : Offset) (r : Slot) : Statement (.encr dst r) := ⟨rfl, rfl⟩
theorem decr (d : Slot) (src : Offset) : Statement (.decr d src) := ⟨rfl, rfl⟩
theorem enca (dst : Offset) (b : Slot) (seed : Offset) : Statement (.enca dst b seed) := ⟨rfl, rfl⟩
theorem deca (d : Slot) (seedDst src : Offset) : Statement (.deca d seedDst src) := ⟨rfl, rfl⟩
theorem encb (dst : Offset) (u r : Slot) : Statement (.encb dst u r) := ⟨rfl, rfl⟩
theorem decb (u r : Slot) (src : Offset) : Statement (.decb u r src) := ⟨rfl, rfl⟩
theorem helprec (r x : Slot) (seed : Offset) (nonce : Imm8) : Statement (.helprec r x seed nonce) := ⟨rfl, rfl⟩
theorem recKey (key : Offset) (x r : Slot) : Statement (.recKey key x r) := ⟨rfl, rfl⟩
theorem zerop (d : Slot) : Statement (.zerop d) := ⟨rfl, rfl⟩
theorem zerob (start len : Offset) : Statement (.zerob start len) := ⟨rfl, rfl⟩

end Sys2Proof.Laws.FieldsFit
end

