-- ==== Sys2Proof/Laws/Shape.lean ====
section
/-! SUPPORT. Said once of every command: it changes PMEM, BMEM and the fields of the completion record, nothing else, and it keeps BMEM in its canonical form. -/

namespace Sys2Proof.Machine

/-- The state with other memories. -/
abbrev State.withMemories (s : State) (p : Vector Poly 8) (m : Memory) : State := { s with pmem := p, bmem := m }

/-- A rule changes PMEM, BMEM and scratch only, and keeps BMEM canonical. -/
def Effect.Local (rule : Effect) (s : State) : Prop :=
  ∃ p m sc, (rule s).2 = { s with pmem := p, bmem := m, scratch := sc } ∧ (Memory.wf s.bmem → Memory.wf m)

theorem local_setSlot (s : State) (d : Slot) (p : Poly) : (succeed fun s => s.setSlot d p).Local s :=
  ⟨_, _, _, rfl, id⟩

theorem local_memWrite (s : State) {off n : Nat} (v : Bytes n) (h : off + n ≤ 8192) :
    (succeed fun s => s.memWrite off v).Local s :=
  ⟨_, _, _, rfl, fun hw => wf_memWrite v hw h⟩

/-- The completion record hides what a rule did to scratch. -/
theorem complete_local {rule : Effect} {s : State} (h : rule.Local s) (op : BitVec 6) :
    ∃ p m, (rule s).2.complete op (rule s).1 = (s.withMemories p m).complete op (rule s).1 ∧
      (Memory.wf s.bmem → Memory.wf m) := by
  obtain ⟨p, m, sc, e, hw⟩ := h
  exact ⟨p, m, by rw [e]; rfl, hw⟩

theorem genaRule_local (d : Slot) (resp : Status × Vector Word 1024) (s : State) : (genaRule d resp).Local s := by
  unfold Effect.Local genaRule failSlot
  split
  · exact ⟨_, _, _, rfl, id⟩
  · split <;> exact ⟨_, _, _, rfl, id⟩

theorem sampleRule_local (d : Slot) (resp : Status × Bytes 3072) (s : State) : (sampleRule d resp).Local s := by
  unfold Effect.Local sampleRule failSlot
  split <;> exact ⟨_, _, _, rfl, id⟩

theorem helprecRule_local (r x : Slot) (resp : Status × Bytes 32) (s : State) : (helprecRule r x resp).Local s := by
  unfold Effect.Local helprecRule failSlot
  split <;> exact ⟨_, _, _, rfl, id⟩

/-- A command whose checks pass answers its memories changed and its completion record. -/
theorem exec_shape_ok (s : State) {i : Instr} (h : operandError i = none) :
    ∃ p m c, exec i s = .next ((s.withMemories p m).complete i.op.code c) ∧ (Memory.wf s.bmem → Memory.wf m) := by
  cases i with
  | nop => exact ⟨s.pmem, s.bmem, _, exec_nop s, id⟩
  | redonce d a => exact ⟨_, s.bmem, _, exec_redonce s d a, id⟩
  | twored d a => exact ⟨_, s.bmem, _, exec_twored s d a, id⟩
  | corr d a => exact ⟨_, s.bmem, _, exec_corr s d a, id⟩
  | smul d a k => exact ⟨_, s.bmem, _, exec_smul s d a ((ok_smul d a k).1 h), id⟩
  | nttf d a => exact ⟨_, s.bmem, _, exec_nttf s d a, id⟩
  | ntti d a => exact ⟨_, s.bmem, _, exec_ntti s d a, id⟩
  | pmul d a b => exact ⟨_, s.bmem, _, exec_pmul s d a b, id⟩
  | pmuladd d a b c => exact ⟨_, s.bmem, _, exec_pmuladd s d a b c, id⟩
  | gena d seed =>
    obtain ⟨p, m, e, hw⟩ := complete_local (genaRule_local d (Config.xof (s.seedAt seed) 1024) s) 0x10#6
    exact ⟨p, m, _, (exec_gena s d ((ok_gena d seed).1 h)).trans (by rw [e]; rfl), hw⟩
  | sample d seed k =>
    obtain ⟨p, m, e, hw⟩ :=
      complete_local (sampleRule_local d (Config.stream (s.seedAt seed) (sampleNonce k) 3072) s) 0x11#6
    exact ⟨p, m, _, (exec_sample s d k ((ok_sample d seed k).1 h)).trans (by rw [e]; rfl), hw⟩
  | enc14 dst a =>
    have hr := (ok_enc14 dst a).1 h
    exact ⟨s.pmem, _, _, exec_enc14 s a hr, fun hw => wf_memWrite _ hw hr⟩
  | dec14 d src => exact ⟨_, s.bmem, _, exec_dec14 s d ((ok_dec14 d src).1 h), id⟩
  | encr dst r =>
    have hr := (ok_encr dst r).1 h
    exact ⟨s.pmem, _, _, exec_encr s r hr, fun hw => wf_memWrite _ hw hr⟩
  | decr d src => exact ⟨_, s.bmem, _, exec_decr s d ((ok_decr d src).1 h), id⟩
  | enca dst b seed =>
    have hr := (ok_enca dst b seed).1 h
    exact ⟨s.pmem, _, _, exec_enca s b hr.1 hr.2, fun hw => wf_memWrite _ hw hr.1⟩
  | deca d sd src =>
    have hr := (ok_deca d sd src).1 h
    exact ⟨_, _, _, exec_deca s d hr.1 hr.2, fun hw => wf_memWrite (s := s.setSlot d _) _ hw hr.2⟩
  | encb dst u r =>
    have hr := (ok_encb dst u r).1 h
    exact ⟨s.pmem, _, _, exec_encb s u r hr, fun hw => wf_memWrite _ hw hr⟩
  | decb u r src =>
    have hr := (ok_decb u r src).1 h
    exact ⟨_, s.bmem, _, exec_decb s hr.1 hr.2, id⟩
  | helprec r x seed k =>
    obtain ⟨p, m, e, hw⟩ :=
      complete_local (helprecRule_local r x (Config.stream (s.seedAt seed) (helprecNonce k) 32) s) 0x20#6
    exact ⟨p, m, _, (exec_helprec s r x k ((ok_helprec r x seed k).1 h)).trans (by rw [e]; rfl), hw⟩
  | recKey key x r =>
    have hr := (ok_recKey key x r).1 h
    exact ⟨s.pmem, _, _, exec_recKey s x r hr, fun hw => wf_memWrite _ hw hr⟩
  | zerop d => exact ⟨_, s.bmem, _, exec_zerop s d, id⟩
  | zerob start len =>
    have hr := (ok_zerob start len).1 h
    exact ⟨s.pmem, _, _, exec_zerob s hr, fun hw => wf_memWrite _ hw hr⟩

/-- All that a command can do: its memories changed and its completion record; BMEM stays canonical. -/
theorem exec_shape (i : Instr) (s : State) :
    ∃ p m c, exec i s = .next ((s.withMemories p m).complete i.op.code c) ∧ (Memory.wf s.bmem → Memory.wf m) := by
  by_cases h : operandError i = none
  · exact exec_shape_ok s h
  · exact ⟨s.pmem, s.bmem, .invalidParameter, exec_refused s h, id⟩

end Sys2Proof.Machine
end

