-- ==== Sys2Proof/Laws/Step.lean ====
section
/-! SUPPORT. What a bus access, command issue and one step can do, each said once. -/

namespace Sys2Proof.Machine

variable (s : State)

/-- A bus read leaves its value, or 0 and ACCERR; nothing else changes. -/
theorem busRead_eq (addr : BitVec 18) (w : Width) :
    s.busRead addr w =
      { s with rdata := (readValue s addr w).getD 0#32, accerr := s.accerr || (readValue s addr w).isNone } := by
  unfold State.busRead
  cases readValue s addr w <;> simp

/-- A word that is refused at issue completes with its status and changes nothing else. -/
theorem issue_refused {e : DecodeError} (h : decode (commandOf s.cmd0 s.cmd1) = .refused e) :
    s.issue = ({ s with done := false, err := false }).complete (opBits (commandOf s.cmd0 s.cmd1)) e.status := by
  unfold State.issue; simp only [h]

/-- A command whose operand values are refused at issue completes with InvalidParameter and changes nothing else. -/
theorem issue_operandError {i : Instr} (h : decode (commandOf s.cmd0 s.cmd1) = .instr i) (he : operandError i ≠ none) :
    s.issue =
      ({ s with done := false, err := false }).complete (opBits (commandOf s.cmd0 s.cmd1)) .invalidParameter := by
  unfold State.issue; simp only [h]
  split
  · rfl
  · contradiction

/-- A command that passes its checks enters execution. -/
theorem issue_ok {i : Instr} (h : decode (commandOf s.cmd0 s.cmd1) = .instr i) (he : operandError i = none) :
    s.issue = ({ s with done := false, err := false }).enterExec (commandOf s.cmd0 s.cmd1) i := by
  unfold State.issue; simp only [h, he]

/-- All that command issue can do. -/
theorem issue_cases :
    (∃ c, c ≠ Status.success ∧
        s.issue = ({ s with done := false, err := false }).complete (opBits (commandOf s.cmd0 s.cmd1)) c) ∨
      ∃ i, decode (commandOf s.cmd0 s.cmd1) = .instr i ∧ operandError i = none ∧
        s.issue = ({ s with done := false, err := false }).enterExec (commandOf s.cmd0 s.cmd1) i := by
  cases h : decode (commandOf s.cmd0 s.cmd1) with
  | refused e => exact .inl ⟨e.status, by cases e <;> decide, issue_refused s h⟩
  | instr i =>
    by_cases he : operandError i = none
    · exact .inr ⟨i, rfl, he, issue_ok s h he⟩
    · exact .inl ⟨.invalidParameter, by decide, issue_operandError s h he⟩

/-- All that a write to CTRL can do. -/
theorem writeCtrl_cases (v : Word) :
    (v.getLsbD 1 = true ∧ s.writeCtrl v = s.enterReset) ∨
      (v.getLsbD 1 = false ∧ v.getLsbD 0 = false ∧ s.writeCtrl v = { s with irqen := v.getLsbD 2 }) ∨
      (v.getLsbD 1 = false ∧ v.getLsbD 0 = true ∧ s.busy = true ∧
        s.writeCtrl v = { s with irqen := v.getLsbD 2, accerr := true }) ∨
      (v.getLsbD 1 = false ∧ v.getLsbD 0 = true ∧ s.busy = false ∧
        s.writeCtrl v = ({ s with irqen := v.getLsbD 2 }).issue) := by
  have hb : ∀ b : Bool, ({ s with irqen := b } : State).busy = s.busy := fun _ => rfl
  unfold State.writeCtrl
  cases h1 : v.getLsbD 1 <;> cases h0 : v.getLsbD 0 <;> cases hs : s.busy <;> simp [hb, hs]

/-- A byte range the register map gives to an access lies inside BMEM. -/
theorem target_bmem {addr : BitVec 18} {w : Width} {off : Nat} (h : target addr w = some (.bmem off)) :
    off + widthBytes w ≤ 8192 := by
  unfold target at h
  dsimp only at h
  split at h
  · split at h
    · cases hc : csrAt addr.toNat <;> simp [hc] at h
    · cases h
  · split at h
    · split at h <;> cases h
    · split at h
      · cases h
      · split at h
        · rename_i hr; simp only [Option.some.injEq, Target.bmem.injEq] at h; rw [← h]; exact hr.2
        · cases h

/-- A coefficient the register map gives to an access is one of the 1024. -/
theorem target_pmem {addr : BitVec 18} {w : Width} {d : Slot} {i : Nat} (h : target addr w = some (.pmem d i)) :
    i < 1024 ∧ w = .w32 := by
  unfold target at h
  dsimp only at h
  split at h
  · split at h
    · cases hc : csrAt addr.toNat <;> simp [hc] at h
    · cases h
  · split at h
    · split at h
      · rename_i hr; simp only [Option.some.injEq, Target.pmem.injEq] at h; exact ⟨by omega, hr.1⟩
      · cases h
    · split at h
      · cases h
      · split at h <;> cases h

/-- All that a bus write can do. -/
theorem busWrite_cases (addr : BitVec 18) (w : Width) (v : Word) :
    s.busWrite addr w v = { s with accerr := true } ∨ s.busWrite addr w v = s ∨
      s.busWrite addr w v = s.writeCtrl v ∨ s.busWrite addr w v = s.writeStatus v ∨
      s.busWrite addr w v = { s with firstErr := none } ∨
      (s.phase = .idle ∧
        (s.busWrite addr w v = { s with cmd0 := v } ∨ s.busWrite addr w v = { s with cmd1 := v } ∨
          (∃ d i, s.busWrite addr w v = s.setCoeff d i v) ∨
          ∃ off, off + widthBytes w ≤ 8192 ∧
            s.busWrite addr w v = s.memWrite off (tabulate (widthBytes w) fun k => byteOf v k))) := by
  have idle : s.busy = false → s.phase = .idle := fun h => by
    by_contra hp; rw [(busy_iff s).2 hp] at h; cases h
  unfold State.busWrite writeEffect
  cases ht : target addr w with
  | none => exact .inl rfl
  | some tg =>
    cases tg with
    | csr r => cases r <;> cases hb : s.busy <;> simp [State.writeCsr, hb, idle]
    | pmem d i =>
      cases hb : s.busy
      · exact .inr (.inr (.inr (.inr (.inr ⟨idle hb, .inr (.inr (.inl ⟨d, i, by simp⟩))⟩))))
      · exact .inl (by simp)
    | bmem off =>
      cases hb : s.busy
      · exact .inr (.inr (.inr (.inr (.inr ⟨idle hb, .inr (.inr (.inr ⟨off, target_bmem ht, by simp⟩))⟩))))
      · exact .inl (by simp)

theorem step_nil (h : s.inputs = []) : step s = sequencerTurn s := by
  unfold step turn; rw [h]

theorem step_cons {i : Input} {rest : List Input} (h : s.inputs = i :: rest) :
    step s = inputTurn i { s with inputs := rest } := by
  unfold step turn; rw [h]

theorem sequencerTurn_exec {w : Command} (hp : s.phase = .exec w) (hr : s.rstN = true) :
    sequencerTurn s = runCommand w s := by
  simp [sequencerTurn, hp, hr]

theorem sequencerTurn_clearing (hp : s.phase = .clearing) (hr : s.rstN = true) :
    sequencerTurn s = .next s.finishClearing := by
  simp [sequencerTurn, hp, hr]

theorem sequencerTurn_idle (hp : s.phase = .idle) : sequencerTurn s = .next s := by
  simp [sequencerTurn, hp]

theorem sequencerTurn_held (hr : s.rstN = false) : sequencerTurn s = .next s := by
  simp [sequencerTurn, hr]

theorem runCommand_instr {w : Command} {i : Instr} (h : decode w = .instr i) : runCommand w s = exec i s := by
  simp [runCommand, h]

theorem runCommand_refused {w : Command} {e : DecodeError} (h : decode w = .refused e) :
    runCommand w s = .next (s.complete (opBits w) e.status) := by
  simp [runCommand, h]

/-- All that the sequencer's turn can do. -/
theorem sequencerTurn_cases {t : State} (h : sequencerTurn s = .next t) :
    (t = s ∧ (s.phase = .idle ∨ s.rstN = false)) ∨
      (s.rstN = true ∧ s.phase = .clearing ∧ t = s.finishClearing) ∨
      ∃ w, s.rstN = true ∧ s.phase = .exec w ∧ runCommand w s = .next t := by
  unfold sequencerTurn at h
  split at h
  · rename_i hr
    split at h
    · rename_i hp; exact .inl ⟨by simpa using h.symm, .inl hp⟩
    · rename_i hp; exact .inr (.inl ⟨hr, hp, by simpa using h.symm⟩)
    · rename_i w hp; exact .inr (.inr ⟨w, hr, hp, h⟩)
  · rename_i hr; exact .inl ⟨by simpa using h.symm, .inr (by simpa using hr)⟩

/-- All that an input's turn can do, on the state whose input it no longer holds. -/
theorem inputTurn_cases {i : Input} {t : State} (h : inputTurn i s = .next t) :
    t = s ∨ sequencerTurn s = .next t ∨
      (∃ addr w, i = .read addr w ∧
        ((s.rstN = true ∧ t = s.busRead addr w) ∨ (s.rstN = false ∧ t = s.readInReset addr w))) ∨
      (∃ addr w v, i = .write addr w v ∧ s.rstN = true ∧ t = s.busWrite addr w v) ∨
      (i = .rstFall ∧ t = { s.enterReset with rstN := false }) ∨ (i = .rstRise ∧ t = { s with rstN := true }) := by
  cases i with
  | read addr w =>
    refine .inr (.inr (.inl ⟨addr, w, rfl, ?_⟩))
    cases hr : s.rstN <;> simp [inputTurn, hr] at h <;> simp [h]
  | write addr w v =>
    cases hr : s.rstN <;> simp [inputTurn, hr] at h <;> simp [h]
  | rstFall => simp [inputTurn] at h; simp [h]
  | rstRise => simp [inputTurn] at h; simp [h]
  | clock => simp only [inputTurn] at h; split at h <;> simp_all
  | answer => simp only [inputTurn] at h; split at h <;> simp_all
  | lateAnswer => simp [inputTurn] at h; simp [h]

end Sys2Proof.Machine
end

