-- ==== Sys2Proof/Tests/Slice0.lean ====
section
/-! SUPPORT. Tests, each expected value from the spec (the file named in its comment) or by hand from a rule; and, for every obligation with hypotheses, a state and operands that meet them. -/

namespace Sys2Proof.Tests

open Sys2Proof Sys2Proof.Machine Sys2Proof.Claims

-- The kernel's evaluations run one after another, so that their memory stays small.
set_option Elab.async false

/-! ### Small states -/

/-- The block in Idle after reset and Clearing. -/
def idle : State := { State.reset with phase := .idle }

/-- A slot that holds `f k` in coefficient `k`. -/
def poly (f : Nat → Int) : Poly := polyOf fun k => wrap32 (f k)

/-- A slot whose first coefficients are the listed values, the others 0. -/
def short (l : List Int) : Poly := poly fun k => l.getD k 0

/-- Bytes in BMEM from an offset on. -/
def put (s : State) (off : Nat) (l : List Byte) : State := { s with bmem := Memory.writeRange s.bmem off l }

/-- The state a command answers, or `idle`. -/
def after (a : Answer) : State :=
  match a with
  | .next t => t
  | _ => idle

/-- Some coefficients of a slot, as signed integers. -/
def coeffs (s : State) (d : Slot) (ks : List Nat) : List Int := ks.map fun k => (s.coeff d k).toInt

theorem coeff_poly (s : State) (d : Slot) (f : Nat → Int) {k : Nat} (h : k < 1024) :
    (s.setSlot d (poly f)).coeff d k = wrap32 (f k) := by
  rw [coeff_setSlot_self, poly, nth_polyOf _ h]

/-- A slot read as signed integers, without walking a list of 1024 words. -/
theorem s32_poly (s : State) (d : Slot) (f : Nat → Int) :
    (s.setSlot d (poly f)).s32 d = fun k => if k < 1024 then (wrap32 (f k)).toInt else 0 := by
  funext k
  by_cases h : k < 1024
  · rw [if_pos h, State.s32, coeff_poly s d f h]
  · rw [if_neg h, State.s32, State.coeff, nth_of_ge _ (Nat.le_of_not_lt h)]; rfl

/-- Some bytes of BMEM. -/
def bytes (s : State) (off n : Nat) : List Byte := (List.range n).map fun k => s.byteAt (off + k)

/-- The block in Idle with inputs still to come. -/
def waiting (l : List Input) : State := { idle with inputs := l }

/-- The block executing the command word `w` as if it had been issued. -/
def running (w : Command) : State := idle.holdCommand (w.extractLsb' 0 32) (w.extractLsb' 32 32)

/-! ### Decoding: a word of every command, put together by hand from the fields of 30_encoding.md R110 -/

/-- OP 0x00 (R110, R118, R119). -/
theorem test_decode_nop : decode 0x0000000000000000#64 = .instr (.nop) := by decide +kernel

/-- OP 0x01, S0 1, S1 2 (R110, R118, R119). -/
theorem test_decode_redonce : decode 0x0000000000001101#64 = .instr (.redonce 1 2) := by decide +kernel

/-- OP 0x02, S0 3, S1 4 (R110, R118, R119). -/
theorem test_decode_twored : decode 0x0000000000002302#64 = .instr (.twored 3 4) := by decide +kernel

/-- OP 0x03, S0 5, S1 6 (R110, R118, R119). -/
theorem test_decode_corr : decode 0x0000000000003503#64 = .instr (.corr 5 6) := by decide +kernel

/-- OP 0x04, S0 7, S1 1, IMM8 0xA5 (R110, R118, R119). -/
theorem test_decode_smul : decode 0x00000000A5000F04#64 = .instr (.smul 7 1 0xA5) := by decide +kernel

/-- OP 0x08, S0 2, S1 5 (R110, R118, R119). -/
theorem test_decode_nttf : decode 0x0000000000002A08#64 = .instr (.nttf 2 5) := by decide +kernel

/-- OP 0x09, S0 6, S1 3 (R110, R118, R119). -/
theorem test_decode_ntti : decode 0x0000000000001E09#64 = .instr (.ntti 6 3) := by decide +kernel

/-- OP 0x0C, S0 1, S1 2, S2 4 (R110, R118, R119). -/
theorem test_decode_pmul : decode 0x000000000001110C#64 = .instr (.pmul 1 2 4) := by decide +kernel

/-- OP 0x0D, S0 1, S1 2, S2 4, S3 7 (R110, R118, R119). -/
theorem test_decode_pmuladd : decode 0x00000000000F110D#64 = .instr (.pmuladd 1 2 4 7) := by decide +kernel

/-- OP 0x10, S0 5, BOFF0 0x1234 (R110, R118, R119). -/
theorem test_decode_gena : decode 0x0000123400000510#64 = .instr (.gena 5 0x1234) := by decide +kernel

/-- OP 0x11, S0 6, IMM8 0x81, BOFF0 0x0F0E (R110, R118, R119). -/
theorem test_decode_sample : decode 0x00000F0E81000611#64 = .instr (.sample 6 0x0F0E 0x81) := by decide +kernel

/-- OP 0x18, S1 3, BOFF0 0x0102 (R110, R118, R119). -/
theorem test_decode_enc14 : decode 0x0000010200001818#64 = .instr (.enc14 0x0102 3) := by decide +kernel

/-- OP 0x19, S0 4, BOFF0 0x0506 (R110, R118, R119). -/
theorem test_decode_dec14 : decode 0x0000050600000419#64 = .instr (.dec14 4 0x0506) := by decide +kernel

/-- OP 0x1A, S1 5, BOFF0 0x0708 (R110, R118, R119). -/
theorem test_decode_encr : decode 0x000007080000281A#64 = .instr (.encr 0x0708 5) := by decide +kernel

/-- OP 0x1B, S0 6, BOFF0 0x090A (R110, R118, R119). -/
theorem test_decode_decr : decode 0x0000090A0000061B#64 = .instr (.decr 6 0x090A) := by decide +kernel

/-- OP 0x1C, S1 2, BOFF0 0x0100, BOFF1 0x8001 (R110, R118, R119). -/
theorem test_decode_enca : decode 0x800101000000101C#64 = .instr (.enca 0x0100 2 0x8001) := by decide +kernel

/-- OP 0x1D, S0 1, BOFF0 (src) 0x0203, BOFF1 (seeddst) 0x0040 (R110, R118, R119). -/
theorem test_decode_deca : decode 0x004002030000011D#64 = .instr (.deca 1 0x0040 0x0203) := by decide +kernel

/-- OP 0x1E, S1 1, S2 6, BOFF0 0x0304 (R110, R118, R119). -/
theorem test_decode_encb : decode 0x000003040001881E#64 = .instr (.encb 0x0304 1 6) := by decide +kernel

/-- OP 0x1F, S0 1, S1 2, BOFF0 0x0800 (R110, R118, R119). -/
theorem test_decode_decb : decode 0x000008000000111F#64 = .instr (.decb 1 2 0x0800) := by decide +kernel

/-- OP 0x20, S0 5, S1 4, IMM8 3, BOFF0 0x0020 (R110, R118, R119). -/
theorem test_decode_helprec : decode 0x0000002003002520#64 = .instr (.helprec 5 4 0x0020 3) := by decide +kernel

/-- OP 0x21, S1 3, S2 6, BOFF0 0x0100 (R110, R118, R119). -/
theorem test_decode_recKey : decode 0x0000010000019821#64 = .instr (.recKey 0x0100 3 6) := by decide +kernel

/-- OP 0x28, S0 3 (R110, R118, R119). -/
theorem test_decode_zerop : decode 0x0000000000000328#64 = .instr (.zerop 3) := by decide +kernel

/-- OP 0x29, BOFF0 0x0020, BOFF1 0x8010 (R110, R118, R119). -/
theorem test_decode_zerob : decode 0x8010002000000029#64 = .instr (.zerob 0x0020 0x8010) := by decide +kernel

/-- OP 0x3F is unassigned; OP 0x05 is, and OP is checked before RES0 (95_test_vectors.md §2.9). -/
theorem test_decode_unassigned :
    decode 0x000000000000003F#64 = .refused .unassignedOp ∧ decode 0x00000000000000C5#64 = .refused .unassignedOp := by
  decide +kernel

/-- RES0 = 3, and RES1 bit 20 (95_test_vectors.md §2.9). -/
theorem test_decode_reserved :
    decode 0x00000000000000C1#64 = .refused .reservedBits ∧ decode 0x0000000000100001#64 = .refused .reservedBits := by
  decide +kernel

/-- IMM8 = 1 in a REDONCE (95_test_vectors.md §2.9), and BOFF1 = 1 in a NOP. -/
theorem test_decode_unused :
    decode 0x0000000001000101#64 = .refused .unusedField ∧ decode 0x0001000000000000#64 = .refused .unusedField := by
  decide +kernel

/-- A table word read as CMD0 and CMD1 (REC of R124). -/
theorem test_decodeTableWord : decodeTableWord 64 0x0000010000004021 = some (.recKey 0x0100 0 1) := by decide +kernel

/-! ### Well-formedness: an ill-formed command for each check, and the last well-formed one beside it -/

/-- SMUL with k = 0 (R143). -/
theorem test_wellFormed_smul : ¬(Instr.smul 4 0 0).WellFormed ∧ (Instr.smul 4 0 1).WellFormed := by decide +kernel

/-- A byte range that ends at 8193, and at 8192 (95_test_vectors.md §2.5, §2.6). -/
theorem test_wellFormed_range :
    ¬(Instr.gena 0 0x1FE1).WellFormed ∧ (Instr.gena 0 0x1FE0).WellFormed ∧ ¬(Instr.enc14 0x1901 0).WellFormed ∧
      (Instr.enc14 0x1900 0).WellFormed := by decide +kernel

/-- The second byte range of ENCA (95_test_vectors.md §2.6). -/
theorem test_wellFormed_second_range :
    ¬(Instr.enca 0x0000 0 0x1FE1).WellFormed ∧ (Instr.enca 0x1800 0 0x0000).WellFormed := by decide +kernel

/-- DECB into one slot twice (R217; 95_test_vectors.md §2.6). -/
theorem test_wellFormed_decb : ¬(Instr.decb 1 1 0x0000).WellFormed ∧ (Instr.decb 1 2 0x1800).WellFormed := by
  decide +kernel

/-- ZEROB of length 0 at 8192 and at 8193 (95_test_vectors.md §2.8). -/
theorem test_wellFormed_zerob :
    (Instr.zerob 0x2000 0).WellFormed ∧ ¬(Instr.zerob 0x2001 0).WellFormed ∧ ¬(Instr.zerob 0x1FF0 32).WellFormed := by
  decide +kernel

/-! ### Commands -/

/-- NOP ends with Success under opcode 0 and raises DONE (95_test_vectors.md §2.8). -/
theorem test_nop : resultWord (after (exec .nop idle)) = 0 ∧ statusWord (after (exec .nop idle)) = 2 := by decide +kernel

/-- The values of 95_test_vectors.md §2.1. -/
def reduced : State := idle.setSlot 0 (short [12289, 24577, 147468, -1, -24577, 2147483647, -2147483648])

theorem test_redonce :
    coeffs (after (exec (.redonce 1 0) reduced)) 1 (List.range 7) = [0, 12288, 0, 12288, 1, 5475, 6813] := by decide +kernel

theorem test_twored :
    coeffs (after (exec (.twored 1 0) reduced)) 1 (List.range 7) = [0, 12288, 0, 12288, 1, 5475, 6813] := by decide +kernel

/-- In place. -/
theorem test_corr :
    coeffs (after (exec (.corr 0 0) reduced)) 0 (List.range 7) = [0, 12288, 0, 12288, 1, 5475, 6813] := by decide +kernel

/-- 95_test_vectors.md §2.2. -/
theorem test_smul :
    coeffs (after (exec (.smul 1 0 81) (idle.setSlot 0 (short [100, -12])))) 1 [0, 1] = [8100, -972] ∧
      coeffs (after (exec (.smul 1 0 3) (idle.setSlot 0 (short [2147483647])))) 1 [0] = [2147483645] := by decide +kernel

theorem test_smul_zero :
    (after (exec (.smul 4 0 0) (idle.setSlot 4 (short [9])))).resultCode = .invalidParameter ∧
      coeffs (after (exec (.smul 4 0 0) (idle.setSlot 4 (short [9])))) 4 [0] = [9] := by decide +kernel

/-- NTTF of X (95_test_vectors.md §2.3). -/
theorem test_nttf :
    coeffs (after (exec (.nttf 1 0) (idle.setSlot 0 (short [0, 1])))) 1 [0, 1, 7] = [7, 12282, 8566] := by
  rw [exec_nttf, short, s32_poly]; decide +kernel

/-- NTTI of A[0] = 1 (95_test_vectors.md §2.3). -/
theorem test_ntti :
    coeffs (after (exec (.ntti 1 0) (idle.setSlot 0 (short [1])))) 1 [0, 1, 7] = [12277, 5265, 3277] := by
  rw [exec_ntti, short, s32_poly]; decide +kernel

/-- The twiddle constants of 95_test_vectors.md §2.3. -/
theorem test_twiddles :
    (List.range 8).map psiRev = [1, 10810, 7143, 4043, 10984, 722, 5736, 8155] ∧
      (List.range 8).map psiInvRev = [1, 1479, 8246, 5146, 4134, 6553, 11567, 1305] ∧ omegaInv10N = 6830 := by
  decide +kernel

/-- 95_test_vectors.md §2.4. -/
def factors : State :=
  ((idle.setSlot 0 (short [-1, 2147483647, 2147483647, 6000, 0])).setSlot 1
    (short [5, 2147483647, -2147483648, 7000, 9])).setSlot 2 (short [0, 2147483647, 0, 5, -1])

theorem test_pmul :
    coeffs (after (exec (.pmul 3 0 1) factors)) 3 (List.range 5) = [12284, 2754, 4060, 8487, 0] := by decide +kernel

theorem test_pmuladd :
    coeffs (after (exec (.pmuladd 3 0 1 2) factors)) 3 [1, 3, 4] = [8229, 8492, 12288] := by decide +kernel

/-- The alias of 95_test_vectors.md §2.4: 3·3 + 3. -/
theorem test_pmuladd_alias :
    coeffs (after (exec (.pmuladd 0 0 0 0) (idle.setSlot 0 (short [3])))) 0 [0] = [12] := by decide +kernel

/-- A word equal to q zeroes the slot and is a GenericError (95_test_vectors.md §2.5). -/
theorem test_gena_word_q :
    (genaRule 3 (.success, short [12289]) (idle.setSlot 3 (short [7]))).1 = .genericError ∧
      coeffs (genaRule 3 (.success, short [12289]) (idle.setSlot 3 (short [7]))).2 3 [0] = [0] := by decide +kernel

/-- Words below q enter the slot. -/
theorem test_gena_words :
    (genaRule 2 (.success, short [0, 12288]) idle).1 = .success ∧
      coeffs (genaRule 2 (.success, short [0, 12288]) idle).2 2 [0, 1] = [0, 12288] := by decide +kernel

/-- A stream that is 0 but for the listed bytes. -/
def stream (l : List (Nat × Byte)) : Bytes 3072 := tabulate 3072 fun k => (l.lookup k).getD 0

/-- Constructed streams of 95_test_vectors.md §2.5. -/
theorem test_sample :
    coeffs (sampleRule 1 (.success, stream [(0, 0xFF), (2048, 0x0F)]) idle).2 1 [0, 1] = [12, 0] ∧
      coeffs (sampleRule 1 (.success, stream [(1026, 0x01)]) idle).2 1 [1, 513] = [0, 1] ∧
      coeffs (sampleRule 1 (.success, stream [(2051, 0xF0)]) idle).2 1 [1, 513] = [0, -4] := by decide +kernel

/-- The collaborator's failure (95_test_vectors.md §2.11). -/
theorem test_sample_failure :
    (sampleRule 1 (.testError, stream [(0, 0xFF)]) (idle.setSlot 1 (short [5, 5]))).1 = .testError ∧
      coeffs (sampleRule 1 (.testError, stream [(0, 0xFF)]) (idle.setSlot 1 (short [5, 5]))).2 1 [0, 1] = [0, 0] := by
  decide +kernel

/-- 95_test_vectors.md §2.6. -/
theorem test_enc14 :
    bytes (after (exec (.enc14 0x1900 0) (idle.setSlot 0 (short [1, 2, 3, 4, -1])))) 0x1900 9 =
      [0x01, 0x80, 0x00, 0x30, 0x00, 0x10, 0x00, 0xFF, 0x3F] := by
  rw [exec_enc14 _ _ (by decide)]; simp only [bytes, after, byteAt_complete, byteAt_memWrite]; decide +kernel

theorem test_dec14 :
    coeffs (after (exec (.dec14 1 0x0010)
      (put idle 0x10 [0x01, 0x80, 0x00, 0x30, 0x00, 0x10, 0x00, 0xFF, 0xFF, 0xFF, 0xFF, 0xFF, 0xFF, 0xFF]))) 1
        (List.range 9) = [1, 2, 3, 4, 16383, 16383, 16383, 16383, 0] := by decide +kernel

theorem test_encr :
    bytes (after (exec (.encr 0 5) (idle.setSlot 5 (short [1, 2, 3, 0, 3, 3, 3, 3, 5])))) 0 3 = [0x39, 0xFF, 0x01] := by
  decide +kernel

theorem test_decr :
    coeffs (after (exec (.decr 6 0x1F00) (put idle 0x1F00 [0x39]))) 6 (List.range 5) = [1, 2, 3, 0, 0] := by decide +kernel

/-- By hand from R214: the seed's bytes stand 1792 bytes after the packed polynomial's first. -/
theorem test_enca :
    let t := after (exec (.enca 0x0100 0 0) (put (idle.setSlot 0 (short [12294])) 0 [0xAB, 0xCD]))
    bytes t 0x0100 2 = [0x06, 0x30] ∧ bytes t 0x0800 2 = [0xAB, 0xCD] := by
  rw [exec_enca _ _ (by decide) (by decide)]; simp only [bytes, after, byteAt_complete, byteAt_memWrite]; decide +kernel

/-- By hand from R215, the seed destination inside the message. -/
theorem test_deca :
    coeffs (after (exec (.deca 0 0 0) (put (put idle 0 [0x06, 0x30]) 0x700 [0xAB]))) 0 [0] = [12294] ∧
      bytes (after (exec (.deca 0 0 0) (put (put idle 0 [0x06, 0x30]) 0x700 [0xAB]))) 0 2 = [0xAB, 0x00] := by
  decide +kernel

/-- By hand from R216. -/
theorem test_encb :
    let t := after (exec (.encb 0 0 1) ((idle.setSlot 0 (short [12294])).setSlot 1 (short [1, 2, 3])))
    bytes t 0 2 = [0x06, 0x30] ∧ t.byteAt 0x700 = 0x39 := by
  rw [exec_encb _ _ _ (by decide)]
  simp only [bytes, after, byteAt_complete, byteAt_memWrite, messageB]
  refine ⟨by decide +kernel, ?_⟩
  rw [if_pos (by decide), show 0x700 - (0 : Offset).toNat = 1792 + 0 from rfl, nth_append_right _ _ (by decide)]
  decide +kernel

/-- By hand from R217. -/
theorem test_decb :
    coeffs (after (exec (.decb 1 2 0) (put (put idle 0 [0x06, 0x30]) 0x700 [0x39]))) 1 [0, 1] = [12294, 0] ∧
      coeffs (after (exec (.decb 1 2 0) (put (put idle 0 [0x06, 0x30]) 0x700 [0x39]))) 2 [0, 1, 2, 3] = [1, 2, 3, 0] := by
  decide +kernel

/-- Lanes 0 and 1 of the whole-slot vector of 95_test_vectors.md §2.7. -/
theorem test_helprec :
    coeffs (helprecRule 1 0 (.success, tabulate 32 fun k => [0x04, 0xAD, 0x62, 0x7B].getD k 0)
      (idle.setSlot 0 (poly fun k => (31 * k * k + 7) % 12289))).2 1 [0, 256, 512, 768, 1, 257, 513, 769] =
      [0, 1, 1, 0, 1, 3, 0, 2] := by decide +kernel

/-- The collaborator's failure leaves the source (95_test_vectors.md §2.11). -/
theorem test_helprec_failure :
    coeffs (helprecRule 6 5 (.testError, tabulate 32 fun _ => 0xFF) ((idle.setSlot 6 (short [5])).setSlot 5 (short [8]))).2
      6 [0] = [0] ∧
    coeffs (helprecRule 6 5 (.testError, tabulate 32 fun _ => 0xFF) ((idle.setSlot 6 (short [5])).setSlot 5 (short [8]))).2
      5 [0] = [8] := by decide +kernel

/-- The whole-key vectors of 95_test_vectors.md §2.7: 6145 in the four parts of lane 0 clears key bit 0. -/
theorem test_rec :
    bytes (after (exec (.recKey 0x0100 0 1) (idle.setSlot 0 (poly fun k => if k % 256 = 0 then 6145 else 0)))) 0x0100 3 =
      [0xFE, 0xFF, 0xFF] := by decide +kernel

/-- LDDecode of 95_test_vectors.md §1.1, and (4Q + 1, 0, 0, 0), which folds. -/
theorem test_ldDecode :
    ldDecode 0 0 0 0 = true ∧ ldDecode 49156 49156 49156 49156 = false ∧ ldFold 49157 = -49155 := by decide +kernel

theorem test_zerop : coeffs (after (exec (.zerop 3) (idle.setSlot 3 (short [1, 2])))) 3 [0, 1] = [0, 0] := by decide +kernel

/-- By hand from R262: two bytes cleared, their neighbours kept. -/
theorem test_zerob :
    bytes (after (exec (.zerob 0x21 2) (put idle 0x20 [1, 2, 3, 4]))) 0x20 4 = [1, 0, 0, 4] := by decide +kernel

/-- A range beyond BMEM changes nothing (95_test_vectors.md §2.8). -/
theorem test_zerob_refused :
    (after (exec (.zerob 0x1FF0 32) (put idle 0x1FF0 [1]))).resultCode = .invalidParameter ∧
      bytes (after (exec (.zerob 0x1FF0 32) (put idle 0x1FF0 [1]))) 0x1FF0 1 = [1] := by decide +kernel

/-! ### The host interface (95_test_vectors.md §2.10) -/

/-- One bus access in Idle with B[0..3] = 01 02 03 04. -/
def access (i : Input) : State := after (step (put (waiting [i]) 0 [1, 2, 3, 4]))

theorem test_reads :
    (access (.read 0x20000 .w32)).rdata = 0x04030201 ∧ (access (.read 0x20002 .w16)).rdata = 0x0403 ∧
      (access (.read 0x00000 .w32)).rdata = 0x524C5745 ∧ (access (.read 0x00024 .w32)).rdata = 0 := by decide +kernel

theorem test_access_errors :
    ([(0x20001#18, Width.w16), (0x0001C#18, .w32), (0x10000#18, .w8), (0x22000#18, .w8)].all fun p =>
      (access (.read p.1 p.2)).accerr && (access (.read p.1 p.2)).rdata == 0) = true := by decide +kernel

theorem test_pmem_write : coeffs (access (.write 0x10004 .w32 0xFFFFFFFF)) 0 [0, 1, 2] = [0, -1, 0] := by decide +kernel

/-- OP 0x3F: STATUS 6, RESULT 0x3F04, FIRSTERR 0x80000004, `irq` 1, at once. -/
theorem test_issue_refused :
    let t := after (step { waiting [.write 0x00020 .w32 5] with cmd0 := 0x3F })
    statusWord t = 6 ∧ resultWord t = 0x00003F04 ∧ firstErrWord t = 0x80000004 ∧ t.irq = true := by decide +kernel

/-- `irq` is 1 with DONE and IRQEN; clearing DONE by W1C, or IRQEN, takes it to 0 (R63). -/
theorem test_irq :
    let s (i : Input) : State := { waiting [i] with irqen := true, done := true }
    (s .clock).irq = true ∧ (after (step (s (.write 0x00024 .w32 2)))).irq = false ∧
      (after (step (s (.write 0x00020 .w32 0)))).irq = false ∧
      (after (step (s (.write 0x00020 .w32 5)))).irq = false := by decide +kernel

/-- NOP: issued it executes, BUSY = 1; its execution leaves STATUS 2. -/
theorem test_issue_nop :
    let t := after (step (waiting [.write 0x00020 .w32 5]))
    statusWord t = 1 ∧ statusWord (after (step t)) = 2 ∧ (after (step t)).irq = true := by decide +kernel

/-- A command placed by withFetchWord is the next step (ZEROP p3, its opcode left in RESULT). -/
theorem test_withFetchWord : resultWord (after (step (State.reset.withFetchWord 64 0x328))) = 0x00002800 := by
  decide +kernel

/-! ### Witnesses: for every obligation with hypotheses, a state and operands that meet them -/

theorem witness_EncodeOfDecodeIsTheWord : decode 0x0000000000000108#64 = .instr (.nttf 1 0) := by decide +kernel

/-- A word for each clause: OP 0x3F, RES0 = 3, RES1 = 8, a blank field, a command. -/
theorem witness_EveryWordIsACommandOrRefused :
    (0xFFFFFFFFFFFFFFFF#64).toNat % 64 ∉ assigned ∧
      ((0x00000000000000C1#64).toNat % 64 ∈ assigned ∧ (0x00000000000000C1#64).toNat / 64 % 4 ≠ 0) ∧
      ((0x0000000000800001#64).toNat % 64 ∈ assigned ∧ (0x0000000000800001#64).toNat / 1048576 % 16 ≠ 0) ∧
      ((0x0001000000000029#64).toNat % 64 ∈ assigned ∧ (0x0001000000000029#64).toNat / 64 % 4 = 0 ∧
        (0x0001000000000029#64).toNat / 1048576 % 16 = 0) := by decide +kernel

/-- A CTRL write with START while BUSY. -/
theorem witness_IssueChecksThenExecutes_busy :
    let s : State := { running 0x408#64 with inputs := [.write 0x00020 .w32 1] }
    s.rstN = true ∧ s.phase ≠ .idle ∧ s.inputs = [.write 0x00020#18 .w32 1] ∧ (1#32).getLsbD 0 = true ∧
      (1#32).getLsbD 1 = false := by decide +kernel

/-- A CTRL write with START in Idle, for each case of the decode: unassigned, reserved, blank field, refused operand, command. -/
theorem witness_IssueChecksThenExecutes :
    let s (c : Word) : State := { waiting [.write 0x00020 .w32 1] with cmd0 := c }
    (∀ c, (s c).rstN = true ∧ (s c).phase = .idle ∧ (s c).inputs = [.write 0x00020#18 .w32 1]) ∧
      (1#32).getLsbD 0 = true ∧ (1#32).getLsbD 1 = false ∧
      decode (commandOf (s 0x3F).cmd0 (s 0x3F).cmd1) = .refused .unassignedOp ∧
      decode (commandOf (s 0xC1).cmd0 (s 0xC1).cmd1) = .refused .reservedBits ∧
      decode (commandOf (s 0x800).cmd0 (s 0x800).cmd1) = .refused .unusedField ∧
      decode (commandOf (s 0x404).cmd0 (s 0x404).cmd1) = .instr (.smul 4 0 0) ∧
      decode (commandOf (s 0x408).cmd0 (s 0x408).cmd1) = .instr (.nttf 4 0) := by
  refine ⟨fun c => ⟨rfl, rfl, rfl⟩, ?_⟩; decide +kernel

/-- A command in execution with no input, at a clock turn without a request, and with its request answered. -/
theorem witness_StepRunsTheDecodedCommand :
    ((running 0x408#64).rstN = true ∧ (running 0x408#64).phase = .exec 0x408#64 ∧
        decode 0x408#64 = .instr (.nttf 4 0) ∧ (running 0x408#64).inputs = []) ∧
      (let s : State := { running 0x408#64 with inputs := [.clock] };
        s.rstN = true ∧ s.phase = .exec 0x408#64 ∧ s.inputs = [.clock] ∧ s.request = none) ∧
      (let s : State := { running 0x310#64 with inputs := [.answer] };
        s.rstN = true ∧ s.phase = .exec 0x310#64 ∧ decode 0x310#64 = .instr (.gena 3 0) ∧ s.inputs = [.answer] ∧
          s.request.isSome = true) := by decide +kernel

theorem witness_RefusedOperandsChangeNothing : ¬(Instr.zerob 0x2001 0).WellFormed := by decide +kernel

theorem witness_ReductionsGiveTheCanonicalResidue :
    (Instr.corr 1 0, 0x03#6) ∈
      [(Instr.redonce 1 0, 0x01#6), (Instr.twored 1 0, 0x02#6), (Instr.corr 1 0, 0x03#6)] := by decide +kernel

/-- k at both ends of 1..255, and 0. -/
theorem witness_SmulWrapsTheSignedProduct : (1 : Imm8) ≠ 0 ∧ (255 : Imm8) ≠ 0 ∧ (0 : Imm8) = 0 := by decide +kernel

theorem witness_TransformsMultiplyNegacyclically : (2 : Slot) ≠ 1 ∧ (2 : Slot) ≠ 3 := by decide +kernel

/-- 12288 + 5 = 4 modulo q in every lane. -/
theorem witness_NttfIsLinear :
    let s := ((idle.setSlot 0 (poly fun _ => 12288)).setSlot 1 (poly fun _ => 5)).setSlot 2 (poly fun _ => 4)
    ∀ j, j < 1024 → (s.coeff 2 j).toInt % 12289 = ((s.coeff 0 j).toInt + (s.coeff 1 j).toInt) % 12289 := by
  intro s j hj
  rw [coeff_poly _ 2 _ hj, coeff_setSlot_ne _ _ _ (by decide), coeff_setSlot_ne _ _ _ (by decide), coeff_poly _ 0 _ hj,
    coeff_setSlot_ne _ _ _ (by decide), coeff_poly _ 1 _ hj]
  decide

/-- The same sums for NTTI. -/
theorem witness_NttiIsLinear :
    let s := ((idle.setSlot 0 (poly fun _ => 12288)).setSlot 1 (poly fun _ => 5)).setSlot 2 (poly fun _ => 4)
    ∀ i, i < 1024 → (s.coeff 2 i).toInt % 12289 = ((s.coeff 0 i).toInt + (s.coeff 1 i).toInt) % 12289 :=
  witness_NttfIsLinear

/-- The last seed that lies in BMEM; and the seed that does not. -/
theorem witness_seed :
    (0x1FE0 : Offset).toNat + 32 ≤ 8192 ∧ 8192 < (0x1FE1 : Offset).toNat + 32 := by decide +kernel

theorem witness_GenaTakesTheWordsOrFails :
    (0x1FE0 : Offset).toNat + 32 ≤ 8192 ∧ 8192 < (0x1FE1 : Offset).toNat + 32 := witness_seed
theorem witness_SampleCountsStreamBits :
    (0x1FE0 : Offset).toNat + 32 ≤ 8192 ∧ 8192 < (0x1FE1 : Offset).toNat + 32 := witness_seed
theorem witness_SampleStaysWithinTwelve : (0x1FE0 : Offset).toNat + 32 ≤ 8192 := witness_seed.1
theorem witness_HelprecComputesTheHints :
    (0x1FE0 : Offset).toNat + 32 ≤ 8192 ∧ 8192 < (0x1FE1 : Offset).toNat + 32 := witness_seed
theorem witness_HelprecHintsAreBelowFour : (0x1FE0 : Offset).toNat + 32 ≤ 8192 := witness_seed.1
theorem witness_RecWritesTheDecodedKey :
    (0x1FE0 : Offset).toNat + 32 ≤ 8192 ∧ 8192 < (0x1FE1 : Offset).toNat + 32 := witness_seed

/-- The same 32 seed bytes at two places of two states. -/
theorem witness_SampleDependsOnSeedAndNonceOnly :
    let s := put idle 0x10 [1, 2, 3]
    let s' := put idle 0x1FE0 [1, 2, 3]
    (0x10 : Offset).toNat + 32 ≤ 8192 ∧ (0x1FE0 : Offset).toNat + 32 ≤ 8192 ∧
      ∀ j, j < 32 → s.byteAt ((0x10 : Offset).toNat + j) = s'.byteAt ((0x1FE0 : Offset).toNat + j) := by decide +kernel

theorem witness_Enc14LaysOutTheLowBits :
    (0x1900 : Offset).toNat + 1792 ≤ 8192 ∧ 8192 < (0x1901 : Offset).toNat + 1792 := by decide +kernel
theorem witness_Dec14ReadsFourteenBits :
    (0x1900 : Offset).toNat + 1792 ≤ 8192 ∧ 8192 < (0x1901 : Offset).toNat + 1792 := by decide +kernel
theorem witness_Enc14UndoesDec14 : (0x1900 : Offset).toNat + 1792 ≤ 8192 := by decide +kernel
theorem witness_EncrAndDecrPackTwoBits :
    (0x1F00 : Offset).toNat + 256 ≤ 8192 ∧ 8192 < (0x1F01 : Offset).toNat + 256 := by decide +kernel

theorem witness_EncaWritesPackedPolynomialThenSeed :
    (0x18E0 : Offset).toNat + 1824 ≤ 8192 ∧ (0x1FE0 : Offset).toNat + 32 ≤ 8192 ∧
      8192 < (0x18E1 : Offset).toNat + 1824 ∧ 8192 < (0x1FE1 : Offset).toNat + 32 := by decide +kernel

theorem witness_DecaReadsPolynomialAndSeed :
    (0x18E0 : Offset).toNat + 1824 ≤ 8192 ∧ (0x1FE0 : Offset).toNat + 32 ≤ 8192 ∧
      8192 < (0x18E1 : Offset).toNat + 1824 ∧ 8192 < (0x1FE1 : Offset).toNat + 32 := by decide +kernel

theorem witness_EncbWritesPackedPolynomialThenHints :
    (0x1800 : Offset).toNat + 2048 ≤ 8192 ∧ 8192 < (0x1801 : Offset).toNat + 2048 := by decide +kernel

/-- Two slots, one slot twice, and a range beyond BMEM. -/
theorem witness_DecbReadsPolynomialAndHints :
    (0x1800 : Offset).toNat + 2048 ≤ 8192 ∧ (1 : Slot) ≠ 2 ∧ (1 : Slot) = 1 ∧
      8192 < (0x1801 : Offset).toNat + 2048 := by decide +kernel

/-- Every coefficient 16383. -/
theorem witness_Dec14UndoesEnc14 :
    (0x1900 : Offset).toNat + 1792 ≤ 8192 ∧
      ∀ i, i < 1024 → ((idle.setSlot 0 (poly fun _ => 16383)).coeff 0 i).toNat < 16384 :=
  ⟨by decide, fun i hi => by rw [coeff_poly _ 0 _ hi]; decide⟩

/-- Every coefficient of u 16383, every hint 3. -/
theorem witness_MessagesRoundTrip :
    (0x18E0 : Offset).toNat + 1824 ≤ 8192 ∧ (0x1FE0 : Offset).toNat + 32 ≤ 8192 ∧
      (0x1800 : Offset).toNat + 2048 ≤ 8192 ∧ (3 : Slot) ≠ 4 ∧
      (let s := (idle.setSlot 0 (poly fun _ => 16383)).setSlot 1 (poly fun _ => 3);
        ∀ i, i < 1024 → (s.coeff 0 i).toNat < 16384 ∧ (s.coeff 1 i).toNat < 4) := by
  refine ⟨by decide, by decide, by decide, by decide, fun i hi => ⟨?_, ?_⟩⟩
  · rw [coeff_setSlot_ne _ _ _ (by decide), coeff_poly _ 0 _ hi]; decide
  · rw [coeff_poly _ 1 _ hi]; decide

/-- All of BMEM, length 0 at its end, and one byte too many. -/
theorem witness_ZerobClearsTheRange :
    (0 : Offset).toNat + (8192 : Offset).toNat ≤ 8192 ∧ (8192 : Offset).toNat + (0 : Offset).toNat ≤ 8192 ∧
      8192 < (1 : Offset).toNat + (8192 : Offset).toNat := by decide +kernel

theorem witness_ConstantRegistersReadTheirValues :
    let s := waiting [.read 0x00018 .w32]
    let s' := waiting [.write 0x00000 .w32 1]
    s.rstN = true ∧ s.inputs = [.read 0x00018 .w32] ∧ s'.rstN = true ∧ s'.inputs = [.write 0x00000 .w32 1] := by
  decide +kernel

/-- Each of the six addresses; FIRSTERR without and with a code. -/
theorem witness_ControlRegistersReadTheirFields :
    (∀ a ∈ [0x00020#18, 0x00024#18, 0x00028#18, 0x0002C#18, 0x00030#18, 0x00034#18],
      (waiting [.read a .w32]).rstN = true ∧ (waiting [.read a .w32]).inputs = [.read a .w32]) ∧
      idle.firstErr = none ∧ ({ idle with firstErr := some .tooManyIterations } : State).firstErr = some .tooManyIterations :=
  ⟨fun _ _ => ⟨rfl, rfl⟩, rfl, rfl⟩

/-- The first unmapped CSR address, a byte past BMEM, a misaligned halfword, a byte in PMEM; the last word of BMEM is mapped. -/
theorem witness_UnmappedAccessesAreAccessErrors :
    (∀ p ∈ [(0x0001C#18, Width.w32), (0x22000#18, .w8), (0x20001#18, .w16), (0x17FFC#18, .w8), (0x18000#18, .w32)],
      ¬Mapped p.1.toNat p.2) ∧
      Mapped (0x21FFC#18).toNat .w32 ∧ Mapped (0x17FFC#18).toNat .w32 ∧ Mapped (0x00034#18).toNat .w32 ∧
      (∀ a w, (waiting [.read a w]).inputs = [.read a w] ∧ (waiting [.write a w 7]).inputs = [.write a w 7]) ∧
      idle.rstN = true ∧ idle.phase = .idle := by
  refine ⟨?_, ?_, ?_, ?_, fun _ _ => ⟨rfl, rfl⟩, rfl, rfl⟩ <;> simp [Mapped, csrAddresses, bytesOf]

/-- A block that waits for the collaborator, and each access. -/
theorem witness_BusyPhaseAccessesAreLost :
    (running 0x310#64).rstN = true ∧ (running 0x310#64).phase ≠ .idle ∧ 0x10000 ≤ (0x10000#18).toNat ∧
      (∀ i, ({ running 0x310#64 with inputs := [i] } : State).inputs = [i]) ∧
      (1#32).getLsbD 0 = true ∧ (1#32).getLsbD 1 = false ∧ (0x00024#18).toNat ∈ csrAddresses := by
  refine ⟨rfl, ?_, ?_, fun _ => rfl, ?_⟩ <;> decide +kernel

/-- The last coefficient of the last slot. -/
theorem witness_PmemWindowReadsAndWrites :
    BitVec.ofNat 18 (0x10000 + 0x1000 * (7 : Slot).toNat + 4 * 1023) = 0x17FFC ∧ idle.rstN = true ∧ idle.phase = .idle ∧
      (waiting [.read 0x17FFC .w32]).inputs = [.read 0x17FFC .w32] ∧
      (waiting [.write 0x17FFC .w32 1]).inputs = [.write 0x17FFC .w32 1] := by decide +kernel

/-- The last aligned place of each width. -/
theorem witness_BmemWindowIsLittleEndian :
    (∀ p ∈ [(8191, Width.w8), (8190, .w16), (8188, .w32)], p.1 % bytesOf p.2 = 0 ∧ p.1 + bytesOf p.2 ≤ 8192) ∧
      (∀ a w, (waiting [.read a w]).inputs = [.read a w] ∧ (waiting [.write a w 1]).inputs = [.write a w 1]) ∧
      idle.rstN = true ∧ idle.phase = .idle := by
  refine ⟨?_, fun _ _ => ⟨rfl, rfl⟩, rfl, rfl⟩
  simp [bytesOf]

theorem witness_CsrWritesActAsTheirFieldsSay :
    (∀ a, (waiting [.write a .w32 4]).inputs = [.write a .w32 4] ∧ (waiting [.write a .w32 4]).phase = .idle) ∧
      idle.rstN = true ∧ (0x00028#18).toNat ∈ [0x00, 0x04, 0x08, 0x0C, 0x10, 0x14, 0x18, 0x28] ∧
      (4#32).getLsbD 0 = false ∧ (4#32).getLsbD 1 = false ∧ (4#32).getLsbD 2 = true := by
  refine ⟨fun _ => ⟨rfl, rfl⟩, rfl, ?_⟩; decide +kernel

/-- A STATUS write that clears DONE, and a CTRL write that clears IRQEN, where `irq` is 1. -/
theorem witness_CsrWritesActAsTheirFieldsSay_irq :
    let s (a : BitVec 18) (v : Word) : State := { waiting [.write a .w32 v] with irqen := true, done := true }
    (s 0x00024 2).irq = true ∧ (s 0x00024 2).inputs = [.write 0x00024 .w32 2] ∧ (2#32).getLsbD 1 = true ∧
      (s 0x00020 0).irq = true ∧ (s 0x00020 0).inputs = [.write 0x00020 .w32 0] ∧ (0#32).getLsbD 0 = false ∧
      (0#32).getLsbD 1 = false ∧ (0#32).getLsbD 2 = false := by decide +kernel

/-- A soft reset of a block that waits for the collaborator, START and IRQEN set in the same write. -/
theorem witness_SoftResetAbandonsEverything :
    let s : State := { running 0x310#64 with inputs := [.write 0x00020 .w32 7] }
    s.rstN = true ∧ s.request.isSome = true ∧ s.inputs = [.write 0x00020#18 .w32 7] ∧ (7#32).getLsbD 1 = true ∧
      State.reset.request = none ∧ ({ State.reset with inputs := [.lateAnswer] } : State).inputs = [.lateAnswer] ∧
      ({ State.reset with inputs := [.answer] } : State).inputs = [.answer] := by
  decide +kernel

theorem witness_HardResetHoldsTheBlock :
    (waiting [.rstFall]).inputs = [.rstFall] ∧ (waiting [.rstRise]).inputs = [.rstRise] ∧
      (let s : State := { State.reset with rstN := false, inputs := [.write 0x10000 .w32 1] };
        s.rstN = false ∧ s.inputs = [.write 0x10000 .w32 1] ∧ Input.write 0x10000 .w32 1 ≠ .rstFall ∧
          Input.write 0x10000 .w32 1 ≠ .rstRise) := by decide +kernel

/-- A state of the invariant in which `rst_n` is 0 and about to rise. -/
theorem witness_HardResetHoldsTheBlock_rise :
    let s : State := { State.reset with rstN := false, inputs := [.rstRise] }
    s.Inv ∧ s.rstN = false ∧ s.inputs = [.rstRise] :=
  ⟨⟨⟨List.Pairwise.nil, by simp [State.reset]⟩, by simp [State.reset], ⟨rfl, rfl, rfl, rfl, rfl, rfl, rfl, rfl⟩,
    fun _ => ⟨rfl, rfl, rfl⟩⟩, rfl, rfl⟩

/-- The state after reset, with no input and with a clock turn. -/
theorem witness_ClearingZeroesTheMemories :
    State.reset.rstN = true ∧ State.reset.phase = .clearing ∧ State.reset.request = none ∧ State.reset.inputs = [] ∧
      ({ State.reset with inputs := [.clock] } : State).inputs = [.clock] := by decide +kernel

/-- Two blocks with different memories, one of them executing. -/
theorem witness_ResetForgetsEverySecret :
    let i : List Input := [.write 0x00020 .w32 2, .clock]
    let s₁ : State := { running 0x310#64 with inputs := i }
    let s₂ : State := put (waiting i) 0 [1]
    (∀ s ∈ [s₁, s₂], s.rstN = true ∧ s.inputs = i) ∧ s₁.rdata = s₂.rdata ∧ (2#32).getLsbD 1 = true ∧
      s₁.byteAt 0 ≠ s₂.byteAt 0 := by decide +kernel

/-- Two blocks with different memories, one of them executing and one with `rst_n` already 0. -/
theorem witness_ResetForgetsEverySecret_hard :
    let i : List Input := [.rstFall, .rstRise, .clock]
    let s₁ : State := { running 0x310#64 with inputs := i }
    let s₂ : State := { put (waiting i) 0 [1] with rstN := false }
    (∀ s ∈ [s₁, s₂], s.inputs = i) ∧ s₁.rdata = s₂.rdata ∧ s₁.byteAt 0 ≠ s₂.byteAt 0 := by decide +kernel

/-- The state after reset meets the invariant and answers a next state. -/
theorem witness_EveryStepKeepsTheInvariant :
    State.reset.Inv ∧ step State.reset = .next State.reset.finishClearing :=
  ⟨⟨⟨List.Pairwise.nil, by simp [State.reset]⟩, by decide, ⟨rfl, rfl, rfl, rfl, rfl, rfl, rfl, rfl⟩,
    fun h => by cases h⟩, rfl⟩

/-- A command issued: the step ends in Exec. -/
theorem witness_MemoriesAreKeptWhileBusy :
    step (waiting [.write 0x00020 .w32 1]) = .next (after (step (waiting [.write 0x00020 .w32 1]))) ∧
      (after (step (waiting [.write 0x00020 .w32 1]))).phase ≠ .idle := ⟨rfl, by decide +kernel⟩

/-- Two blocks in the same wait with different secrets in BMEM. -/
theorem witness_ControlDoesNotDependOnData :
    let s₁ : State := { running 0x310#64 with inputs := [.clock] }
    let s₂ : State := put { running 0x310#64 with inputs := [.clock] } 0 [1]
    SameControl s₁ s₂ ∧ step s₁ = .next { s₁ with inputs := [] } ∧ step s₂ = .next { s₂ with inputs := [] } ∧
      s₁.byteAt 0 ≠ s₂.byteAt 0 :=
  ⟨⟨rfl, rfl, rfl, rfl, rfl, rfl, rfl, rfl⟩, rfl, rfl, by decide +kernel⟩

theorem witness_TheBlockWaitsForTheCollaborator :
    ({ running 0x310#64 with inputs := [.clock] } : State).request.isSome = true ∧
      ({ running 0x310#64 with inputs := [.clock] } : State).inputs = [.clock] ∧
      (waiting [.lateAnswer]).inputs = [.lateAnswer] := by decide +kernel

/-- A command that makes a request. -/
theorem witness_RequestsCarryTheSeedAndTheNonce :
    (encode (.sample 1 0 0)).extractLsb' 0 6 ∈ [0x10#6, 0x11#6, 0x20#6] := by decide +kernel

/-- Where PointwiseLaws asks something of the operands: a zero third operand, and e = b + c modulo q. -/
theorem witness_PointwiseLaws :
    let s := (idle.setSlot 1 (short [12288])).setSlot 4 (short [12288])
    s.coeff 2 0 = 0 ∧ (s.coeff 4 0).toInt = ((s.coeff 1 0).toInt + (s.coeff 2 0).toInt) % 12289 := by decide +kernel

end Sys2Proof.Tests
end

/-! # Proofs of the statements about the state (10_state.md)

Part 1: the invariant of the block (R45–R49, R60; 60_exceptions.md R272; 70_reset_and_hazards.md R310). -/

namespace Sys2Proof.Machine

/-! ### What the request and the operand copies of a command depend on -/

theorem memRead_congr {s t : State} (h : t.bmem = s.bmem) (off n : Nat) : t.memRead off n = s.memRead off n := by
  unfold State.memRead; simp only [byteAt_congr h]

/-- The request of a command depends on BMEM only. -/
theorem requestOf_congr {s t : State} (h : t.bmem = s.bmem) (i : Instr) : requestOf i t = requestOf i s := by
  cases i <;> simp only [requestOf, State.seedAt, memRead_congr h]

/-- The operand copies of a command depend on PMEM and BMEM only. -/
theorem operandCopies_congr {s t : State} (hp : t.pmem = s.pmem) (hb : t.bmem = s.bmem) (i : Instr) :
    operandCopies i t = operandCopies i s := by
  have hslot : t.slot = s.slot := funext (slot_congr hp)
  simp only [operandCopies, hslot, memRead_congr hb]

/-! ### The phase's facts, phase by phase -/

theorem phaseInv_idle_iff {s : State} (h : s.phase = .idle) :
    s.PhaseInv ↔ s.request = none ∧ s.scratch = Scratch.zero := by
  simp only [State.PhaseInv, h]

theorem phaseInv_clearing_iff {s : State} (h : s.phase = .clearing) :
    s.PhaseInv ↔
      s.request = none ∧ s.done = false ∧ s.err = false ∧ s.resultCode = .success ∧ s.resultOp = 0#6 ∧
        s.firstErr = none ∧ s.cmd0 = 0#32 ∧ s.cmd1 = 0#32 := by
  simp only [State.PhaseInv, h]

theorem phaseInv_exec_iff {s : State} {w : Command} (h : s.phase = .exec w) :
    s.PhaseInv ↔
      w = commandOf s.cmd0 s.cmd1 ∧ s.done = false ∧ s.err = false ∧
        ∃ i, decode w = .instr i ∧ i.WellFormed ∧ s.request = requestOf i s ∧ s.scratch = operandCopies i s := by
  simp only [State.PhaseInv, h]

/-- The invariant of an idle block whose `rst_n` is 1. -/
theorem inv_idle_iff {s : State} (hp : s.phase = .idle) (hr : s.rstN = true) :
    s.Inv ↔ Memory.wf s.bmem ∧ s.firstErr ≠ some .success ∧ s.request = none ∧ s.scratch = Scratch.zero := by
  simp only [State.Inv, phaseInv_idle_iff hp, hr, Bool.true_eq_false, false_implies, and_true]

/-- `inv_idle_iff`, read towards the invariant. -/
theorem inv_of_idle {s : State} (hp : s.phase = .idle) (hr : s.rstN = true)
    (h : Memory.wf s.bmem ∧ s.firstErr ≠ some .success ∧ s.request = none ∧ s.scratch = Scratch.zero) : s.Inv :=
  (inv_idle_iff hp hr).2 h

/-! ### Turns that keep what the invariant speaks of -/

/-- `t` holds what `s` holds wherever the phase's facts look, but that DONE, ERR and FIRSTERR may have been cleared. -/
structure State.KeepsFacts (s t : State) : Prop where
  pmem : t.pmem = s.pmem
  bmem : t.bmem = s.bmem
  phase : t.phase = s.phase
  request : t.request = s.request
  scratch : t.scratch = s.scratch
  cmd0 : t.cmd0 = s.cmd0
  cmd1 : t.cmd1 = s.cmd1
  resultCode : t.resultCode = s.resultCode
  resultOp : t.resultOp = s.resultOp
  done : s.done = false → t.done = false
  err : s.err = false → t.err = false
  firstErr : t.firstErr = s.firstErr ∨ t.firstErr = none

/-- The fields the phase's facts do not speak of may change. -/
theorem keepsFacts_busFields (s : State) (irqen accerr : Bool) (rdata : Word) (rstN : Bool) (inputs : List Input) :
    s.KeepsFacts { s with irqen := irqen, accerr := accerr, rdata := rdata, rstN := rstN, inputs := inputs } :=
  ⟨rfl, rfl, rfl, rfl, rfl, rfl, rfl, rfl, rfl, id, id, .inl rfl⟩

theorem keepsFacts_writeStatus (s : State) (v : Word) : s.KeepsFacts (s.writeStatus v) :=
  ⟨rfl, rfl, rfl, rfl, rfl, rfl, rfl, rfl, rfl, fun h => by simp [h], fun h => by simp [h], .inl rfl⟩

theorem keepsFacts_clearFirstErr (s : State) : s.KeepsFacts { s with firstErr := none } :=
  ⟨rfl, rfl, rfl, rfl, rfl, rfl, rfl, rfl, rfl, id, id, .inr rfl⟩

theorem State.KeepsFacts.phaseInv {s t : State} (k : s.KeepsFacts t) (h : s.PhaseInv) : t.PhaseInv := by
  cases hp : s.phase with
  | idle =>
    rw [phaseInv_idle_iff hp] at h
    rwa [phaseInv_idle_iff (k.phase.trans hp), k.request, k.scratch]
  | clearing =>
    obtain ⟨hreq, hdone, herr, hcode, hop, hfirst, h0, h1⟩ := (phaseInv_clearing_iff hp).1 h
    refine (phaseInv_clearing_iff (k.phase.trans hp)).2
      ⟨k.request.trans hreq, k.done hdone, k.err herr, k.resultCode.trans hcode, k.resultOp.trans hop, ?_,
        k.cmd0.trans h0, k.cmd1.trans h1⟩
    exact k.firstErr.elim (·.trans hfirst) id
  | exec w =>
    obtain ⟨hw, hdone, herr, i, hdec, hok, hreq, hscr⟩ := (phaseInv_exec_iff hp).1 h
    refine (phaseInv_exec_iff (k.phase.trans hp)).2 ⟨?_, k.done hdone, k.err herr, i, hdec, hok, ?_, ?_⟩
    · rw [k.cmd0, k.cmd1, hw]
    · rw [k.request, hreq, requestOf_congr k.bmem]
    · rw [k.scratch, hscr, operandCopies_congr k.pmem k.bmem]

/-- A turn that keeps the facts keeps the invariant, where it does not break the CSR values of a held reset. -/
theorem State.KeepsFacts.inv {s t : State} (k : s.KeepsFacts t) (h : s.Inv)
    (hheld : t.rstN = false → s.rstN = false ∧ t.irqen = s.irqen ∧ t.accerr = s.accerr) : t.Inv := by
  obtain ⟨hwf, hfirst, hphase, hrst⟩ := h
  refine ⟨k.bmem ▸ hwf, ?_, k.phaseInv hphase, fun ht => ?_⟩
  · rcases k.firstErr with e | e <;> rw [e]
    · exact hfirst
    · exact nofun
  · obtain ⟨hs, hirqen, haccerr⟩ := hheld ht
    rw [k.phase, hirqen, haccerr]
    exact hrst hs

/-- With `rst_n` = 1 a turn that keeps the facts keeps the invariant. -/
theorem State.KeepsFacts.inv_of_rstN {s t : State} (k : s.KeepsFacts t) (h : s.Inv) (hr : t.rstN = true) : t.Inv :=
  k.inv h fun ht => absurd (hr.symm.trans ht) nofun

/-- The invariant does not speak of the inputs. -/
theorem inv_inputs {s : State} (h : s.Inv) (rest : List Input) : ({ s with inputs := rest } : State).Inv :=
  (keepsFacts_busFields s _ _ _ _ rest).inv h fun hr => ⟨hr, rfl, rfl⟩

/-! ### Reset, completion and issue establish the invariant -/

/-- Reset, with `rst_n` left at either level. -/
theorem inv_enterReset {s : State} (h : Memory.wf s.bmem) (b : Bool) :
    ({ s.enterReset with rstN := b } : State).Inv :=
  ⟨h, nofun, ⟨rfl, rfl, rfl, rfl, rfl, rfl, rfl, rfl⟩, fun _ => ⟨rfl, rfl, rfl⟩⟩

theorem inv_finishClearing {s : State} (h : s.Inv) (hp : s.phase = .clearing) (hr : s.rstN = true) :
    s.finishClearing.Inv := by
  obtain ⟨-, hfirst, hphase, -⟩ := h
  obtain ⟨hreq, -⟩ := (phaseInv_clearing_iff hp).1 hphase
  exact inv_of_idle rfl hr ⟨Memory.wf_nil, hfirst, hreq, rfl⟩

/-- A completion record closes every state whose BMEM is canonical and whose FIRSTERR holds no Success. -/
theorem inv_complete {s : State} (hwf : Memory.wf s.bmem) (hfirst : s.firstErr ≠ some .success) (hr : s.rstN = true)
    (op : BitVec 6) (c : Status) : (s.complete op c).Inv :=
  inv_of_idle rfl hr ⟨hwf, recordFirst_ne_success hfirst c, rfl, rfl⟩

/-- A word that has passed its checks enters execution with its own request and its operands copied. -/
theorem inv_enterExec {s : State} {i : Instr} (hwf : Memory.wf s.bmem) (hfirst : s.firstErr ≠ some .success)
    (hr : s.rstN = true) (hdone : s.done = false) (herr : s.err = false)
    (hdec : decode (commandOf s.cmd0 s.cmd1) = .instr i) (hok : operandError i = none) :
    (s.enterExec (commandOf s.cmd0 s.cmd1) i).Inv := by
  refine ⟨hwf, hfirst, (phaseInv_exec_iff rfl).2 ⟨rfl, hdone, herr, i, hdec, hok, ?_, ?_⟩, ?_⟩
  · rw [enterExec_request, requestOf_congr (enterExec_bmem s _ i)]
  · rw [enterExec_scratch, operandCopies_congr (enterExec_pmem s _ i) (enterExec_bmem s _ i)]
  · intro h; exact absurd (hr.symm.trans h) nofun

theorem inv_issue {s : State} (hwf : Memory.wf s.bmem) (hfirst : s.firstErr ≠ some .success) (hr : s.rstN = true) :
    s.issue.Inv := by
  rcases issue_cases s with ⟨c, -, e⟩ | ⟨i, hdec, hok, e⟩ <;> rw [e]
  · exact inv_complete (s := { s with done := false, err := false }) hwf hfirst hr _ _
  · exact inv_enterExec (s := { s with done := false, err := false }) hwf hfirst hr rfl rfl hdec hok

/-! ### Every turn keeps the invariant -/

theorem inv_writeCtrl {s : State} (h : s.Inv) (hr : s.rstN = true) (v : Word) : (s.writeCtrl v).Inv := by
  have ⟨hwf, hfirst, _, _⟩ := h
  rcases writeCtrl_cases s v with ⟨-, e⟩ | ⟨-, -, e⟩ | ⟨-, -, -, e⟩ | ⟨-, -, -, e⟩ <;> rw [e]
  · exact inv_enterReset hwf s.rstN
  · exact (keepsFacts_busFields s _ _ _ _ _).inv_of_rstN h hr
  · exact (keepsFacts_busFields s _ _ _ _ _).inv_of_rstN h hr
  · exact inv_issue (s := { s with irqen := v.getLsbD 2 }) hwf hfirst hr

theorem inv_busRead {s : State} (h : s.Inv) (hr : s.rstN = true) (addr : BitVec 18) (w : Width) :
    (s.busRead addr w).Inv := by
  rw [busRead_eq]
  exact (keepsFacts_busFields s _ _ _ _ _).inv_of_rstN h hr

theorem inv_busWrite {s : State} (h : s.Inv) (hr : s.rstN = true) (addr : BitVec 18) (w : Width) (v : Word) :
    (s.busWrite addr w v).Inv := by
  rcases busWrite_cases s addr w v with e | e | e | e | e | ⟨hp, hidle⟩
  · rw [e]; exact (keepsFacts_busFields s _ _ _ _ _).inv_of_rstN h hr
  · rw [e]; exact h
  · rw [e]; exact inv_writeCtrl h hr v
  · rw [e]; exact (keepsFacts_writeStatus s v).inv_of_rstN h hr
  · rw [e]; exact (keepsFacts_clearFirstErr s).inv_of_rstN h hr
  · obtain ⟨hwf, hrest⟩ := (inv_idle_iff hp hr).1 h
    rcases hidle with e | e | ⟨d, i, e⟩ | ⟨off, hoff, e⟩ <;> rw [e]
    · exact inv_of_idle hp hr ⟨hwf, hrest⟩
    · exact inv_of_idle hp hr ⟨hwf, hrest⟩
    · exact inv_of_idle hp hr ⟨hwf, hrest⟩
    · exact inv_of_idle hp hr ⟨wf_memWrite _ hwf hoff, hrest⟩

theorem inv_runCommand {s t : State} {w : Command} (h : s.Inv) (hr : s.rstN = true) (ht : runCommand w s = .next t) :
    t.Inv := by
  obtain ⟨hwf, hfirst, -, -⟩ := h
  cases hdec : decode w with
  | instr i =>
    obtain ⟨p, m, c, e, hm⟩ := exec_shape i s
    rw [runCommand_instr s hdec, e] at ht
    cases ht
    exact inv_complete (s := s.withMemories p m) (hm hwf) hfirst hr _ c
  | refused e =>
    rw [runCommand_refused s hdec] at ht
    cases ht
    exact inv_complete hwf hfirst hr _ _

theorem inv_sequencerTurn {s t : State} (h : s.Inv) (ht : sequencerTurn s = .next t) : t.Inv := by
  rcases sequencerTurn_cases s ht with ⟨rfl, -⟩ | ⟨hr, hp, rfl⟩ | ⟨w, hr, -, hrun⟩
  · exact h
  · exact inv_finishClearing h hp hr
  · exact inv_runCommand h hr hrun

theorem inv_inputTurn {s t : State} {i : Input} (h : s.Inv) (ht : inputTurn i s = .next t) : t.Inv := by
  rcases inputTurn_cases s ht with rfl | hseq | ⟨addr, w, -, hread⟩ | ⟨addr, w, v, -, hr, rfl⟩ | ⟨-, rfl⟩ | ⟨-, rfl⟩
  · exact h
  · exact inv_sequencerTurn h hseq
  · rcases hread with ⟨hr, rfl⟩ | ⟨-, rfl⟩
    · exact inv_busRead h hr addr w
    · exact (keepsFacts_busFields s _ _ _ _ _).inv h fun hr => ⟨hr, rfl, rfl⟩
  · exact inv_busWrite h hr addr w v
  · exact inv_enterReset h.1 false
  · exact (keepsFacts_busFields s _ _ _ true _).inv_of_rstN h rfl

/-- Settles O55: every turn, the sequencer's or an input's, keeps the invariant. -/
theorem everyStepKeepsTheInvariant : Obligations.EveryStepKeepsTheInvariant := by
  intro s t h ht
  cases hin : s.inputs with
  | nil =>
    rw [step_nil s hin] at ht
    exact inv_sequencerTurn h ht
  | cons i rest =>
    rw [step_cons s hin] at ht
    exact inv_inputTurn (inv_inputs h rest) ht

end Sys2Proof.Machine

/-! Part 2: the turns of the host bus on the control and status registers (10_state.md R32–R46, R51, R63), and the PMEM
window (R32, R40). -/

namespace Sys2Proof.Machine

/-! ### One bus access, from the step down to what it reaches -/

theorem step_read {s : State} {addr : BitVec 18} {w : Width} {rest : List Input} (hr : s.rstN = true)
    (hin : s.inputs = .read addr w :: rest) : step s = .next (({ s with inputs := rest } : State).busRead addr w) := by
  rw [step_cons s hin]; simp only [inputTurn, hr, if_true]

theorem step_write {s : State} {addr : BitVec 18} {w : Width} {v : Word} {rest : List Input} (hr : s.rstN = true)
    (hin : s.inputs = .write addr w v :: rest) :
    step s = .next (({ s with inputs := rest } : State).busWrite addr w v) := by
  rw [step_cons s hin]; simp only [inputTurn, hr, if_true]

/-- A read the register map and the phase allow changes the read data only. -/
theorem busRead_of_readValue {s : State} {addr : BitVec 18} {w : Width} {x : Word} (h : readValue s addr w = some x) :
    s.busRead addr w = { s with rdata := x } := by
  rw [busRead_eq, h]; simp

theorem busy_of_idle {s : State} (h : s.phase = .idle) : s.busy = false := by simp [State.busy, h]

/-! ### Control and status registers -/

theorem csrAt_lt {a : Nat} {r : Csr} (h : csrAt a = some r) : a < 0x10000 := by
  unfold csrAt at h
  split at h <;> simp at h ⊢

theorem target_csr {addr : BitVec 18} {r : Csr} (h : csrAt addr.toNat = some r) : target addr .w32 = some (.csr r) := by
  simp [target, csrAt_lt h, h]

theorem readValue_csr (s : State) {addr : BitVec 18} {r : Csr} (h : csrAt addr.toNat = some r) :
    readValue s addr .w32 = some (csrValue r s) := by
  simp only [readValue, target_csr h]

theorem busWrite_csr (s : State) {addr : BitVec 18} {r : Csr} (h : csrAt addr.toNat = some r) (v : Word) :
    s.busWrite addr .w32 v = (s.writeCsr r v).getD { s with accerr := true } := by
  simp only [State.busWrite, writeEffect, target_csr h]

/-- Reading a CSR, in every phase, changes the read data only. -/
theorem step_readCsr {s : State} {addr : BitVec 18} {rest : List Input} {r : Csr} (hr : s.rstN = true)
    (hin : s.inputs = .read addr .w32 :: rest) (h : csrAt addr.toNat = some r) :
    step s = .next { s with inputs := rest, rdata := csrValue r { s with inputs := rest } } := by
  rw [step_read hr hin, busRead_of_readValue (readValue_csr _ h)]

/-- A write to a CSR that the phase allows leaves what the register makes of it. -/
theorem step_writeCsr {s t : State} {addr : BitVec 18} {v : Word} {rest : List Input} {r : Csr} (hr : s.rstN = true)
    (hin : s.inputs = .write addr .w32 v :: rest) (h : csrAt addr.toNat = some r)
    (ht : ({ s with inputs := rest } : State).writeCsr r v = some t) : step s = .next t := by
  rw [step_write hr hin, busWrite_csr _ h, ht, Option.getD_some]

/-- The registers a host write does not change (R51). -/
abbrev Csr.ReadOnly (r : Csr) : Prop :=
  r ∈ [.id, .version, .paramN, .paramQ, .paramPsi, .paramSlots, .paramBmem, .result]

theorem writeCsr_readOnly (s : State) {r : Csr} (h : r.ReadOnly) (v : Word) : s.writeCsr r v = some s := by
  cases r <;> simp [Csr.ReadOnly] at h <;> rfl

theorem writeCsr_cmd0 {s : State} (h : s.phase = .idle) (v : Word) : s.writeCsr .cmd0 v = some { s with cmd0 := v } := by
  simp [State.writeCsr, busy_of_idle h]

theorem writeCsr_cmd1 {s : State} (h : s.phase = .idle) (v : Word) : s.writeCsr .cmd1 v = some { s with cmd1 := v } := by
  simp [State.writeCsr, busy_of_idle h]

/-- A CTRL write without START and SRST sets IRQEN and nothing else (R42). -/
theorem writeCtrl_irqen (s : State) {v : Word} (h0 : v.getLsbD 0 = false) (h1 : v.getLsbD 1 = false) :
    s.writeCtrl v = { s with irqen := v.getLsbD 2 } := by
  simp only [State.writeCtrl, h0, h1, Bool.false_eq_true, if_false]

/-- A STATUS write lowers `irq` exactly where it clears DONE (R43, R63). -/
theorem irq_writeStatus (s : State) (v : Word) : (s.writeStatus v).irq = (s.irq && !v.getLsbD 1) :=
  (Bool.and_assoc _ _ _).symm

/-- Every register at one of these addresses ignores writes. -/
theorem exists_readOnly_csrAt :
    ∀ a ∈ [0x00, 0x04, 0x08, 0x0C, 0x10, 0x14, 0x18, 0x28], ∃ r, csrAt a = some r ∧ r.ReadOnly := by
  simp only [List.forall_mem_cons]
  exact ⟨⟨.id, rfl, by decide⟩, ⟨.version, rfl, by decide⟩, ⟨.paramN, rfl, by decide⟩, ⟨.paramQ, rfl, by decide⟩,
    ⟨.paramPsi, rfl, by decide⟩, ⟨.paramSlots, rfl, by decide⟩, ⟨.paramBmem, rfl, by decide⟩,
    ⟨.result, rfl, by decide⟩, nofun⟩

/-- Settles O43: each of the seven addresses holds a read-only register whose value does not depend on the state. -/
theorem constantRegistersReadTheirValues : Obligations.ConstantRegistersReadTheirValues := by
  intro s rest p hp hr
  obtain ⟨r, hcsr, hro, hval⟩ :
      ∃ r, csrAt p.1.toNat = some r ∧ r.ReadOnly ∧ ∀ u : State, csrValue r u = p.2 := by
    revert p
    simp only [List.forall_mem_cons]
    exact ⟨⟨.id, rfl, by decide, fun _ => rfl⟩, ⟨.version, rfl, by decide, fun _ => rfl⟩,
      ⟨.paramN, rfl, by decide, fun _ => rfl⟩, ⟨.paramQ, rfl, by decide, fun _ => rfl⟩,
      ⟨.paramPsi, rfl, by decide, fun _ => rfl⟩, ⟨.paramSlots, rfl, by decide, fun _ => rfl⟩,
      ⟨.paramBmem, rfl, by decide, fun _ => rfl⟩, nofun⟩
  refine ⟨fun hin => ?_, fun v hin => step_writeCsr hr hin hcsr (writeCsr_readOnly _ hro v)⟩
  rw [step_readCsr hr hin hcsr, hval]

/-- Settles O49, register by register; what a write does to `irq` follows from what it does to DONE and IRQEN. -/
theorem csrWritesActAsTheirFieldsSay : Obligations.CsrWritesActAsTheirFieldsSay := by
  intro s addr v rest hr hin
  refine ⟨fun ha => ?_, ?_, ?_, ?_, ?_, ?_⟩
  · obtain ⟨r, hcsr, hro⟩ := exists_readOnly_csrAt _ ha
    exact step_writeCsr hr hin hcsr (writeCsr_readOnly _ hro v)
  · rintro rfl
    refine ⟨_, step_writeCsr hr hin (r := .status) rfl rfl, rfl, fun hd => ?_, fun hd => ?_⟩
    · rw [irq_writeStatus, hd, Bool.not_true, Bool.and_false]
    · rw [irq_writeStatus, hd, Bool.not_false, Bool.and_true]; rfl
  · rintro rfl
    exact step_writeCsr hr hin (r := .firstErr) rfl rfl
  · rintro rfl h0 h1
    refine ⟨_, step_writeCsr hr hin (r := .ctrl) rfl rfl, writeCtrl_irqen _ h0 h1, fun hi => ?_, fun hi => ?_⟩
    · exact irq_of_not_irqen (by rw [writeCtrl_irqen _ h0 h1, hi])
    · rw [writeCtrl_irqen _ h0 h1]; simp [State.irq, hi]
  · rintro rfl hp
    exact step_writeCsr hr hin (r := .cmd0) rfl (writeCsr_cmd0 (s := { s with inputs := rest }) hp v)
  · rintro rfl hp
    exact step_writeCsr hr hin (r := .cmd1) rfl (writeCsr_cmd1 (s := { s with inputs := rest }) hp v)

/-! ### The CSR words as numbers -/

/-- A concatenation as a number: the high part counts 2^m-fold. -/
theorem toNat_append_eq {n m : Nat} (x : BitVec n) (y : BitVec m) :
    (x ++ y).toNat = x.toNat * 2 ^ m + y.toNat := by
  rw [BitVec.toNat_append, Nat.shiftLeft_eq, Nat.mul_comm, Nat.two_pow_add_eq_or_of_lt y.isLt]

/-- The code of a status is its position in R270. -/
theorem codes_statusCode (c : Status) : Claims.codes[(statusCode c).toNat]? = some c := by cases c <;> rfl

theorem ctrlWord_toNat (s : State) : (ctrlWord s).toNat = 4 * s.irqen.toNat := by
  simp only [ctrlWord, toNat_append_eq, BitVec.toNat_ofBool, BitVec.toNat_ofNat]
  omega

theorem busy_toNat (s : State) : s.busy.toNat = if s.phase = .idle then 0 else 1 := by
  by_cases h : s.phase = .idle <;> simp [State.busy, h]

theorem statusWord_toNat (s : State) :
    (statusWord s).toNat =
      (if s.phase = .idle then 0 else 1) + 2 * s.done.toNat + 4 * s.err.toNat + 8 * s.accerr.toNat := by
  simp only [statusWord, toNat_append_eq, BitVec.toNat_ofBool, BitVec.toNat_ofNat, busy_toNat]
  omega

theorem resultWord_toNat (s : State) :
    (resultWord s).toNat = 256 * s.resultOp.toNat + (statusCode s.resultCode).toNat := by
  simp only [resultWord, toNat_append_eq, BitVec.toNat_ofNat]
  omega

theorem firstErrWord_none {s : State} (h : s.firstErr = none) : firstErrWord s = 0#32 := by
  simp only [firstErrWord, h]

theorem firstErrWord_some {s : State} {c : Status} (h : s.firstErr = some c) :
    (firstErrWord s).toNat = 2147483648 + (statusCode c).toNat := by
  simp only [firstErrWord, h, toNat_append_eq, BitVec.toNat_ofNat]
  omega

theorem exists_controlCsrAt :
    ∀ addr ∈ [0x00020#18, 0x00024#18, 0x00028#18, 0x0002C#18, 0x00030#18, 0x00034#18],
      ∃ r, csrAt addr.toNat = some r := by
  simp only [List.forall_mem_cons]
  exact ⟨⟨.ctrl, rfl⟩, ⟨.status, rfl⟩, ⟨.result, rfl⟩, ⟨.firstErr, rfl⟩, ⟨.cmd0, rfl⟩, ⟨.cmd1, rfl⟩, nofun⟩

/-- Settles O44: the address gives the register, and the register's word is read as a number. -/
theorem controlRegistersReadTheirFields : Obligations.ControlRegistersReadTheirFields := by
  intro s addr rest hr hin haddr
  obtain ⟨r, hcsr⟩ := exists_controlCsrAt addr haddr
  refine ⟨_, step_readCsr hr hin hcsr, ?_, ?_, ?_, ?_, ?_, ?_⟩ <;> rintro rfl <;> cases hcsr
  · exact ctrlWord_toNat _
  · exact statusWord_toNat _
  · exact ⟨_, codes_statusCode _, resultWord_toNat _⟩
  · refine ⟨fun hf => ?_, fun c hf => ⟨_, codes_statusCode c, firstErrWord_some hf⟩⟩
    exact congrArg BitVec.toNat (firstErrWord_none hf)
  · rfl
  · rfl

/-! ### The PMEM window -/

/-- The place of a coefficient in the register map (R32). -/
theorem target_pmemWindow (d : Slot) {i : Nat} (hi : i < 1024) :
    target (BitVec.ofNat 18 (0x10000 + 0x1000 * d.toNat + 4 * i)) .w32 = some (.pmem d i) := by
  have hd : d.toNat < 8 := d.isLt
  have haddr : (BitVec.ofNat 18 (0x10000 + 0x1000 * d.toNat + 4 * i)).toNat = 0x10000 + 0x1000 * d.toNat + 4 * i := by
    rw [BitVec.toNat_ofNat]; omega
  have hslot : (0x10000 + 0x1000 * d.toNat + 4 * i - 0x10000) / 0x1000 = d.toNat := by omega
  have hindex : (0x10000 + 0x1000 * d.toNat + 4 * i) % 0x1000 / 4 = i := by omega
  unfold target
  simp only [haddr, hslot, hindex]
  rw [if_neg (by omega), if_pos (by omega), if_pos ⟨trivial, by omega⟩, BitVec.ofNat_toNat, BitVec.setWidth_eq]

theorem readValue_pmem {s : State} {addr : BitVec 18} {d : Slot} {i : Nat} (hp : s.phase = .idle)
    (h : target addr .w32 = some (.pmem d i)) : readValue s addr .w32 = some (s.coeff d i) := by
  simp [readValue, h, busy_of_idle hp]

theorem busWrite_pmem {s : State} {addr : BitVec 18} {d : Slot} {i : Nat} (hp : s.phase = .idle)
    (h : target addr .w32 = some (.pmem d i)) (v : Word) : s.busWrite addr .w32 v = s.setCoeff d i v := by
  simp [State.busWrite, writeEffect, h, busy_of_idle hp]

/-- Settles O47: the address reaches coefficient `i` of slot `d`, and writing one coefficient keeps the others. -/
theorem pmemWindowReadsAndWrites : Obligations.PmemWindowReadsAndWrites := by
  intro s d i v rest hr hp hi addr
  have ht : target addr .w32 = some (.pmem d i) := target_pmemWindow d hi
  have hread : readValue { s with inputs := rest } addr .w32 = some (s.coeff d i) :=
    readValue_pmem (s := { s with inputs := rest }) hp ht
  refine ⟨fun hin => ?_, fun hin => ?_⟩
  · rw [step_read hr hin, busRead_of_readValue hread]
  · have hwrite := busWrite_pmem (s := { s with inputs := rest }) hp ht v
    refine ⟨_, (step_write hr hin).trans (congrArg _ hwrite), rfl, fun e j hj => ?_⟩
    rw [coeff_setCoeff _ d e i j v hj]
    exact if_congr (and_congr eq_comm eq_comm) rfl rfl

end Sys2Proof.Machine

/-! Part 3: the command in execution (10_state.md R48) and the collaborator (R60, R61). -/

namespace Sys2Proof.Machine

/-! ### The sequencer's turn at a command -/

theorem sequencerTurn_instr {s : State} {w : Command} {i : Instr} (hr : s.rstN = true) (hp : s.phase = .exec w)
    (hd : decode w = .instr i) : sequencerTurn s = exec i s := by
  rw [sequencerTurn_exec s hp hr, runCommand_instr s hd]

theorem inputTurn_clock {s : State} (h : s.request = none) : inputTurn .clock s = sequencerTurn s := by
  simp [inputTurn, h]

theorem inputTurn_answer {s : State} (h : s.request ≠ none) : inputTurn .answer s = sequencerTurn s := by
  simp [inputTurn, Option.isSome_iff_ne_none, h]

/-- Settles O7: each of the three inputs gives the sequencer its turn, and its turn in Exec runs the command. -/
theorem stepRunsTheDecodedCommand : Obligations.StepRunsTheDecodedCommand := by
  intro s w i hr hp hd
  refine ⟨fun hin => ?_, fun rest hin hreq => ?_, fun rest hin hreq => ?_⟩
  · rw [step_nil s hin, sequencerTurn_instr hr hp hd]
  · rw [step_cons s hin, inputTurn_clock (s := { s with inputs := rest }) hreq]
    exact sequencerTurn_instr hr hp hd
  · rw [step_cons s hin, inputTurn_answer (s := { s with inputs := rest }) hreq]
    exact sequencerTurn_instr hr hp hd

/-! ### The requests -/

theorem sampleNonce_eq (k : Imm8) : sampleNonce k = #v[k, 0, 0, 0, 0, 0, 0, 0] := rfl

theorem helprecNonce_eq (k : Imm8) : helprecNonce k = #v[0, k, 0, 0, 0, 0, 0, 0] := rfl

/-- The low six bits of a command's word are its opcode (R110). -/
theorem opcode_encode (i : Instr) : (encode i).extractLsb' 0 6 = i.op.code := opBits_packFields i.op i.fields

/-- GENA, SAMPLE and HELPREC make a request, and no other command does (R60). -/
theorem requestOf_ne_none_iff (i : Instr) (s : State) :
    requestOf i s ≠ none ↔ i.op.code ∈ [0x10#6, 0x11#6, 0x20#6] := by
  cases i <;> simp [requestOf, Instr.op, Op.code]

/-- Settles O9. -/
theorem requestsCarryTheSeedAndTheNonce : Obligations.RequestsCarryTheSeedAndTheNonce := by
  intro s d x o k i
  refine ⟨rfl, ?_, ?_, ?_⟩
  · rw [← sampleNonce_eq]; rfl
  · rw [← helprecNonce_eq]; rfl
  · rw [opcode_encode, requestOf_ne_none_iff]

/-! ### SAMPLE as a function of the collaborator's answer -/

/-- The polynomial SAMPLE leaves: all 0 where the collaborator failed, else the samples of its stream (R192, R274). -/
def samplePoly (resp : Status × Bytes 3072) : Poly :=
  if resp.1 = .success then polyOf fun k => wrap32 (sampleCoeff resp.2 k) else zeroPoly

theorem sampleRule_slot (d : Slot) (resp : Status × Bytes 3072) (s : State) :
    (sampleRule d resp s).2.slot d = samplePoly resp := by
  unfold sampleRule samplePoly failSlot
  by_cases h : resp.1 = .success <;> simp [h]

theorem sampleRule_status (d : Slot) (resp : Status × Bytes 3072) (s : State) : (sampleRule d resp s).1 = resp.1 := by
  unfold sampleRule failSlot
  by_cases h : resp.1 = .success <;> simp [h]

/-- SAMPLE leaves the status and the polynomial of the collaborator's answer to the seed bytes and the nonce. -/
theorem exec_sample_result (s : State) (d : Slot) {seed : Offset} (k : Imm8) (h : seed.toNat + 32 ≤ 8192) :
    ∃ t, exec (.sample d seed k) s = .next t ∧
      t.resultCode = (Config.stream (s.seedAt seed) (sampleNonce k) 3072).1 ∧
      t.slot d = samplePoly (Config.stream (s.seedAt seed) (sampleNonce k) 3072) :=
  ⟨_, exec_sample s d k h, by rw [complete_resultCode, sampleRule_status],
    by rw [slot_complete, sampleRule_slot]⟩

/-- Two seeds are equal when their bytes are, wherever they lie. -/
theorem seedAt_congr {s s' : State} {o o' : Offset}
    (h : ∀ j, j < 32 → s.byteAt (o.toNat + j) = s'.byteAt (o'.toNat + j)) : s.seedAt o = s'.seedAt o' :=
  nth_ext fun j hj => by
    rw [State.seedAt, State.seedAt, nth_memRead s _ hj, nth_memRead s' _ hj, h j hj]

/-- Settles O26: equal seed bytes and nonce are one request, so they have one answer. -/
theorem sampleDependsOnSeedAndNonceOnly : Obligations.SampleDependsOnSeedAndNonceOnly := by
  intro s s' d d' o o' k ho ho' hseed
  obtain ⟨t, ht, hcode, hslot⟩ := exec_sample_result s d k ho
  obtain ⟨t', ht', hcode', hslot'⟩ := exec_sample_result s' d' k ho'
  rw [seedAt_congr hseed] at hcode hslot
  refine ⟨t, t', ht, ht', hcode.trans hcode'.symm, fun i _ => ?_⟩
  rw [State.coeff, State.coeff, hslot, hslot']

end Sys2Proof.Machine

/-! # Proofs of the statements about memory and the host bus (20_memory.md)

Part 1: while the block is busy, PMEM and BMEM stay as they are (R85, §5; 70_reset_and_hazards.md R313). -/

namespace Sys2Proof.Machine

/-- `t` holds the memories of `s`. -/
def State.SameMemories (s t : State) : Prop := t.pmem = s.pmem ∧ t.bmem = s.bmem

theorem sameMemories_issue (s : State) : s.SameMemories s.issue := by
  rcases issue_cases s with ⟨c, -, e⟩ | ⟨i, -, -, e⟩ <;> rw [e] <;> exact ⟨rfl, rfl⟩

theorem sameMemories_writeCtrl (s : State) (v : Word) : s.SameMemories (s.writeCtrl v) := by
  rcases writeCtrl_cases s v with ⟨-, e⟩ | ⟨-, -, e⟩ | ⟨-, -, -, e⟩ | ⟨-, -, -, e⟩ <;> rw [e]
  · exact ⟨rfl, rfl⟩
  · exact ⟨rfl, rfl⟩
  · exact ⟨rfl, rfl⟩
  · exact sameMemories_issue { s with irqen := v.getLsbD 2 }

theorem sameMemories_busRead (s : State) (addr : BitVec 18) (w : Width) : s.SameMemories (s.busRead addr w) := by
  rw [busRead_eq]; exact ⟨rfl, rfl⟩

/-- A write reaches the memories in Idle only, and a write to a memory stays in Idle. -/
theorem sameMemories_busWrite {s : State} {addr : BitVec 18} {w : Width} {v : Word}
    (h : (s.busWrite addr w v).phase ≠ .idle) : s.SameMemories (s.busWrite addr w v) := by
  rcases busWrite_cases s addr w v with e | e | e | e | e | ⟨hp, hidle⟩
  · rw [e]; exact ⟨rfl, rfl⟩
  · rw [e]; exact ⟨rfl, rfl⟩
  · rw [e]; exact sameMemories_writeCtrl s v
  · rw [e]; exact ⟨rfl, rfl⟩
  · rw [e]; exact ⟨rfl, rfl⟩
  · rcases hidle with e | e | ⟨d, i, e⟩ | ⟨off, -, e⟩ <;> exact absurd (e ▸ hp) h

/-- A command in execution ends in Idle. -/
theorem runCommand_phase {s t : State} {w : Command} (h : runCommand w s = .next t) : t.phase = .idle := by
  cases hd : decode w with
  | instr i =>
    obtain ⟨u, c, e⟩ := exec_complete s i
    rw [runCommand_instr s hd, e] at h
    cases h; rfl
  | refused e =>
    rw [runCommand_refused s hd] at h
    cases h; rfl

/-- What the sequencer does to the memories it does in a turn that ends in Idle. -/
theorem sameMemories_sequencerTurn {s t : State} (h : sequencerTurn s = .next t) (hb : t.phase ≠ .idle) :
    s.SameMemories t := by
  rcases sequencerTurn_cases s h with ⟨rfl, -⟩ | ⟨-, -, rfl⟩ | ⟨w, -, -, hrun⟩
  · exact ⟨rfl, rfl⟩
  · exact absurd rfl hb
  · exact absurd (runCommand_phase hrun) hb

theorem sameMemories_inputTurn {s t : State} {i : Input} (h : inputTurn i s = .next t) (hb : t.phase ≠ .idle) :
    s.SameMemories t := by
  rcases inputTurn_cases s h with rfl | hseq | ⟨addr, w, -, hread⟩ | ⟨addr, w, v, -, -, rfl⟩ | ⟨-, rfl⟩ | ⟨-, rfl⟩
  · exact ⟨rfl, rfl⟩
  · exact sameMemories_sequencerTurn hseq hb
  · rcases hread with ⟨-, rfl⟩ | ⟨-, rfl⟩
    · exact sameMemories_busRead s addr w
    · exact ⟨rfl, rfl⟩
  · exact sameMemories_busWrite hb
  · exact ⟨rfl, rfl⟩
  · exact ⟨rfl, rfl⟩

/-- Settles O57: every turn, the sequencer's or an input's, that ends busy keeps the memories. -/
theorem memoriesAreKeptWhileBusy : Obligations.MemoriesAreKeptWhileBusy := by
  intro s t h hb
  cases hin : s.inputs with
  | nil => exact sameMemories_sequencerTurn (step_nil s hin ▸ h) hb
  | cons i rest => exact sameMemories_inputTurn (s := { s with inputs := rest }) (step_cons s hin ▸ h) hb

end Sys2Proof.Machine

/-! Part 2: the register map, and the accesses that are access errors (R83–R85; 10_state.md R32, R42, R46). -/

namespace Sys2Proof.Machine

open Claims (Mapped csrAddresses bytesOf)

/-! ### The register map, area by area (R32) -/

theorem widthBytes_eq (w : Width) : widthBytes w = bytesOf w := by cases w <;> rfl

theorem csrAt_isSome_iff (a : Nat) : (csrAt a).isSome ↔ a ∈ csrAddresses := by
  unfold csrAt
  split <;> simp_all [csrAddresses]

theorem target_csrArea {addr : BitVec 18} (w : Width) (h : addr.toNat < 0x10000) :
    target addr w = if w = .w32 then (csrAt addr.toNat).map Target.csr else none := by
  rw [target, if_pos h]

theorem target_pmemArea {addr : BitVec 18} (w : Width) (h : 0x10000 ≤ addr.toNat) (h' : addr.toNat < 0x18000) :
    target addr w =
      if w = .w32 ∧ addr.toNat % 4 = 0 then
        some (.pmem (BitVec.ofNat 3 ((addr.toNat - 0x10000) / 0x1000)) (addr.toNat % 0x1000 / 4))
      else none := by
  rw [target, if_neg (by omega), if_pos h']

theorem target_gap {addr : BitVec 18} (w : Width) (h : 0x18000 ≤ addr.toNat) (h' : addr.toNat < 0x20000) :
    target addr w = none := by
  rw [target, if_neg (by omega), if_neg (by omega), if_pos h']

theorem target_bmemArea {addr : BitVec 18} (w : Width) (h : 0x20000 ≤ addr.toNat) :
    target addr w =
      if addr.toNat % bytesOf w = 0 ∧ addr.toNat - 0x20000 + bytesOf w ≤ 8192 then some (.bmem (addr.toNat - 0x20000))
      else none := by
  rw [target, if_neg (by omega), if_neg (by omega), if_neg (by omega), widthBytes_eq]; rfl

theorem csrAddresses_lt {a : Nat} (h : a ∈ csrAddresses) : a < 0x10000 := by
  obtain ⟨r, hr⟩ := Option.isSome_iff_exists.1 ((csrAt_isSome_iff a).2 h)
  exact csrAt_lt hr

/-- The model's register map allows the accesses that the spec's does (R32, R83). -/
theorem target_isSome_iff (addr : BitVec 18) (w : Width) : (target addr w).isSome ↔ Mapped addr.toNat w := by
  have hcsr : 0x10000 ≤ addr.toNat → addr.toNat ∉ csrAddresses := fun h hm => by have := csrAddresses_lt hm; omega
  unfold Mapped
  rcases Nat.lt_or_ge addr.toNat 0x10000 with h | h
  · have hpmem : ¬0x10000 ≤ addr.toNat := by omega
    have hbmem : ¬0x20000 ≤ addr.toNat := by omega
    rw [target_csrArea w h, ← csrAt_isSome_iff]
    by_cases hw : w = .w32 <;> simp [hw, hpmem, hbmem]
  rcases Nat.lt_or_ge addr.toNat 0x18000 with h' | h'
  · have hbmem : ¬0x20000 ≤ addr.toNat := by omega
    rw [target_pmemArea w h h']
    simp [hcsr h, h, h', hbmem, and_comm]
  rcases Nat.lt_or_ge addr.toNat 0x20000 with h'' | h''
  · have hbmem : ¬0x20000 ≤ addr.toNat := by omega
    rw [target_gap w h' h'']
    simp [hcsr h, h'.not_gt, hbmem]
  · have hend : addr.toNat - 0x20000 + bytesOf w ≤ 8192 ↔ addr.toNat + bytesOf w ≤ 0x22000 := by omega
    rw [target_bmemArea w h'']
    simp [hcsr h, h'.not_gt, h'', hend]

theorem target_eq_none {addr : BitVec 18} {w : Width} (h : ¬Mapped addr.toNat w) : target addr w = none := by
  rwa [← target_isSome_iff, Option.not_isSome_iff_eq_none] at h

theorem exists_target {addr : BitVec 18} {w : Width} (h : Mapped addr.toNat w) : ∃ tg, target addr w = some tg :=
  Option.isSome_iff_exists.1 ((target_isSome_iff addr w).2 h)

/-- The windows hold no CSR. -/
theorem lt_of_target_csr {addr : BitVec 18} {w : Width} {r : Csr} (h : target addr w = some (.csr r)) :
    addr.toNat < 0x10000 := by
  by_contra hge
  rcases Nat.lt_or_ge addr.toNat 0x18000 with hlt | hge'
  · rw [target_pmemArea w (by omega) hlt] at h
    split at h <;> cases h
  rcases Nat.lt_or_ge addr.toNat 0x20000 with hlt | hge''
  · rw [target_gap w hge' hlt] at h; cases h
  · rw [target_bmemArea w hge''] at h
    split at h <;> cases h

/-! ### Access errors (R84) -/

theorem step_read_accessError {s : State} {addr : BitVec 18} {w : Width} {rest : List Input} (hr : s.rstN = true)
    (hin : s.inputs = .read addr w :: rest) (h : readValue { s with inputs := rest } addr w = none) :
    step s = .next { s with inputs := rest, rdata := 0, accerr := true } := by
  rw [step_read hr hin, busRead_eq, h]; simp

theorem step_write_accessError {s : State} {addr : BitVec 18} {w : Width} {v : Word} {rest : List Input}
    (hr : s.rstN = true) (hin : s.inputs = .write addr w v :: rest)
    (h : writeEffect { s with inputs := rest } addr w v = none) :
    step s = .next { s with inputs := rest, accerr := true } := by
  rw [step_write hr hin, State.busWrite, h, Option.getD_none]

theorem readValue_unmapped (s : State) {addr : BitVec 18} {w : Width} (h : target addr w = none) :
    readValue s addr w = none := by
  simp only [readValue, h]

theorem writeEffect_unmapped (s : State) {addr : BitVec 18} {w : Width} (h : target addr w = none) (v : Word) :
    writeEffect s addr w v = none := by
  simp only [writeEffect, h]

/-- While BUSY a window read is an access error (R85). -/
theorem readValue_busy {s : State} {addr : BitVec 18} {w : Width} (hb : s.phase ≠ .idle)
    (h : 0x10000 ≤ addr.toNat) : readValue s addr w = none := by
  have hbusy : s.busy = true := (busy_iff s).2 hb
  cases ht : target addr w with
  | none => exact readValue_unmapped s ht
  | some tg =>
    cases tg with
    | csr r => have := lt_of_target_csr ht; omega
    | pmem d i => simp [readValue, ht, hbusy]
    | bmem off => simp [readValue, ht, hbusy]

/-- While BUSY a window write is an access error (R85). -/
theorem writeEffect_busy {s : State} {addr : BitVec 18} {w : Width} (hb : s.phase ≠ .idle)
    (h : 0x10000 ≤ addr.toNat) (v : Word) : writeEffect s addr w v = none := by
  have hbusy : s.busy = true := (busy_iff s).2 hb
  cases ht : target addr w with
  | none => exact writeEffect_unmapped s ht v
  | some tg =>
    cases tg with
    | csr r => have := lt_of_target_csr ht; omega
    | pmem d i => simp [writeEffect, ht, hbusy]
    | bmem off => simp [writeEffect, ht, hbusy]

/-- While BUSY a write to CMD0 or CMD1 is an access error at every width (R46, R85). -/
theorem writeEffect_cmd_busy {s : State} {addr : BitVec 18} {r : Csr} (hb : s.phase ≠ .idle)
    (hcsr : csrAt addr.toNat = some r) (hr : r = .cmd0 ∨ r = .cmd1) (w : Width) (v : Word) :
    writeEffect s addr w v = none := by
  have hbusy : s.busy = true := (busy_iff s).2 hb
  by_cases hw : w = .w32
  · subst hw
    rcases hr with rfl | rfl <;> simp [writeEffect, target_csr hcsr, State.writeCsr, hbusy]
  · exact writeEffect_unmapped s (by rw [target_csrArea w (csrAt_lt hcsr), if_neg hw]) v

/-- START while BUSY is an access error, but IRQEN takes its bit (R42, R85). -/
theorem writeCtrl_start_busy {s : State} {v : Word} (hb : s.phase ≠ .idle) (h0 : v.getLsbD 0 = true)
    (h1 : v.getLsbD 1 = false) : s.writeCtrl v = { s with irqen := v.getLsbD 2, accerr := true } := by
  have hbusy : ({ s with irqen := v.getLsbD 2 } : State).busy = true := (busy_iff _).2 hb
  simp only [State.writeCtrl, h0, h1, hbusy, Bool.false_eq_true, if_false, if_true]

/-- Settles O46: the windows and CMD0/CMD1 refuse the access, CTRL takes IRQEN, and a CSR is read in every phase. -/
theorem busyPhaseAccessesAreLost : Obligations.BusyPhaseAccessesAreLost := by
  intro s addr w v rest hr hb
  have hb' : ({ s with inputs := rest } : State).phase ≠ .idle := hb
  refine ⟨fun ha hin => ?_, fun ha hin => ?_, fun ha hin => ?_, ?_, fun ha hin => ?_⟩
  · exact step_read_accessError hr hin (readValue_busy hb' ha)
  · exact step_write_accessError hr hin (writeEffect_busy hb' ha v)
  · refine step_write_accessError hr hin ?_
    rcases ha with rfl | rfl
    · exact writeEffect_cmd_busy hb' (r := .cmd0) rfl (.inl rfl) w v
    · exact writeEffect_cmd_busy hb' (r := .cmd1) rfl (.inr rfl) w v
  · rintro rfl rfl h0 h1 hin
    exact step_writeCsr hr hin (r := .ctrl) rfl (congrArg some (writeCtrl_start_busy hb' h0 h1))
  · obtain ⟨r, hcsr⟩ := Option.isSome_iff_exists.1 ((csrAt_isSome_iff _).2 ha)
    exact ⟨_, step_readCsr hr hin hcsr⟩

/-! ### Accesses the map allows, in Idle -/

theorem exists_readValue {s : State} {addr : BitVec 18} {w : Width} {tg : Target} (hp : s.phase = .idle)
    (h : target addr w = some tg) : ∃ x, readValue s addr w = some x := by
  cases tg <;> simp [readValue, h, busy_of_idle hp]

@[simp] theorem issue_accerr (s : State) : s.issue.accerr = s.accerr := by
  rcases issue_cases s with ⟨c, -, e⟩ | ⟨i, -, -, e⟩ <;> rw [e] <;> rfl

/-- A write to CTRL in Idle, command issue included, is no access error. -/
theorem accerr_of_writeCtrl {s : State} {v : Word} (hp : s.phase = .idle) (h : (s.writeCtrl v).accerr = true) :
    s.accerr = true := by
  rcases writeCtrl_cases s v with ⟨-, e⟩ | ⟨-, -, e⟩ | ⟨-, -, hbusy, -⟩ | ⟨-, -, -, e⟩
  · rw [e] at h; cases h
  · rwa [e] at h
  · rw [busy_of_idle hp] at hbusy; cases hbusy
  · rwa [e, issue_accerr] at h

/-- A write to a CSR in Idle is no access error. -/
theorem exists_writeCsr {s : State} (hp : s.phase = .idle) (r : Csr) (v : Word) :
    ∃ t, s.writeCsr r v = some t ∧ (t.accerr = true → s.accerr = true) := by
  by_cases hro : r.ReadOnly
  · exact ⟨s, writeCsr_readOnly s hro v, id⟩
  cases r with
  | ctrl => exact ⟨_, rfl, accerr_of_writeCtrl hp⟩
  | status => exact ⟨_, rfl, fun h => (Bool.and_eq_true_iff.1 h).1⟩
  | firstErr => exact ⟨_, rfl, id⟩
  | cmd0 => exact ⟨_, writeCsr_cmd0 hp v, id⟩
  | cmd1 => exact ⟨_, writeCsr_cmd1 hp v, id⟩
  | _ => exact absurd (by decide) hro

/-- A write that the map allows is no access error in Idle. -/
theorem exists_writeEffect {s : State} {addr : BitVec 18} {w : Width} {tg : Target} (hp : s.phase = .idle)
    (h : target addr w = some tg) (v : Word) :
    ∃ t, writeEffect s addr w v = some t ∧ (t.accerr = true → s.accerr = true) := by
  cases tg with
  | csr r => simpa only [writeEffect, h] using exists_writeCsr hp r v
  | pmem d i => exact ⟨s.setCoeff d i v, by simp [writeEffect, h, busy_of_idle hp], id⟩
  | bmem off =>
    exact ⟨s.memWrite off (tabulate (widthBytes w) fun k => byteOf v k), by simp [writeEffect, h, busy_of_idle hp], id⟩

/-- Settles O45: an access has a target exactly where the spec maps it, and in Idle every target answers. -/
theorem unmappedAccessesAreAccessErrors : Obligations.UnmappedAccessesAreAccessErrors := by
  intro s addr w rest hr
  refine ⟨fun hm => ?_, fun hm hp => ?_⟩
  · have ht := target_eq_none hm
    exact ⟨fun hin => step_read_accessError hr hin (readValue_unmapped _ ht),
      fun v hin => step_write_accessError hr hin (writeEffect_unmapped _ ht v)⟩
  · obtain ⟨tg, ht⟩ := exists_target hm
    refine ⟨fun hin => ?_, fun v hin => ?_⟩
    · obtain ⟨x, hx⟩ := exists_readValue (s := { s with inputs := rest }) hp ht
      exact ⟨x, by rw [step_read hr hin, busRead_of_readValue hx]⟩
    · obtain ⟨t, hw, hacc⟩ := exists_writeEffect (s := { s with inputs := rest }) hp ht v
      exact ⟨t, by rw [step_write hr hin, State.busWrite, hw, Option.getD_some], hacc⟩

end Sys2Proof.Machine

/-! Part 3: the BMEM window (R81, R83). -/

namespace Sys2Proof.Machine

open Claims (bytesOf BytesKeptBut)

/-! ### Little-endian words (R81) -/

/-- Bit `n` of the word is bit `n mod 8` of byte `n div 8`. -/
def LittleEndian {m : Nat} (x : BitVec m) (b : Nat → Byte) : Prop :=
  ∀ n, n < m → x.getLsbD n = (b (n / 8)).getLsbD (n % 8)

theorem littleEndian_byte (b : Nat → Byte) : LittleEndian (b 0) b := fun n hn => by
  rw [Nat.div_eq_of_lt hn, Nat.mod_eq_of_lt hn]

/-- A byte put below a little-endian word is the byte of number 0. -/
theorem LittleEndian.append {m : Nat} {x : BitVec m} {b : Nat → Byte} (h : LittleEndian x fun k => b (k + 1)) :
    LittleEndian (x ++ b 0) b := fun n hn => by
  rw [BitVec.getLsbD_append]
  split
  · next hlo => exact littleEndian_byte b n hlo
  · next hhi =>
    have hbyte : (n - 8) / 8 + 1 = n / 8 := by omega
    have hbit : (n - 8) % 8 = n % 8 := by omega
    simpa only [hbyte, hbit] using h (n - 8) (by omega)

theorem littleEndian_le16 (b : Nat → Byte) : LittleEndian (le16 (b 0) (b 1)) b :=
  (littleEndian_byte fun k => b (k + 1)).append

theorem littleEndian_le32 (b : Nat → Byte) : LittleEndian (le32 (b 0) (b 1) (b 2) (b 3)) b :=
  have h3 : LittleEndian (b 3) fun k => b (k + 3) := littleEndian_byte fun k => b (k + 3)
  have h2 : LittleEndian (b 3 ++ b 2) fun k => b (k + 2) := h3.append (b := fun k => b (k + 2))
  have h1 : LittleEndian (b 3 ++ b 2 ++ b 1) fun k => b (k + 1) := h2.append (b := fun k => b (k + 1))
  h1.append

/-- A little-endian word in the low bits of the bus data. -/
theorem LittleEndian.getLsbD_setWidth {m : Nat} {x : BitVec m} {b : Nat → Byte} (h : LittleEndian x b) {n : Nat}
    (hn : n < 32) : (x.setWidth 32).getLsbD n = (decide (n < m) && (b (n / 8)).getLsbD (n % 8)) := by
  rw [BitVec.getLsbD_setWidth, decide_eq_true hn, Bool.true_and]
  by_cases hm : n < m
  · rw [h n hm, decide_eq_true hm, Bool.true_and]
  · rw [BitVec.getLsbD_of_ge x n (by omega), decide_eq_false hm, Bool.false_and]

theorem getLsbD_bmemValue (s : State) (w : Width) (off : Nat) {n : Nat} (hn : n < 32) :
    (bmemValue s w off).getLsbD n = (decide (n < 8 * bytesOf w) && (s.byteAt (off + n / 8)).getLsbD (n % 8)) := by
  cases w with
  | w8 => exact (littleEndian_byte fun k => s.byteAt (off + k)).getLsbD_setWidth hn
  | w16 => exact (littleEndian_le16 fun k => s.byteAt (off + k)).getLsbD_setWidth hn
  | w32 =>
    have h := (littleEndian_le32 fun k => s.byteAt (off + k)).getLsbD_setWidth hn
    rwa [BitVec.setWidth_eq] at h

theorem getLsbD_byteOf (v : Word) (k : Nat) {j : Nat} (hj : j < 8) :
    (byteOf v k).getLsbD j = v.getLsbD (8 * k + j) := by
  simp [byteOf, hj]

/-- The bytes of a bus write, lowest first. -/
theorem getLsbD_nth_tabulate_byteOf (v : Word) {m n : Nat} (hn : n < 8 * m) :
    (nth (tabulate m fun k => byteOf v k) (n / 8)).getLsbD (n % 8) = v.getLsbD n := by
  rw [nth_tabulate _ (by omega), getLsbD_byteOf v _ (Nat.mod_lt n (by omega)), Nat.div_add_mod]

/-! ### The window -/

/-- The place of a byte in the register map (R32, R83). -/
theorem target_bmemWindow {b : Nat} {w : Width} (h : b % bytesOf w = 0) (h' : b + bytesOf w ≤ 8192) :
    target (BitVec.ofNat 18 (0x20000 + b)) w = some (.bmem b) := by
  have haddr : (BitVec.ofNat 18 (0x20000 + b)).toNat = 0x20000 + b := by
    rw [BitVec.toNat_ofNat]; exact Nat.mod_eq_of_lt (by omega)
  have halign : (0x20000 + b) % bytesOf w = 0 := by cases w <;> simp only [bytesOf] at h ⊢ <;> omega
  rw [target_bmemArea w (by omega), haddr, Nat.add_sub_cancel_left, if_pos ⟨halign, h'⟩]

theorem readValue_bmem {s : State} {addr : BitVec 18} {w : Width} {off : Nat} (hp : s.phase = .idle)
    (h : target addr w = some (.bmem off)) : readValue s addr w = some (bmemValue s w off) := by
  simp [readValue, h, busy_of_idle hp]

theorem busWrite_bmem {s : State} {addr : BitVec 18} {w : Width} {off : Nat} (hp : s.phase = .idle)
    (h : target addr w = some (.bmem off)) (v : Word) :
    s.busWrite addr w v = s.memWrite off (tabulate (bytesOf w) fun k => byteOf v k) := by
  rw [← widthBytes_eq]
  simp [State.busWrite, writeEffect, h, busy_of_idle hp]

/-- Settles O48: a read composes the bytes little-endian, and a write puts the bytes of the data at their places. -/
theorem bmemWindowIsLittleEndian : Obligations.BmemWindowIsLittleEndian := by
  intro s b w v rest hr hp halign hrange addr
  have ht : target addr w = some (.bmem b) := target_bmemWindow halign hrange
  refine ⟨fun hin => ?_, fun hin => ?_⟩
  · refine ⟨_, ?_, fun n hn => getLsbD_bmemValue s w b hn⟩
    rw [step_read hr hin, busRead_of_readValue (readValue_bmem (s := { s with inputs := rest }) hp ht)]
    rfl
  · have hwrite := busWrite_bmem (s := { s with inputs := rest }) hp ht v
    refine ⟨_, (step_write hr hin).trans (congrArg _ hwrite), rfl, fun a ha => ?_, fun n hn => ?_⟩
    · rw [byteAt_memWrite, if_neg ha]; rfl
    · rw [byteAt_memWrite, if_pos (by omega), Nat.add_sub_cancel_left, getLsbD_nth_tabulate_byteOf v hn]

end Sys2Proof.Machine

/-! # Proofs of the statements about the encoding (30_encoding.md)

Part 1: decoding undoes encoding, and encoding undoes decoding (R110–R119, R124). -/

namespace Sys2Proof

/-! ### From a command to its word and back -/

/-- Every command's own fields leave its blank fields 0 and rebuild the command. -/
theorem fields_fit : ∀ i : Instr, Laws.FieldsFit.Statement i
  | .nop => Laws.FieldsFit.nop
  | .redonce d a => Laws.FieldsFit.redonce d a
  | .twored d a => Laws.FieldsFit.twored d a
  | .corr d a => Laws.FieldsFit.corr d a
  | .smul d a k => Laws.FieldsFit.smul d a k
  | .nttf d a => Laws.FieldsFit.nttf d a
  | .ntti d a => Laws.FieldsFit.ntti d a
  | .pmul d a b => Laws.FieldsFit.pmul d a b
  | .pmuladd d a b c => Laws.FieldsFit.pmuladd d a b c
  | .gena d seed => Laws.FieldsFit.gena d seed
  | .sample d seed nonce => Laws.FieldsFit.sample d seed nonce
  | .enc14 dst a => Laws.FieldsFit.enc14 dst a
  | .dec14 d src => Laws.FieldsFit.dec14 d src
  | .encr dst r => Laws.FieldsFit.encr dst r
  | .decr d src => Laws.FieldsFit.decr d src
  | .enca dst b seed => Laws.FieldsFit.enca dst b seed
  | .deca d seedDst src => Laws.FieldsFit.deca d seedDst src
  | .encb dst u r => Laws.FieldsFit.encb dst u r
  | .decb u r src => Laws.FieldsFit.decb u r src
  | .helprec r x seed nonce => Laws.FieldsFit.helprec r x seed nonce
  | .recKey key x r => Laws.FieldsFit.recKey key x r
  | .zerop d => Laws.FieldsFit.zerop d
  | .zerob start len => Laws.FieldsFit.zerob start len

/-- A packed word whose blank fields are 0 passes the decoder's checks. -/
theorem decode_packFields {o : Op} {f : Fields} (h : unusedNonzero o.uses f = false) :
    decode (packFields o f) = .instr (Instr.ofFields o f) := by
  rw [decode_eq_instr_iff]
  refine ⟨o, ?_, res0Bits_packFields o f, res1Bits_packFields o f, ?_, ?_⟩
  · rw [opBits_packFields, Op.ofCode_code]
  · rwa [fieldsOf_packFields]
  · rw [fieldsOf_packFields]

theorem decode_encode (i : Instr) : decode (encode i) = .instr i := by
  obtain ⟨hblank, hback⟩ := fields_fit i
  rw [encode, decode_packFields hblank, hback]

/-- A word is its two halves, the high one first (R46). -/
theorem commandOf_extractLsb' (w : Command) : commandOf (w.extractLsb' 0 32) (w.extractLsb' 32 32) = w := by
  rw [commandOf, BitVec.extractLsb'_append_extractLsb'_eq_extractLsb' (by rfl)]
  exact BitVec.extractLsb'_eq_self

/-- Settles O1: packing keeps every field apart, and a command's fields rebuild it. -/
theorem decodeOfEncodeIsTheCommand : Obligations.DecodeOfEncodeIsTheCommand := fun i =>
  ⟨decode_encode i, commandOf_extractLsb' (encode i)⟩

/-! ### From a word to its command and back -/

/-- The fields with those that are not in use set to 0 (R117). -/
def Fields.blanked (u : FieldUse) (f : Fields) : Fields where
  s0 := if u.s0 then f.s0 else 0#3
  s1 := if u.s1 then f.s1 else 0#3
  s2 := if u.s2 then f.s2 else 0#3
  s3 := if u.s3 then f.s3 else 0#3
  imm8 := if u.imm8 then f.imm8 else 0#8
  boff0 := if u.boff0 then f.boff0 else 0#16
  boff1 := if u.boff1 then f.boff1 else 0#16

theorem blank_eq_false_iff {n : Nat} (used : Bool) (x : BitVec n) :
    (!used && x != 0#n) = false ↔ (if used then x else 0#n) = x := by
  cases used with
  | false => simpa using eq_comm
  | true => simp

/-- The check of R117 passes exactly where blanking the unused fields changes nothing. -/
theorem unusedNonzero_eq_false_iff (u : FieldUse) (f : Fields) : unusedNonzero u f = false ↔ f.blanked u = f := by
  obtain ⟨s0, s1, s2, s3, imm8, boff0, boff1⟩ := f
  simp only [unusedNonzero, Fields.blanked, Fields.mk.injEq, Bool.or_eq_false_iff, blank_eq_false_iff, and_assoc]

/-- A command has the fields that its opcode uses and no others. -/
theorem fields_ofFields (o : Op) (f : Fields) : (Instr.ofFields o f).fields = f.blanked o.uses := by cases o <;> rfl

theorem encode_ofFields {o : Op} {f : Fields} (h : unusedNonzero o.uses f = false) :
    encode (Instr.ofFields o f) = packFields o f := by
  rw [encode, ofFields_op, fields_ofFields, (unusedNonzero_eq_false_iff _ _).1 h]

/-- A word is OP, the reserved bits and the fields, side by side: no bit lies outside them (R110). -/
theorem packFields_fieldsOf {w : Command} {o : Op} (ho : opBits w = o.code) (h0 : res0Bits w = 0#2)
    (h1 : res1Bits w = 0#4) : packFields o (fieldsOf w) = w := by
  rw [packFields, ← ho, ← h0, ← h1]
  simp only [fieldsOf, opBits, res0Bits, res1Bits]
  iterate 9 rw [BitVec.extractLsb'_append_extractLsb'_eq_extractLsb' (by rfl)]
  exact BitVec.extractLsb'_eq_self

theorem encode_of_decode {w : Command} {i : Instr} (h : decode w = .instr i) : encode i = w := by
  obtain ⟨o, ho, h0, h1, hblank, rfl⟩ := (decode_eq_instr_iff w i).1 h
  rw [encode_ofFields hblank, packFields_fieldsOf (Op.code_of_ofCode ho).symm h0 h1]

/-- Settles O2: the decoder reads every bit of the word, as OP, as a field or as a bit that must be 0. -/
theorem encodeOfDecodeIsTheWord : Obligations.EncodeOfDecodeIsTheWord := fun _ _ => encode_of_decode

theorem decode_of_encode {w : Command} {i : Instr} (h : encode i = w) : decode w = .instr i := h ▸ decode_encode i

/-- Settles O3: each word is the encoding of the command beside it. -/
theorem exampleWordsDecode : Obligations.ExampleWordsDecode :=
  ⟨decode_of_encode rfl, decode_of_encode rfl, decode_of_encode rfl, decode_of_encode rfl, decode_of_encode rfl,
    decode_of_encode rfl, decode_of_encode rfl, decode_of_encode rfl, decode_of_encode rfl⟩

end Sys2Proof

/-! Part 2: every word is a command or is refused by name (R115, R117, R118, R120). -/

namespace Sys2Proof

/-! ### The bits of a word as numbers -/

theorem toNat_opBits (w : Command) : (opBits w).toNat = w.toNat % 64 := by
  rw [opBits, BitVec.extractLsb'_toNat, Nat.shiftRight_zero]

/-- A window of a word is 0 exactly where its value as a number is. -/
theorem extractLsb'_eq_zero_iff {n : Nat} (w : BitVec n) (k l : Nat) :
    w.extractLsb' k l = 0#l ↔ w.toNat / 2 ^ k % 2 ^ l = 0 := by
  rw [← BitVec.toNat_inj, BitVec.extractLsb'_toNat, Nat.shiftRight_eq_div_pow, BitVec.toNat_zero]

theorem res0Bits_eq_zero_iff (w : Command) : res0Bits w = 0#2 ↔ w.toNat / 64 % 4 = 0 := extractLsb'_eq_zero_iff w 6 2

theorem res1Bits_eq_zero_iff (w : Command) : res1Bits w = 0#4 ↔ w.toNat / 1048576 % 16 = 0 :=
  extractLsb'_eq_zero_iff w 20 4

/-- The assigned numbers of R118 are the codes of the opcodes. -/
theorem assigned_eq_codes : Claims.assigned = Op.all.map fun o => o.code.toNat := rfl

theorem Op.mem_all (o : Op) : o ∈ Op.all := by cases o <;> decide

theorem exists_ofCode_iff (c : BitVec 6) : (∃ o, Op.ofCode c = some o) ↔ c.toNat ∈ Claims.assigned := by
  rw [assigned_eq_codes, List.mem_map]
  constructor
  · rintro ⟨o, ho⟩
    exact ⟨o, o.mem_all, by rw [Op.code_of_ofCode ho]⟩
  · rintro ⟨o, -, hc⟩
    exact ⟨o, by rw [← BitVec.eq_of_toNat_eq hc, Op.ofCode_code]⟩

theorem exists_op_iff (w : Command) : (∃ o, Op.ofCode (opBits w) = some o) ↔ w.toNat % 64 ∈ Claims.assigned := by
  rw [exists_ofCode_iff, toNat_opBits]

/-! ### The decoder's answers, check by check -/

theorem decode_unassigned {w : Command} (h : ¬∃ o, Op.ofCode (opBits w) = some o) :
    decode w = .refused .unassignedOp := by
  have hnone : Op.ofCode (opBits w) = none := Option.eq_none_iff_forall_ne_some.2 fun o ho => h ⟨o, ho⟩
  simp only [decode, hnone]

theorem decode_reserved {w : Command} {o : Op} (ho : Op.ofCode (opBits w) = some o)
    (h : res0Bits w ≠ 0#2 ∨ res1Bits w ≠ 0#4) : decode w = .refused .reservedBits := by
  simp only [decode, ho, if_pos h]

theorem decode_blankNonzero {w : Command} {o : Op} (ho : Op.ofCode (opBits w) = some o) (h0 : res0Bits w = 0#2)
    (h1 : res1Bits w = 0#4) (h : unusedNonzero o.uses (fieldsOf w) = true) : decode w = .refused .unusedField := by
  simp [decode, ho, h0, h1, h]

/-- A refused word is no command's encoding. -/
theorem encode_ne_of_refused {w : Command} {e : DecodeError} (h : decode w = .refused e) (i : Instr) :
    encode i ≠ w := by
  rintro rfl
  rw [decode_encode] at h
  contradiction

/-- A word with an assigned opcode and no reserved bit is a command, or has a nonzero blank field and is none. -/
theorem command_or_blankNonzero {w : Command} {o : Op} (ho : Op.ofCode (opBits w) = some o) (h0 : res0Bits w = 0#2)
    (h1 : res1Bits w = 0#4) :
    (∃ i, encode i = w ∧ decode w = .instr i) ∨ ((∀ i, encode i ≠ w) ∧ decode w = .refused .unusedField) := by
  cases hblank : unusedNonzero o.uses (fieldsOf w) with
  | false =>
    have hd := (decode_eq_instr_iff w _).2 ⟨o, ho, h0, h1, hblank, rfl⟩
    exact .inl ⟨_, encode_of_decode hd, hd⟩
  | true =>
    have hd := decode_blankNonzero ho h0 h1 hblank
    exact .inr ⟨encode_ne_of_refused hd, hd⟩

/-- Settles O4: the checks on the word's numbers are the decoder's checks, in their order. -/
theorem everyWordIsACommandOrRefused : Obligations.EveryWordIsACommandOrRefused := by
  refine ⟨decode_of_encode (i := .nop) rfl, rfl, rfl, rfl, fun w => ?_⟩
  simp only [ne_eq, ← exists_op_iff, ← res0Bits_eq_zero_iff, ← res1Bits_eq_zero_iff]
  refine ⟨decode_unassigned, ?_, ?_⟩
  · rintro ⟨o, ho⟩ hres
    exact decode_reserved ho hres
  · rintro ⟨o, ho⟩ h0 h1
    exact command_or_blankNonzero ho h0 h1

end Sys2Proof

/-! Part 3: which operand values each command accepts (R116, R119; 40_modular.md R143; 44_codec.md R217). -/

namespace Sys2Proof.Machine

/-- A command without a BMEM region and without a condition of its own accepts every operand value. -/
theorem wellFormed_of_no_regions {i : Instr} (h : operandFacts i = .ofRegions []) : i.WellFormed :=
  (operandError_regions h).2 fun _ hr => absurd hr List.not_mem_nil

/-- Settles O5, one row of R119 after the other. -/
theorem operandChecksOfEveryCommand : Obligations.OperandChecksOfEveryCommand := fun d a b _ k o p =>
  ⟨wellFormed_of_no_regions rfl, wellFormed_of_no_regions rfl, wellFormed_of_no_regions rfl,
    wellFormed_of_no_regions rfl, ok_smul d a k, wellFormed_of_no_regions rfl, wellFormed_of_no_regions rfl,
    wellFormed_of_no_regions rfl, wellFormed_of_no_regions rfl, ok_gena d o, ok_sample d o k, ok_enc14 o a,
    ok_dec14 d o, ok_encr o a, ok_decr d o, ok_enca o b p, ok_deca d p o, ok_encb o a b, ok_decb d a o,
    ok_helprec d a o k, ok_recKey o a b, wellFormed_of_no_regions rfl, ok_zerob o p⟩

end Sys2Proof.Machine

/-! # Proofs of the statements about modular arithmetic (40_modular.md)

First what a command that writes one slot, or is refused, claims of the state it answers (60_exceptions.md R272, R273). -/

namespace Sys2Proof.Machine

open Claims (Completed SlotsKeptBut BytesKept RefusedWithoutEffect)

/-! ### The completion record and the slots, in the words of the claims -/

/-- FIRSTERR keeps the first failure (R45). -/
theorem recordFirst_eq_ite (o : Option Status) (c : Status) :
    recordFirst o c = if o = none ∧ c ≠ .success then some c else o := by
  cases o with
  | some f => simp
  | none => by_cases h : c = .success <;> simp [recordFirst, h]

/-- The completion record over any change of the memories. -/
theorem completed_withMemories (s : State) (p : Vector Poly 8) (m : Memory) (op : BitVec 6) (c : Status) :
    Completed s ((s.withMemories p m).complete op c) op c :=
  ⟨rfl, rfl, recordFirst_eq_ite s.firstErr c, decide_eq_true_iff, rfl, rfl, rfl, rfl, rfl, rfl, rfl, rfl, rfl, rfl, rfl⟩

theorem completed_complete (s : State) (op : BitVec 6) (c : Status) : Completed s (s.complete op c) op c :=
  completed_withMemories s s.pmem s.bmem op c

theorem completed_setSlot (s : State) (d : Slot) (p : Poly) (op : BitVec 6) (c : Status) :
    Completed s ((s.setSlot d p).complete op c) op c :=
  completed_withMemories s _ s.bmem op c

theorem slotsKeptBut_setSlot (s : State) (d : Slot) (p : Poly) (op : BitVec 6) (c : Status) :
    SlotsKeptBut s ((s.setSlot d p).complete op c) [d] := fun e he i _ => by
  have hne : d ≠ e := fun h => he (h ▸ List.mem_singleton_self d)
  rw [coeff_complete, coeff_setSlot_ne s p i hne]

/-- A command that writes slot `d` coefficient by coefficient and succeeds: the coefficients, the frame and the
completion record. -/
theorem exists_slotWritten {s : State} {i : Instr} {d : Slot} {f : Nat → Word} {op : BitVec 6}
    (h : exec i s = .next ((s.setSlot d (polyOf f)).complete op .success)) :
    ∃ t, exec i s = .next t ∧ (∀ j, j < 1024 → t.coeff d j = f j) ∧ SlotsKeptBut s t [d] ∧ BytesKept s t ∧
      Completed s t op .success :=
  ⟨_, h, fun j hj => by rw [coeff_complete, coeff_setSlot_self, nth_polyOf f hj], slotsKeptBut_setSlot s d _ op _,
    fun _ => rfl, completed_setSlot s d _ op _⟩

/-- Operands that fail the checks are refused without effect (R272). -/
theorem refusedWithoutEffect {i : Instr} (h : operandError i ≠ none) (s : State) :
    RefusedWithoutEffect i s i.op.code :=
  ⟨_, exec_refused s h, fun _ _ _ _ => rfl, fun _ => rfl, completed_complete s _ _⟩

/-! ### The reductions and the scalar product -/

/-- REDONCE, TWORED and CORR share one rule (R144, R146): what a command that ends with it answers. -/
theorem exists_slotReduced {s : State} {i : Instr} {d a : Slot} {op : BitVec 6}
    (h : exec i s = .next ((reduceSlot d a s).complete op .success)) :
    ∃ t, exec i s = .next t ∧ (∀ j, j < 1024 → (t.coeff d j).toInt = (s.coeff a j).toInt % 12289) ∧
      SlotsKeptBut s t [d] ∧ BytesKept s t ∧ Completed s t op .success := by
  obtain ⟨t, ht, hcoeff, hframe⟩ := exists_slotWritten h
  refine ⟨t, ht, fun j hj => ?_, hframe⟩
  rw [hcoeff j hj, toInt_wrap32_modq]
  rfl

/-- Settles O11: each of the three commands is the shared reduction under its own opcode. -/
theorem reductionsGiveTheCanonicalResidue : Obligations.ReductionsGiveTheCanonicalResidue := by
  intro s d a p hp
  simp only [List.mem_cons, List.not_mem_nil, or_false] at hp
  rcases hp with rfl | rfl | rfl
  · exact exists_slotReduced (exec_redonce s d a)
  · exact exists_slotReduced (exec_twored s d a)
  · exact exists_slotReduced (exec_corr s d a)

/-- Settles O12: the operand check on k decides between the wrapped product and the refusal. -/
theorem smulWrapsTheSignedProduct : Obligations.SmulWrapsTheSignedProduct := fun s d a k =>
  ⟨fun hk => exists_slotWritten (exec_smul s d a hk),
    fun hk => refusedWithoutEffect (fun hok => (ok_smul d a k).1 hok hk) s⟩

end Sys2Proof.Machine

/-! # Proofs of the statements about the transforms (41_ntt.md)

The formulas of R160 and R161 in the words of the claims, and the commands that store them (R163, R164). -/

namespace Sys2Proof.Machine

open Claims (Completed SlotsKeptBut BytesKept red rev10)

/-! ### Bit reversal (R9) -/

/-- Reversing one digit more doubles what the digits below it give and puts the new digit lowest. -/
theorem reverse_ofNat_succ (w i : Nat) :
    (BitVec.ofNat (w + 1) i).reverse.toNat = (BitVec.ofNat w i).reverse.toNat * 2 + (i.testBit w).toNat := by
  have htop : (BitVec.ofNat (w + 1) i).msb = i.testBit w := by
    rw [BitVec.msb_eq_getLsbD_last, Nat.add_sub_cancel, BitVec.getLsbD_ofNat, decide_eq_true w.lt_succ_self, Bool.true_and]
  have hlow : (BitVec.ofNat (w + 1) i).truncate w = BitVec.ofNat w i := BitVec.setWidth_ofNat_of_le (by omega) i
  rw [BitVec.reverse, BitVec.toNat_concat, htop, hlow]

/-- Digit `b` of a reversed number of `w` digits has the weight `2 ^ (w - 1 - b)`. -/
theorem toNat_reverse_ofNat (w i : Nat) :
    (BitVec.ofNat w i).reverse.toNat = ∑ b ∈ Finset.range w, (i.testBit b).toNat * 2 ^ (w - 1 - b) := by
  induction w with
  | zero => exact BitVec.toNat_of_zero_length rfl _
  | succ w ih =>
    have hdouble : ∀ b ∈ Finset.range w,
        (i.testBit b).toNat * 2 ^ (w - 1 - b) * 2 = (i.testBit b).toNat * 2 ^ (w - b) := fun b hb => by
      have hexp : w - b = w - 1 - b + 1 := by have := Finset.mem_range.1 hb; omega
      rw [hexp, pow_succ, mul_assoc]
    rw [reverse_ofNat_succ, ih, Finset.sum_mul, Finset.sum_congr rfl hdouble, Finset.sum_range_succ]
    simp

/-- The transforms' bit reversal is the reversal of a ten-bit word. -/
theorem brv10_eq_rev10 (i : Nat) : brv10 i = rev10 i := (toNat_reverse_ofNat 10 i).symm

/-! ### The formulas over a slot -/

theorem residue_s32 (s : State) (a : Slot) (j : Nat) : residue (s.s32 a j) = red (s.coeff a j) := rfl

/-- R160 over a slot. -/
theorem nttAt_s32 (s : State) (a : Slot) (i : Nat) :
    nttAt (s.s32 a) i =
      (∑ j ∈ Finset.range 1024, red (s.coeff a j) * 7 ^ ((2 * rev10 i + 1) * j)) % 12289 := by
  simp only [nttAt_eq, residue_s32, brv10_eq_rev10, Config.n, Config.psi, Config.q]

/-- R161 over a slot. -/
theorem inttAt_s32 (s : State) (a : Slot) (j : Nat) :
    inttAt (s.s32 a) j =
      (12277 * ∑ i ∈ Finset.range 1024, red (s.coeff a i) * 8778 ^ ((2 * rev10 i + 1) * j)) % 12289 := by
  simp only [inttAt_eq, residue_s32, brv10_eq_rev10, Config.n, Config.nInv, Config.psiInv, Config.q]

/-! ### The commands -/

theorem toNat_wrap32 {x : Nat} (h : x < 12289) : (wrap32 x).toNat = x := by
  rw [wrap32, BitVec.ofInt_natCast, BitVec.toNat_ofNat, Nat.mod_eq_of_lt (by omega)]

/-- A command that writes values below q into slot `d`: the slot holds those very numbers. -/
theorem exists_slotHolds {s : State} {i : Instr} {d : Slot} {f : Nat → Nat} {op : BitVec 6} (hf : ∀ j, f j < 12289)
    (h : exec i s = .next ((s.setSlot d (polyOf fun j => wrap32 (f j))).complete op .success)) :
    ∃ t, exec i s = .next t ∧ (∀ j, j < 1024 → (t.coeff d j).toNat = f j) ∧ SlotsKeptBut s t [d] ∧ BytesKept s t ∧
      Completed s t op .success := by
  obtain ⟨t, ht, hcoeff, hframe⟩ := exists_slotWritten h
  exact ⟨t, ht, fun j hj => by rw [hcoeff j hj, toNat_wrap32 (hf j)], hframe⟩

/-- Settles O13: NTTF stores the values of R160, which are below q. -/
theorem nttfEvaluatesAtOddPowersOfPsi : Obligations.NttfEvaluatesAtOddPowersOfPsi := by
  intro s d a
  simp only [← nttAt_s32]
  exact exists_slotHolds (nttAt_lt (s.s32 a)) (exec_nttf s d a)

/-- Settles O14: NTTI stores the values of R161, which are below q. -/
theorem nttiEvaluatesTheInverseSum : Obligations.NttiEvaluatesTheInverseSum := by
  intro s d a
  simp only [← inttAt_s32]
  exact exists_slotHolds (inttAt_lt (s.s32 a)) (exec_ntti s d a)

end Sys2Proof.Machine

/-! # Proofs of the statements about the pointwise products (42_pointwise.md)

PMUL and PMULADD compute over the integers and reduce once, as they store (R180, R181). -/

namespace Sys2Proof.Machine

open Claims (Completed SlotsKeptBut BytesKept)

/-- A command that writes the canonical residues of the integers `f` into slot `d`: they are read back as signed words
with nothing wrapped, whatever the size of `f j`. -/
theorem exists_slotResidues {s : State} {i : Instr} {d : Slot} {f : Nat → Int} {op : BitVec 6}
    (h : exec i s = .next ((s.setSlot d (polyOf fun j => wrap32 (modq (f j)))).complete op .success)) :
    ∃ t, exec i s = .next t ∧ (∀ j, j < 1024 → (t.coeff d j).toInt = f j % 12289) ∧ SlotsKeptBut s t [d] ∧
      BytesKept s t ∧ Completed s t op .success := by
  obtain ⟨t, ht, hcoeff, hframe⟩ := exists_slotWritten h
  have hresidue : ∀ j, j < 1024 → (t.coeff d j).toInt = f j % 12289 := fun j hj =>
    calc (t.coeff d j).toInt
      _ = (wrap32 (modq (f j))).toInt := by rw [hcoeff j hj]
      _ = modq (f j) := toInt_wrap32_modq (f j)
      _ = f j % 12289 := rfl
  exact ⟨t, ht, hresidue, hframe⟩

/-- Settles O21: both commands store residues of integers computed from the operands as they were before the write, so
no alias of the destination needs a case of its own. -/
theorem pointwiseProductsAreExactBeforeReduction : Obligations.PointwiseProductsAreExactBeforeReduction :=
  fun s d a b c => ⟨exists_slotResidues (exec_pmul s d a b), exists_slotResidues (exec_pmuladd s d a b c)⟩

end Sys2Proof.Machine

/-! # Proofs of the statements about sampling (43_sampling.md)

Part 1: what GENA and SAMPLE leave, as functions of the collaborator's answer (R190–R192; 60_exceptions.md R274). -/

namespace Sys2Proof.Machine

open Claims (Completed SlotsKeptBut BytesKept)

/-- A command that writes the whole slot `d` and ends with any status: the frame, the completion record and the
coefficients. -/
theorem exists_slotSet {s : State} {i : Instr} {d : Slot} {p : Poly} {op : BitVec 6} {c : Status}
    (h : exec i s = .next ((s.setSlot d p).complete op c)) :
    ∃ t, exec i s = .next t ∧ SlotsKeptBut s t [d] ∧ BytesKept s t ∧ Completed s t op c ∧
      ∀ j, t.coeff d j = nth p j :=
  ⟨_, h, slotsKeptBut_setSlot s d p op c, fun _ => rfl, completed_setSlot s d p op c, fun j => by
    rw [coeff_complete, coeff_setSlot_self]⟩

/-! ### GENA -/

theorem wordsInRange_iff (w : Vector Word 1024) :
    wordsInRange w = true ↔ ∀ i : Fin 1024, (nth w i).toNat < 12289 := by
  have hq : Config.q = 12289 := rfl
  simp only [wordsInRange, List.all_eq_true, decide_eq_true_iff, List.forall_mem_iff_forall_getElem,
    Vector.length_toList, Vector.getElem_toList, hq]
  exact ⟨fun h i => nth_eq_getElem w i.isLt ▸ h i i.isLt, fun h i hi => nth_eq_getElem w hi ▸ h ⟨i, hi⟩⟩

theorem wordsInRange_eq_false_iff (w : Vector Word 1024) :
    wordsInRange w = false ↔ ∃ i : Fin 1024, 12289 ≤ (nth w i).toNat := by
  rw [← Bool.not_eq_true, wordsInRange_iff]
  simp only [not_forall, Nat.not_lt]

/-- The status and the polynomial GENA leaves for an answer of the collaborator (R190, R191, R274). -/
def genaResult (resp : Status × Vector Word 1024) : Status × Poly :=
  if resp.1 ≠ .success then (resp.1, zeroPoly)
  else if wordsInRange resp.2 then (.success, resp.2)
  else (.genericError, zeroPoly)

theorem genaResult_failure {resp : Status × Vector Word 1024} (h : resp.1 ≠ .success) :
    genaResult resp = (resp.1, zeroPoly) := if_pos h

theorem genaResult_range {resp : Status × Vector Word 1024} (h : resp.1 = .success)
    (hw : wordsInRange resp.2 = false) : genaResult resp = (.genericError, zeroPoly) := by simp [genaResult, h, hw]

theorem genaResult_words {resp : Status × Vector Word 1024} (h : resp.1 = .success)
    (hw : wordsInRange resp.2 = true) : genaResult resp = (.success, resp.2) := by simp [genaResult, h, hw]

/-- The completion record hides the XOF words that GENA held. -/
theorem complete_genaRule (d : Slot) (resp : Status × Vector Word 1024) (s : State) (op : BitVec 6) :
    (genaRule d resp s).2.complete op (genaRule d resp s).1 =
      (s.setSlot d (genaResult resp).2).complete op (genaResult resp).1 := by
  by_cases h : resp.1 = .success
  · cases hw : wordsInRange resp.2 with
    | true => rw [genaResult_words h hw]; simp only [genaRule, h, hw]; rfl
    | false => rw [genaResult_range h hw]; simp only [genaRule, h, hw]; rfl
  · rw [genaResult_failure h, genaRule, if_pos h]; rfl

theorem exec_gena_result (s : State) (d : Slot) {seed : Offset} (h : seed.toNat + 32 ≤ 8192) :
    exec (.gena d seed) s =
      .next ((s.setSlot d (genaResult (Config.xof (s.seedAt seed) 1024)).2).complete 0x10#6
        (genaResult (Config.xof (s.seedAt seed) 1024)).1) := by
  rw [exec_gena s d h, complete_genaRule]

/-- The three branches of R190, R191 and R274, for any answer of the collaborator. -/
theorem genaResult_branches {s t : State} {d : Slot} {op : BitVec 6} {r : Status × Vector Word 1024}
    (hrecord : Completed s t op (genaResult r).1) (hcoeff : ∀ j, t.coeff d j = nth (genaResult r).2 j) :
    if r.1 ≠ .success then Completed s t op r.1 ∧ ∀ i, i < 1024 → t.coeff d i = 0
    else if ∃ i : Fin 1024, 12289 ≤ (nth r.2 i).toNat then
      Completed s t op .genericError ∧ ∀ i, i < 1024 → t.coeff d i = 0
    else Completed s t op .success ∧ ∀ i, i < 1024 → t.coeff d i = nth r.2 i := by
  by_cases hok : r.1 = .success
  · rw [if_neg (not_not.2 hok)]
    simp only [← wordsInRange_eq_false_iff]
    cases hw : wordsInRange r.2 with
    | false =>
      rw [genaResult_range hok hw] at hrecord hcoeff
      exact ⟨hrecord, fun i _ => (hcoeff i).trans (nth_zeroPoly i)⟩
    | true =>
      rw [genaResult_words hok hw] at hrecord hcoeff
      exact ⟨hrecord, fun i _ => hcoeff i⟩
  · rw [if_pos hok]
    rw [genaResult_failure hok] at hrecord hcoeff
    exact ⟨hrecord, fun i _ => (hcoeff i).trans (nth_zeroPoly i)⟩

/-- Settles O23: GENA writes its slot once, with what the collaborator's answer decides. -/
theorem genaTakesTheWordsOrFails : Obligations.GenaTakesTheWordsOrFails := by
  intro s d seed
  refine ⟨fun hseed => ?_, fun hseed => refusedWithoutEffect (fun hok => ?_) s⟩
  · obtain ⟨t, ht, hslots, hbytes, hrecord, hcoeff⟩ := exists_slotSet (exec_gena_result s d hseed)
    exact ⟨t, ht, hslots, hbytes, genaResult_branches hrecord hcoeff⟩
  · exact absurd ((ok_gena d seed).1 hok) hseed.not_ge

/-! ### SAMPLE -/

theorem samplePoly_failure {resp : Status × Bytes 3072} (h : resp.1 ≠ .success) : samplePoly resp = zeroPoly :=
  if_neg h

/-- The completion record hides the stream and the accumulators that SAMPLE held. -/
theorem complete_sampleRule (d : Slot) (resp : Status × Bytes 3072) (s : State) (op : BitVec 6) :
    (sampleRule d resp s).2.complete op (sampleRule d resp s).1 =
      (s.setSlot d (samplePoly resp)).complete op resp.1 := by
  by_cases h : resp.1 = .success
  · simp only [sampleRule, samplePoly, h]; rfl
  · rw [samplePoly_failure h, sampleRule, if_pos h]; rfl

theorem exec_sample_setSlot (s : State) (d : Slot) {seed : Offset} (k : Imm8) (h : seed.toNat + 32 ≤ 8192) :
    exec (.sample d seed k) s =
      .next ((s.setSlot d (samplePoly (Config.stream (s.seedAt seed) (sampleNonce k) 3072))).complete 0x11#6
        (Config.stream (s.seedAt seed) (sampleNonce k) 3072).1) := by
  rw [exec_sample s d k h, complete_sampleRule]

end Sys2Proof.Machine

/-! Part 2: the closed form of SAMPLE (R192, R193). The accumulators of R192 count the bits of four bytes at once, one count
to a byte; no count exceeds 12, so none carries into the next. -/

namespace Sys2Proof.Machine

open Claims (Completed c1 c2 popcount)

/-! ### Counting bits -/

/-- How many of the bits start, …, start+count-1 of a byte are 1. -/
def bitCount (b : Byte) (start count : Nat) : Nat :=
  ((List.range count).map fun j => (b.getLsbD (start + j)).toNat).sum

@[simp] theorem bitCount_zero (b : Byte) (start : Nat) : bitCount b start 0 = 0 := rfl

theorem bitCount_succ (b : Byte) (start n : Nat) :
    bitCount b start (n + 1) = bitCount b start n + (b.getLsbD (start + n)).toNat := by
  simp [bitCount, List.range_succ]

theorem bitCount_le (b : Byte) (start count : Nat) : bitCount b start count ≤ count := by
  induction count with
  | zero => exact le_rfl
  | succ n ih =>
    rw [bitCount_succ]
    exact Nat.add_le_add ih (Bool.toNat_le _)

theorem popcount_eq (b : Byte) : popcount b = bitCount b 0 8 := by simp only [popcount, bitCount, Nat.zero_add]

theorem popcount_lowNibble (b : Byte) : popcount (b &&& 0x0F#8) = bitCount b 0 4 := by
  simp [popcount, bitCount, List.range_succ]

theorem popcount_highNibble (b : Byte) : popcount (b >>> 4) = bitCount b 4 4 := by
  simp [popcount, bitCount, List.range_succ]

/-! ### Four counts in a word -/

/-- The word that holds the number `c m` in byte `m`. -/
def lanes (c : Nat → Nat) : Word := BitVec.ofNat 32 (c 0 + 256 * c 1 + 65536 * c 2 + 16777216 * c 3)

@[simp] theorem lanes_zero : lanes (fun _ => 0) = 0#32 := rfl

theorem lanes_add (c d : Nat → Nat) : lanes c + lanes d = lanes fun m => c m + d m := by
  simp only [lanes, ← BitVec.ofNat_add]
  congr 1
  ring

theorem toNat_byteOf_lanes {c : Nat → Nat} (hc : ∀ m, c m < 256) {m : Nat} (hm : m < 4) :
    (byteOf (lanes c) m).toNat = c m := by
  have h0 := hc 0
  have h1 := hc 1
  have h2 := hc 2
  have h3 := hc 3
  rw [byteOf, BitVec.extractLsb'_toNat, lanes, BitVec.toNat_ofNat, Nat.shiftRight_eq_div_pow]
  interval_cases m <;> omega

theorem le32_eq_lanes (b : Nat → Byte) : le32 (b 0) (b 1) (b 2) (b 3) = lanes fun m => (b m).toNat := by
  apply BitVec.eq_of_toNat_eq
  simp only [le32, lanes, toNat_append_eq, BitVec.toNat_ofNat]
  omega

/-! ### The accumulators -/

theorem getLsbD_lowBits {n : Nat} (hn : n < 32) : (0x01010101#32).getLsbD n = decide (n % 8 = 0) := by
  decide +revert

theorem toNat_lowBit (b : Byte) (j : Nat) : ((b >>> j) &&& 1#8).toNat = (b.getLsbD j).toNat := by
  rw [BitVec.toNat_and, BitVec.toNat_ushiftRight, BitVec.getLsbD, Nat.toNat_testBit, Nat.shiftRight_eq_div_pow]
  exact Nat.and_one_is_mod _

/-- Bit `j` of each byte of a word, one to a byte. -/
theorem bitOfEachByte (b : Nat → Byte) {j : Nat} (hj : j < 8) :
    (le32 (b 0) (b 1) (b 2) (b 3) >>> j) &&& 0x01010101#32 = lanes fun m => ((b m).getLsbD j).toNat := by
  simp only [← toNat_lowBit]
  rw [← le32_eq_lanes fun m => (b m >>> j) &&& 1#8]
  apply BitVec.eq_of_getLsbD_eq
  intro n hn
  rw [littleEndian_le32 (fun m => (b m >>> j) &&& 1#8) n hn]
  simp only [BitVec.getLsbD_and, BitVec.getLsbD_ushiftRight, getLsbD_lowBits hn, BitVec.getLsbD_one]
  by_cases h : n % 8 = 0
  · have hbyte : (j + n) / 8 = n / 8 := by omega
    have hbit : (j + n) % 8 = j + n % 8 := by omega
    rw [littleEndian_le32 b (j + n) (by omega), hbyte, hbit]
    simp [h]
  · simp [h]

/-- A loop of R192 adds to each byte of the accumulator how many of the bits it visits are 1. -/
theorem addBits_lanes (c : Nat → Nat) (b : Nat → Byte) (start : Nat) {count : Nat} (h : start + count ≤ 8) :
    addBits (lanes c) (le32 (b 0) (b 1) (b 2) (b 3)) start count = lanes fun m => c m + bitCount (b m) start count := by
  induction count with
  | zero => rfl
  | succ n ih =>
    have hprev := ih (by omega)
    unfold addBits at hprev ⊢
    rw [List.range_succ, List.foldl_append, hprev, List.foldl_cons, List.foldl_nil, bitOfEachByte b (by omega),
      lanes_add]
    simp only [bitCount_succ, Nat.add_assoc]

/-- An accumulator of R192: both loops, over the bytes `b` and over the half bytes `e`. -/
theorem toNat_byteOf_addBits (b e : Nat → Byte) {start m : Nat} (h : start + 4 ≤ 8) (hm : m < 4) :
    (byteOf
      (addBits (addBits 0#32 (le32 (b 0) (b 1) (b 2) (b 3)) 0 8) (le32 (e 0) (e 1) (e 2) (e 3)) start 4) m).toNat =
      bitCount (b m) 0 8 + bitCount (e m) start 4 := by
  have hlt : ∀ k, 0 + bitCount (b k) 0 8 + bitCount (e k) start 4 < 256 := fun k => by
    have := bitCount_le (b k) 0 8
    have := bitCount_le (e k) start 4
    omega
  rw [← lanes_zero, addBits_lanes _ b 0 (by omega), addBits_lanes _ e start h, toNat_byteOf_lanes hlt hm,
    Nat.zero_add]

/-- The bytes of a word of the sampler stream (R82, R192). -/
def streamByte (st : Bytes 3072) (k m : Nat) : Byte := nth st (4 * k + m)

theorem streamWord_eq (st : Bytes 3072) (k : Nat) :
    streamWord st k = le32 (streamByte st k 0) (streamByte st k 1) (streamByte st k 2) (streamByte st k 3) := rfl

/-- A word of the second or the third part of the stream: its bytes lie `o` behind those of word `i`. -/
theorem streamByte_add (st : Bytes 3072) {k o : Nat} (i m : Nat) (h : 4 * k = o) :
    streamByte st (i + k) m = nth st (o + 4 * i + m) := by
  rw [streamByte, mul_add, h, Nat.add_comm (4 * i) o]

/-- Byte `m` of acc1 is the count c1(m) (R193). -/
theorem byteOf_sampleAcc1 (st : Bytes 3072) (i : Nat) {m : Nat} (hm : m < 4) :
    ((byteOf (sampleAcc1 st i) m).toNat : Int) = c1 st i m := by
  rw [sampleAcc1, streamWord_eq, streamWord_eq, toNat_byteOf_addBits (streamByte st i) _ (by omega) hm,
    streamByte_add st i m (o := 2048) rfl, Nat.cast_add, c1, popcount_eq, popcount_lowNibble]
  rfl

/-- Byte `m` of acc2 is the count c2(m) (R193). -/
theorem byteOf_sampleAcc2 (st : Bytes 3072) (i : Nat) {m : Nat} (hm : m < 4) :
    ((byteOf (sampleAcc2 st i) m).toNat : Int) = c2 st i m := by
  rw [sampleAcc2, streamWord_eq, streamWord_eq, toNat_byteOf_addBits (streamByte st (i + 256)) _ (by omega) hm,
    streamByte_add st i m (o := 1024) rfl, streamByte_add st i m (o := 2048) rfl, Nat.cast_add, c2, popcount_eq,
    popcount_highNibble]

/-! ### The coefficients -/

theorem byteDiff_sampleAcc1 (st : Bytes 3072) (i : Nat) {m : Nat} (hm : m + 1 < 4) :
    byteDiff (sampleAcc1 st i) m = c1 st i m - c1 st i (m + 1) := by
  rw [byteDiff, byteOf_sampleAcc1 st i (by omega), byteOf_sampleAcc1 st i hm]

theorem byteDiff_sampleAcc2 (st : Bytes 3072) (i : Nat) {m : Nat} (hm : m + 1 < 4) :
    byteDiff (sampleAcc2 st i) m = c2 st i m - c2 st i (m + 1) := by
  rw [byteDiff, byteOf_sampleAcc2 st i (by omega), byteOf_sampleAcc2 st i hm]

/-- The lower half of the coefficients comes from acc1, two to a block (R192). -/
theorem sampleCoeff_low (st : Bytes 3072) {i p : Nat} (hi : i < 256) (hp : p < 2) :
    sampleCoeff st (2 * i + p) = c1 st i (2 * p) - c1 st i (2 * p + 1) := by
  have hlow : 2 * i + p < 512 := by omega
  have hblock : (2 * i + p) / 2 = i := by omega
  have hpart : (2 * i + p) % 2 = p := by omega
  rw [← byteDiff_sampleAcc1 st i (by omega)]
  simp only [sampleCoeff, if_pos hlow, hblock, hpart]
  interval_cases p <;> rfl

/-- The upper half of the coefficients comes from acc2, two to a block (R192). -/
theorem sampleCoeff_high (st : Bytes 3072) (i : Nat) {p : Nat} (hp : p < 2) :
    sampleCoeff st (2 * i + (512 + p)) = c2 st i (2 * p) - c2 st i (2 * p + 1) := by
  have hhigh : ¬2 * i + (512 + p) < 512 := by omega
  have hblock : (2 * i + (512 + p) - 512) / 2 = i := by omega
  have hpart : (2 * i + (512 + p)) % 2 = p := by omega
  rw [← byteDiff_sampleAcc2 st i (by omega)]
  simp only [sampleCoeff, if_neg hhigh, hblock, hpart]
  interval_cases p <;> rfl

theorem byteDiff_bounds (x : Word) (m : Nat) : -256 < byteDiff x m ∧ byteDiff x m < 256 := by
  have := (byteOf x m).isLt
  have := (byteOf x (m + 1)).isLt
  unfold byteDiff
  omega

theorem sampleCoeff_bounds (st : Bytes 3072) (k : Nat) : -256 < sampleCoeff st k ∧ sampleCoeff st k < 256 := by
  simp only [sampleCoeff]
  by_cases h : k % 2 = 0
  · rw [if_pos h]; exact byteDiff_bounds _ 0
  · rw [if_neg h]; exact byteDiff_bounds _ 2

/-- A sample, stored and read back as a signed word, is itself. -/
theorem toInt_samplePoly {resp : Status × Bytes 3072} (h : resp.1 = .success) {k : Nat} (hk : k < 1024) :
    (nth (samplePoly resp) k).toInt = sampleCoeff resp.2 k := by
  have hbounds := sampleCoeff_bounds resp.2 k
  rw [samplePoly, if_pos h, nth_polyOf _ hk, toInt_wrap32 (by omega) (by omega)]

/-- The closed form of R193 where the collaborator succeeded, else the branch of R274, for any answer. -/
theorem samplePoly_branches {s t : State} {d : Slot} {op : BitVec 6} {r : Status × Bytes 3072}
    (hrecord : Completed s t op r.1) (hcoeff : ∀ j, t.coeff d j = nth (samplePoly r) j) :
    if r.1 ≠ .success then Completed s t op r.1 ∧ ∀ i, i < 1024 → t.coeff d i = 0
    else Completed s t op .success ∧ ∀ i, i < 256 →
      (t.coeff d (2 * i)).toInt = c1 r.2 i 0 - c1 r.2 i 1 ∧
      (t.coeff d (2 * i + 1)).toInt = c1 r.2 i 2 - c1 r.2 i 3 ∧
      (t.coeff d (2 * i + 512)).toInt = c2 r.2 i 0 - c2 r.2 i 1 ∧
      (t.coeff d (2 * i + 513)).toInt = c2 r.2 i 2 - c2 r.2 i 3 := by
  by_cases hok : r.1 = .success
  · rw [if_neg (not_not.2 hok)]
    have hsample : ∀ j, j < 1024 → (t.coeff d j).toInt = sampleCoeff r.2 j := fun j hj => by
      rw [hcoeff, toInt_samplePoly hok hj]
    refine ⟨hok ▸ hrecord, fun i hi => ⟨?_, ?_, ?_, ?_⟩⟩
    · exact (hsample _ (by omega)).trans (sampleCoeff_low r.2 (p := 0) hi (by omega))
    · exact (hsample _ (by omega)).trans (sampleCoeff_low r.2 (p := 1) hi (by omega))
    · exact (hsample _ (by omega)).trans (sampleCoeff_high r.2 i (p := 0) (by omega))
    · exact (hsample _ (by omega)).trans (sampleCoeff_high r.2 i (p := 1) (by omega))
  · rw [if_pos hok]
    exact ⟨hrecord, fun i _ => by rw [hcoeff, samplePoly_failure hok, nth_zeroPoly]; rfl⟩

/-- Settles O24: SAMPLE writes its slot once, with the samples of the collaborator's stream or with zeros. -/
theorem sampleCountsStreamBits : Obligations.SampleCountsStreamBits := by
  intro s d seed k
  refine ⟨fun hseed => ?_, fun hseed => refusedWithoutEffect (fun hok => ?_) s⟩
  · obtain ⟨t, ht, hslots, hbytes, hrecord, hcoeff⟩ := exists_slotSet (exec_sample_setSlot s d k hseed)
    exact ⟨t, ht, hslots, hbytes, samplePoly_branches hrecord hcoeff⟩
  · exact absurd ((ok_sample d seed k).1 hok) hseed.not_ge

end Sys2Proof.Machine

/-! # Proofs of the statements about the codec (44_codec.md)

Part 1: the two packings bit by bit (R200, R201). A packed sequence is one long row of bits, cut into bytes on one
side and into the fields of the coefficients on the other. -/

namespace Sys2Proof.Machine

/-! ### Fields of one width side by side -/

/-- `x` is the low `w` bits of `d 0`, `d 1`, … side by side, `d 0` lowest. -/
def FieldRow (w : Nat) {m v : Nat} (x : BitVec m) (d : Nat → BitVec v) : Prop :=
  ∀ n, n < m → x.getLsbD n = (d (n / w)).getLsbD (n % w)

theorem fieldRow_single (w : Nat) {v : Nat} (d : Nat → BitVec v) : FieldRow w ((d 0).setWidth w) d := fun n hn => by
  rw [BitVec.getLsbD_setWidth, decide_eq_true hn, Bool.true_and, Nat.div_eq_of_lt hn, Nat.mod_eq_of_lt hn]

/-- A field put below a row is the field of number 0. -/
theorem FieldRow.append {w m v : Nat} (hw : 0 < w) {x : BitVec m} {d : Nat → BitVec v}
    (h : FieldRow w x fun k => d (k + 1)) : FieldRow w (x ++ (d 0).setWidth w) d := fun n hn => by
  rw [BitVec.getLsbD_append]
  split
  · next hlo => exact fieldRow_single w d n hlo
  · next hhi =>
    have hge : w ≤ n := Nat.le_of_not_lt hhi
    rw [Nat.div_eq_sub_div hw hge, Nat.mod_eq_sub_mod hge]
    exact h (n - w) (by omega)

/-- Both packers put four fields side by side (R200, R201). -/
theorem fieldRow_four {w v : Nat} (hw : 0 < w) (d : Nat → BitVec v) :
    FieldRow w ((d 3).setWidth w ++ (d 2).setWidth w ++ (d 1).setWidth w ++ (d 0).setWidth w) d :=
  have h3 : FieldRow w ((d 3).setWidth w) fun k => d (k + 3) := fieldRow_single w fun k => d (k + 3)
  have h2 : FieldRow w ((d 3).setWidth w ++ (d 2).setWidth w) fun k => d (k + 2) :=
    h3.append hw (d := fun k => d (k + 2))
  have h1 : FieldRow w ((d 3).setWidth w ++ (d 2).setWidth w ++ (d 1).setWidth w) fun k => d (k + 1) :=
    h2.append hw (d := fun k => d (k + 1))
  h1.append hw

/-! ### Packing -/

/-- Bit `n` of Pack14 is bit `n mod 14` of coefficient `n div 14` (R200). -/
theorem getLsbD_pack14 (p : Poly) {n : Nat} (hn : n < 14336) :
    (nth (pack14 p) (n / 8)).getLsbD (n % 8) = (nth p (n / 14)).getLsbD (n % 14) := by
  have hgroup : n / 8 / 7 = n / 56 := by omega
  have hplace : 8 * (n / 8 % 7) + n % 8 = n % 56 := by omega
  have hcoeff : 4 * (n / 56) + n % 56 / 14 = n / 14 := by omega
  have hbit : n % 56 % 14 = n % 14 := by omega
  calc (nth (pack14 p) (n / 8)).getLsbD (n % 8)
    _ = (packGroup p (n / 56)).getLsbD (n % 56) := by
      rw [pack14, nth_tabulate _ (by omega), BitVec.getLsbD_extractLsb', decide_eq_true (by omega), Bool.true_and,
        hgroup, hplace]
    _ = (nth p (4 * (n / 56) + n % 56 / 14)).getLsbD (n % 56 % 14) :=
      fieldRow_four (by omega) (fun k => nth p (4 * (n / 56) + k)) (n % 56) (by omega)
    _ = (nth p (n / 14)).getLsbD (n % 14) := by rw [hcoeff, hbit]

/-- Bit `n` of PackR is bit `n mod 2` of value `n div 2` (R201). -/
theorem getLsbD_packR (p : Poly) {n : Nat} (hn : n < 2048) :
    (nth (packR p) (n / 8)).getLsbD (n % 8) = (nth p (n / 2)).getLsbD (n % 2) := by
  have hvalue : 4 * (n / 8) + n % 8 / 2 = n / 2 := by omega
  have hbit : n % 8 % 2 = n % 2 := by omega
  rw [packR, nth_tabulate _ (by omega), ← hvalue, ← hbit]
  exact fieldRow_four (by omega) (fun k => nth p (4 * (n / 8) + k)) (n % 8) (by omega)

/-! ### Unpacking -/

/-- A field of a row, alone in a word. -/
theorem getLsbD_fieldWord {m : Nat} (x : BitVec m) (k : Nat) {w : Nat} (hw : w ≤ 32) (b : Nat) :
    ((x.extractLsb' k w).setWidth 32).getLsbD b = (decide (b < w) && x.getLsbD (k + b)) := by
  rw [BitVec.getLsbD_setWidth, BitVec.getLsbD_extractLsb']
  by_cases hb : b < w
  · simp [hb, Nat.lt_of_lt_of_le hb hw]
  · simp [hb]

theorem littleEndian_unpackGroup (v : Bytes 1792) (g : Nat) :
    LittleEndian (unpackGroup v g) fun k => nth v (7 * g + k) :=
  have h3 : LittleEndian (le32 (nth v (7 * g + 3)) (nth v (7 * g + 4)) (nth v (7 * g + 5)) (nth v (7 * g + 6)))
      fun k => nth v (7 * g + (k + 3)) := littleEndian_le32 fun k => nth v (7 * g + (k + 3))
  ((h3.append (b := fun k => nth v (7 * g + (k + 2)))).append (b := fun k => nth v (7 * g + (k + 1)))).append
    (b := fun k => nth v (7 * g + k))

/-- Bit `b` of a coefficient of Unpack14, from bytes that read as `f` (R200). -/
theorem getLsbD_unpack14 {v : Bytes 1792} {f : Nat → Byte} (hv : ∀ k, k < 1792 → nth v k = f k) {i : Nat}
    (hi : i < 1024) (b : Nat) :
    (nth (unpack14 v) i).getLsbD b = (decide (b < 14) && (f ((14 * i + b) / 8)).getLsbD ((14 * i + b) % 8)) := by
  rw [unpack14, nth_polyOf _ hi, getLsbD_fieldWord _ _ (by omega)]
  by_cases hb : b < 14
  · have hbyte : 7 * (i / 4) + (14 * (i % 4) + b) / 8 = (14 * i + b) / 8 := by omega
    have hbit : (14 * (i % 4) + b) % 8 = (14 * i + b) % 8 := by omega
    have hfield : (unpackGroup v (i / 4)).getLsbD (14 * (i % 4) + b) =
        (nth v (7 * (i / 4) + (14 * (i % 4) + b) / 8)).getLsbD ((14 * (i % 4) + b) % 8) :=
      littleEndian_unpackGroup v (i / 4) _ (by omega)
    rw [hfield, hbyte, hbit, hv _ (by omega)]
  · simp [hb]

/-- Bit `b` of a value of UnpackR, from bytes that read as `f` (R201). -/
theorem getLsbD_unpackR {v : Bytes 256} {f : Nat → Byte} (hv : ∀ k, k < 256 → nth v k = f k) {i : Nat}
    (hi : i < 1024) (b : Nat) :
    (nth (unpackR v) i).getLsbD b = (decide (b < 2) && (f ((2 * i + b) / 8)).getLsbD ((2 * i + b) % 8)) := by
  rw [unpackR, nth_polyOf _ hi, getLsbD_fieldWord _ _ (by omega)]
  by_cases hb : b < 2
  · have hbyte : (2 * i + b) / 8 = i / 4 := by omega
    have hbit : (2 * i + b) % 8 = 2 * (i % 4) + b := by omega
    rw [hbyte, hbit, hv _ (by omega)]
  · simp [hb]

/-! ### The parts of a message (R214–R217) -/

theorem nth_messageA_packed (b : Poly) (seed : Bytes 32) {k : Nat} (hk : k < 1792) :
    nth (messageA b seed) k = nth (pack14 b) k := nth_append_left _ _ hk

theorem nth_messageA_seed (b : Poly) (seed : Bytes 32) {j : Nat} (hj : j < 32) :
    nth (messageA b seed) (1792 + j) = nth seed j := nth_append_right _ _ hj

theorem nth_messageB_packed (u r : Poly) {k : Nat} (hk : k < 1792) :
    nth (messageB u r) k = nth (pack14 u) k := nth_append_left _ _ hk

theorem nth_messageB_hints (u r : Poly) {k : Nat} (hk : k < 256) :
    nth (messageB u r) (1792 + k) = nth (packR r) k := nth_append_right _ _ hk

theorem nth_slice_memRead (s : State) (src : Nat) {m off n k : Nat} (hk : k < n) (h : off + n ≤ m) :
    nth (slice (s.memRead src m) off n) k = s.byteAt (src + off + k) := by
  rw [nth_slice _ _ hk, nth_memRead _ _ (by omega), Nat.add_assoc]

end Sys2Proof.Machine

/-! Part 2: the commands. Each writes values it has computed from the memories as they were before the command, so that
no overlap of source and destination needs a case of its own (R210–R217). -/

namespace Sys2Proof.Machine

open Claims (Completed SlotsKeptBut BytesKeptBut)

/-! ### Commands that write a byte range -/

theorem byteAt_memWrite_of_lt (s : State) (off : Nat) {n k : Nat} (v : Bytes n) (hk : k < n) :
    (s.memWrite off v).byteAt (off + k) = nth v k := by
  rw [byteAt_memWrite, if_pos (by omega), Nat.add_sub_cancel_left]

theorem bytesKeptBut_memWrite (s : State) (off : Nat) {n : Nat} (v : Bytes n) (op : BitVec 6) (c : Status) :
    BytesKeptBut s ((s.memWrite off v).complete op c) off n := fun a ha => by
  rw [byteAt_complete, byteAt_memWrite, if_neg ha]

/-- A command that writes the bytes `v` and succeeds: the bytes, the frame and the completion record. -/
theorem exists_bytesWritten {s : State} {i : Instr} {off n : Nat} {v : Bytes n} {op : BitVec 6}
    (h : exec i s = .next ((s.memWrite off v).complete op .success)) :
    ∃ t, exec i s = .next t ∧ (∀ k, k < n → t.byteAt (off + k) = nth v k) ∧ BytesKeptBut s t off n ∧
      SlotsKeptBut s t [] ∧ Completed s t op .success :=
  ⟨_, h, fun _ hk => byteAt_memWrite_of_lt s off v hk, bytesKeptBut_memWrite s off v op _, fun _ _ _ _ => rfl,
    completed_withMemories s s.pmem _ op _⟩

/-- Settles O27: the bytes written are Pack14 of the slot. -/
theorem enc14LaysOutTheLowBits : Obligations.Enc14LaysOutTheLowBits := by
  intro s dst a
  refine ⟨fun h => ?_, fun h => refusedWithoutEffect (fun hok => h.not_ge ((ok_enc14 dst a).1 hok)) s⟩
  obtain ⟨t, ht, hbytes, hframe⟩ := exists_bytesWritten (exec_enc14 s a h)
  exact ⟨t, ht, fun n hn => by rw [hbytes _ (by omega)]; exact getLsbD_pack14 _ hn, hframe⟩

/-- Settles O28: the slot written is Unpack14 of the byte range. -/
theorem dec14ReadsFourteenBits : Obligations.Dec14ReadsFourteenBits := by
  intro s d src
  refine ⟨fun h => ?_, fun h => refusedWithoutEffect (fun hok => h.not_ge ((ok_dec14 d src).1 hok)) s⟩
  obtain ⟨t, ht, hslots, hbytes, hrecord, hcoeff⟩ := exists_slotSet (exec_dec14 s d h)
  refine ⟨t, ht, fun i b hi _ => ?_, hslots, hbytes, hrecord⟩
  rw [hcoeff, getLsbD_unpack14 (fun k hk => nth_memRead s src.toNat hk) hi]

/-- Settles O29: ENCR writes PackR of the slot, DECR writes UnpackR of the byte range. -/
theorem encrAndDecrPackTwoBits : Obligations.EncrAndDecrPackTwoBits := by
  intro s d o
  refine ⟨fun h => ⟨?_, ?_⟩, fun h => ⟨?_, ?_⟩⟩
  · exact refusedWithoutEffect (fun hok => h.not_ge ((ok_encr o d).1 hok)) s
  · exact refusedWithoutEffect (fun hok => h.not_ge ((ok_decr d o).1 hok)) s
  · obtain ⟨t, ht, hbytes, hframe⟩ := exists_bytesWritten (exec_encr s d h)
    exact ⟨t, ht, fun n hn => by rw [hbytes _ (by omega)]; exact getLsbD_packR _ hn, hframe⟩
  · obtain ⟨t, ht, hslots, hbytes, hrecord, hcoeff⟩ := exists_slotSet (exec_decr s d h)
    refine ⟨t, ht, fun i b hi _ => ?_, hslots, hbytes, hrecord⟩
    rw [hcoeff, getLsbD_unpackR (fun k hk => nth_memRead s o.toNat hk) hi]

/-! ### Message A -/

/-- Settles O30: the bytes written are message A, its seed part read before the write. -/
theorem encaWritesPackedPolynomialThenSeed : Obligations.EncaWritesPackedPolynomialThenSeed := by
  intro s dst seed b
  refine ⟨fun h h' => ?_, fun h => refusedWithoutEffect (fun hok => ?_) s⟩
  · obtain ⟨t, ht, hbytes, hframe⟩ := exists_bytesWritten (exec_enca s b h h')
    refine ⟨t, ht, fun n hn => ?_, fun j hj => ?_, hframe⟩
    · rw [hbytes _ (by omega), nth_messageA_packed _ _ (by omega)]; exact getLsbD_pack14 _ hn
    · rw [Nat.add_assoc, hbytes _ (by omega), nth_messageA_seed _ _ hj, nth_memRead _ _ hj]
  · obtain ⟨hdst, hseed⟩ := (ok_enca dst b seed).1 hok
    omega

/-- Settles O31: both parts come from the message as it was read, whatever of it the seed destination overlaps. -/
theorem decaReadsPolynomialAndSeed : Obligations.DecaReadsPolynomialAndSeed := by
  intro s d sd src
  refine ⟨fun h h' => ?_, fun h => refusedWithoutEffect (fun hok => ?_) s⟩
  · refine ⟨_, exec_deca s d h h', fun i b hi _ => ?_, fun j hj => ?_, slotsKeptBut_setSlot s d _ 0x1D#6 .success,
      bytesKeptBut_memWrite (s.setSlot d _) sd.toNat _ 0x1D#6 .success, completed_withMemories s _ _ 0x1D#6 .success⟩
    · rw [coeff_complete, coeff_memWrite, coeff_setSlot_self,
        getLsbD_unpack14 (fun k hk => nth_slice_memRead s src.toNat hk (by omega)) hi, Nat.add_zero]
    · rw [byteAt_complete, byteAt_memWrite_of_lt _ _ _ hj, nth_slice_memRead s src.toNat hj (by omega)]
  · obtain ⟨hsrc, hsd⟩ := (ok_deca d sd src).1 hok
    omega

/-! ### Message B -/

/-- Settles O32: the bytes written are message B of the two slots, which may be one. -/
theorem encbWritesPackedPolynomialThenHints : Obligations.EncbWritesPackedPolynomialThenHints := by
  intro s dst u r
  refine ⟨fun h => ?_, fun h => refusedWithoutEffect (fun hok => h.not_ge ((ok_encb dst u r).1 hok)) s⟩
  obtain ⟨t, ht, hbytes, hframe⟩ := exists_bytesWritten (exec_encb s u r h)
  refine ⟨t, ht, fun n hn => ?_, fun n hn => ?_, hframe⟩
  · rw [hbytes _ (by omega), nth_messageB_packed _ _ (by omega)]; exact getLsbD_pack14 _ hn
  · rw [Nat.add_assoc, hbytes _ (by omega), nth_messageB_hints _ _ (by omega)]; exact getLsbD_packR _ hn

/-- The frame of two slots written one after the other. -/
theorem slotsKeptBut_setSlot_setSlot (s : State) (d e : Slot) (p q : Poly) (op : BitVec 6) (c : Status) :
    SlotsKeptBut s (((s.setSlot d p).setSlot e q).complete op c) [d, e] := fun x hx i _ => by
  obtain ⟨hd, he⟩ : x ≠ d ∧ x ≠ e := by simpa using hx
  rw [coeff_complete, coeff_setSlot_ne _ _ _ he.symm, coeff_setSlot_ne _ _ _ hd.symm]

/-- Settles O33: the slots are different, so the write of r leaves u. -/
theorem decbReadsPolynomialAndHints : Obligations.DecbReadsPolynomialAndHints := by
  intro s u r src
  refine ⟨fun h hne => ?_, fun h => refusedWithoutEffect (fun hok => ?_) s⟩
  · refine ⟨_, exec_decb s h hne, fun i b hi _ => ?_, fun i b hi _ => ?_,
      slotsKeptBut_setSlot_setSlot s u r _ _ _ _, fun _ => rfl, completed_withMemories s _ s.bmem 0x1F#6 _⟩
    · rw [coeff_complete, coeff_setSlot_ne _ _ _ hne.symm, coeff_setSlot_self,
        getLsbD_unpack14 (fun k hk => nth_slice_memRead s src.toNat hk (by omega)) hi, Nat.add_zero]
    · rw [coeff_complete, coeff_setSlot_self,
        getLsbD_unpackR (fun k hk => nth_slice_memRead s src.toNat hk (by omega)) hi]
  · obtain ⟨hsrc, hne⟩ := (ok_decb u r src).1 hok
    exact h.elim (fun hbeyond => hbeyond.not_ge hsrc) hne

end Sys2Proof.Machine

/-! # Proofs of the statements about reconciliation (45_reconciliation.md)

Part 1: HELPREC. Its hints in the words of the claims, and what it leaves as a function of the collaborator's answer
(R240; 60_exceptions.md R274). -/

namespace Sys2Proof.Machine

open Claims (Completed hint reached)

/-! ### The thresholds -/

theorem reached_nil (y : Int) : reached [] y = 0 := rfl

theorem reached_cons (t : Int) (ts : List Int) (y : Int) : reached (t :: ts) y = ind (t ≤ y) + reached ts y := by
  by_cases h : t ≤ y
  · simp [reached, ind, h, Int.add_comm]
  · simp [reached, ind, h]

theorem helpV0_eq_reached (y : Int) : helpV0 y = reached [3073, 9217, 15362, 21506] y := by
  simp only [reached_cons, reached_nil, add_zero, ← add_assoc]
  rfl

theorem helpV1_eq_reached (y : Int) : helpV1 y = reached [6145, 12289, 18434] y := by
  simp only [reached_cons, reached_nil, add_zero, ← add_assoc]
  rfl

/-! ### The hints of a lane -/

theorem toNat_bitAt {n : Nat} (v : Bytes n) (i : Nat) :
    (bitAt v i).toNat = (nth v (i / 8)).toNat / 2 ^ (i % 8) % 2 := by
  rw [bitAt, BitVec.getLsbD, Nat.toNat_testBit]

/-- The first three quarters of the hint vector: the parts of a lane that subtract c[3]. -/
theorem helpHint_difference (x : Nat → Int) (rb : Bytes 32) {i part : Nat} (hi : i < 256) (hpart : part < 3) :
    helpHint x rb (i + 256 * part) = (helpC x rb i part - helpC x rb i 3) % 4 := by
  have hlane : (i + 256 * part) % 256 = i := by omega
  have hquarter : (i + 256 * part) / 256 = part := by omega
  simp only [helpHint, if_pos (show i + 256 * part < 768 by omega), hlane, hquarter]

/-- The last quarter of the hint vector. -/
theorem helpHint_last (x : Nat → Int) (rb : Bytes 32) {i : Nat} (hi : i < 256) :
    helpHint x rb (i + 256 * 3) = (2 * helpC x rb i 3 + ind (Config.q1 ≤ helpNorm x rb i)) % 4 := by
  have hlane : (i + 256 * 3) % 256 = i := by omega
  simp only [helpHint, if_neg (show ¬i + 256 * 3 < 768 by omega), hlane]

/-- The hint vector is, lane by lane, the four hints of R240 in the words of the claims: only the thresholds and the
random bit are spelled differently. -/
theorem helpHint_eq_hint (x : Nat → Int) (rb : Bytes 32) {i part : Nat} (hi : i < 256) (hpart : part < 4) :
    helpHint x rb (i + 256 * part) =
      hint (x i) (x (i + 256)) (x (i + 512)) (x (i + 768))
        (((nth rb (i / 8)).toNat / 2 ^ (i % 8) % 2 : Nat) : Int) part := by
  rw [← toNat_bitAt]
  unfold hint
  simp only [← helpV0_eq_reached, ← helpV1_eq_reached]
  interval_cases part
  · exact helpHint_difference x rb (part := 0) hi (by omega)
  · exact helpHint_difference x rb (part := 1) hi (by omega)
  · exact helpHint_difference x rb (part := 2) hi (by omega)
  · exact helpHint_last x rb hi

/-- Every hint is a residue modulo 4. -/
theorem helpHint_bounds (x : Nat → Int) (rb : Bytes 32) (k : Nat) : 0 ≤ helpHint x rb k ∧ helpHint x rb k < 4 := by
  simp only [helpHint]
  split <;> omega

/-! ### The command -/

/-- The hint vector HELPREC leaves for an answer of the collaborator: all 0 where it failed (R240, R274). -/
def helprecPoly (x : Nat → Int) (resp : Status × Bytes 32) : Poly :=
  if resp.1 = .success then polyOf fun k => wrap32 (helpHint x resp.2 k) else zeroPoly

theorem helprecPoly_failure (x : Nat → Int) {resp : Status × Bytes 32} (h : resp.1 ≠ .success) :
    helprecPoly x resp = zeroPoly :=
  if_neg h

/-- A hint, stored and read back as a signed word, is itself. -/
theorem toInt_helprecPoly (x : Nat → Int) {resp : Status × Bytes 32} (h : resp.1 = .success) {k : Nat}
    (hk : k < 1024) : (nth (helprecPoly x resp) k).toInt = helpHint x resp.2 k := by
  have hbounds := helpHint_bounds x resp.2 k
  rw [helprecPoly, if_pos h, nth_polyOf _ hk, toInt_wrap32 (by omega) (by omega)]

/-- The completion record hides the random bits and the norm that HELPREC held. -/
theorem complete_helprecRule (r x : Slot) (resp : Status × Bytes 32) (s : State) (op : BitVec 6) :
    (helprecRule r x resp s).2.complete op (helprecRule r x resp s).1 =
      (s.setSlot r (helprecPoly (s.s32 x) resp)).complete op resp.1 := by
  by_cases h : resp.1 = .success
  · simp only [helprecRule, helprecPoly, h]; rfl
  · rw [helprecPoly_failure _ h, helprecRule, if_pos h]; rfl

theorem exec_helprec_setSlot (s : State) (r x : Slot) {seed : Offset} (k : Imm8) (h : seed.toNat + 32 ≤ 8192) :
    exec (.helprec r x seed k) s =
      .next ((s.setSlot r (helprecPoly (s.s32 x) (Config.stream (s.seedAt seed) (helprecNonce k) 32))).complete 0x20#6
        (Config.stream (s.seedAt seed) (helprecNonce k) 32).1) := by
  rw [exec_helprec s r x k h, complete_helprecRule]

/-- The hints of R240 where the collaborator succeeded, else the branch of R274, for any answer. -/
theorem helprecPoly_branches {s t : State} {r x : Slot} {op : BitVec 6} {q : Status × Bytes 32}
    (hrecord : Completed s t op q.1) (hcoeff : ∀ j, t.coeff r j = nth (helprecPoly (s.s32 x) q) j) :
    if q.1 ≠ .success then Completed s t op q.1 ∧ ∀ i, i < 1024 → t.coeff r i = 0
    else Completed s t op .success ∧ ∀ i part, i < 256 → part < 4 →
      (t.coeff r (i + 256 * part)).toInt =
        hint (s.coeff x i).toInt (s.coeff x (i + 256)).toInt (s.coeff x (i + 512)).toInt (s.coeff x (i + 768)).toInt
          (((nth q.2 (i / 8)).toNat / 2 ^ (i % 8) % 2 : Nat) : Int) part := by
  by_cases hok : q.1 = .success
  · rw [if_neg (not_not.2 hok)]
    refine ⟨hok ▸ hrecord, fun i part hi hpart => ?_⟩
    rw [hcoeff, toInt_helprecPoly _ hok (by omega)]
    exact helpHint_eq_hint (s.s32 x) q.2 hi hpart
  · rw [if_pos hok]
    exact ⟨hrecord, fun i _ => by rw [hcoeff, helprecPoly_failure _ hok, nth_zeroPoly]; rfl⟩

/-- Settles O37: HELPREC writes its slot once, with the hints from the collaborator's random bytes or with zeros. -/
theorem helprecComputesTheHints : Obligations.HelprecComputesTheHints := by
  intro s r x seed k
  refine ⟨fun h => ?_, fun h => refusedWithoutEffect (fun hok => h.not_ge ((ok_helprec r x seed k).1 hok)) s⟩
  obtain ⟨t, ht, hslots, hbytes, hrecord, hcoeff⟩ := exists_slotSet (exec_helprec_setSlot s r x k h)
  exact ⟨t, ht, hslots, hbytes, helprecPoly_branches hrecord hcoeff⟩

end Sys2Proof.Machine

/-! Part 2: REC. Its key bit by bit (R241, R243). -/

namespace Sys2Proof.Machine

open Claims (folded low2)

/-! ### A byte built from its bits -/

/-- Bit `b` of a word with a single bit in place `t`. -/
theorem getLsbD_shiftedBit (c : Bool) (t : Nat) {b : Nat} (hb : b < 8) :
    ((BitVec.ofBool c).setWidth 8 <<< t).getLsbD b = (decide (b = t) && c) := by
  rw [BitVec.getLsbD_shiftLeft, BitVec.getLsbD_setWidth, BitVec.getLsbD_ofBool]
  rcases lt_trichotomy b t with h | rfl | h
  · simp [h, h.ne]
  · simp [hb]
  · have hne : b - t ≠ 0 := by omega
    simp [h.ne', hne]

/-- The OR of the bits 0, …, n-1 shifted to their places. -/
theorem getLsbD_orOfBits (f : Nat → Bool) (n : Nat) {b : Nat} (hb : b < 8) :
    ((List.range n).foldl (fun acc t => acc ||| ((BitVec.ofBool (f t)).setWidth 8 <<< t)) (0#8 : Byte)).getLsbD b =
      (decide (b < n) && f b) := by
  induction n with
  | zero => simp
  | succ n ih =>
    rw [List.range_succ, List.foldl_append, List.foldl_cons, List.foldl_nil, BitVec.getLsbD_or, ih,
      getLsbD_shiftedBit _ _ hb]
    rcases lt_trichotomy b n with h | rfl | h
    · simp [h, h.ne, Nat.lt_succ_of_lt h]
    · simp
    · have hge : ¬b < n + 1 := by omega
      simp [h.not_gt, h.ne', hge]

/-- Bit `i mod 8` of key byte `i div 8` is key bit `i` (R82, R243). -/
theorem getLsbD_recKeyBytes (x : Nat → Int) (r : Poly) {i : Nat} (hi : i < 256) :
    (nth (recKeyBytes x r) (i / 8)).getLsbD (i % 8) = recBit x r i := by
  have hbit : i % 8 < 8 := Nat.mod_lt i (by omega)
  rw [recKeyBytes, nth_tabulate _ (by omega), recKeyByte, getLsbD_orOfBits _ 8 hbit, decide_eq_true hbit, Bool.true_and,
    Nat.div_add_mod]

/-! ### LDDecode -/

/-- The fold of LDDecode, under the absolute value it is summed with (R241). -/
theorem abs_ldFold (t : Int) : |ldFold t| = folded t := by
  have h4q : 4 * Config.q1 = 49156 := rfl
  have h8q : 8 * Config.q1 = 98312 := rfl
  simp only [ldFold, folded, apply_ite abs, h4q, h8q, gt_iff_lt]

/-- LDDecode in the words of the claims (R241). -/
theorem ldDecode_iff (t0 t1 t2 t3 : Int) :
    ldDecode t0 t1 t2 t3 = true ↔ folded t0 + folded t1 + folded t2 + folded t3 ≤ 98312 := by
  simp only [← abs_ldFold]
  exact decide_eq_true_iff

/-- Key bit `i` in the words of the claims (R243). -/
theorem recBit_iff (x : Nat → Int) (r : Poly) (i : Nat) :
    recBit x r i = true ↔
      folded (8 * x i - (2 * low2 (nth r i) + low2 (nth r (i + 768))) * 12289) +
        folded (8 * x (i + 256) - (2 * low2 (nth r (i + 256)) + low2 (nth r (i + 768))) * 12289) +
        folded (8 * x (i + 512) - (2 * low2 (nth r (i + 512)) + low2 (nth r (i + 768))) * 12289) +
        folded (8 * x (i + 768) - low2 (nth r (i + 768)) * 12289) ≤ 98312 :=
  ldDecode_iff (recT x r i 0) (recT x r i 1) (recT x r i 2) (recT3 x r i)

/-! ### The command -/

/-- Settles O39: the 32 bytes written are the key, computed from the slots alone. -/
theorem recWritesTheDecodedKey : Obligations.RecWritesTheDecodedKey := by
  intro s key x r
  refine ⟨fun h => ?_, fun h => refusedWithoutEffect (fun hok => h.not_ge ((ok_recKey key x r).1 hok)) s⟩
  obtain ⟨t, ht, hbytes, hframe⟩ := exists_bytesWritten (exec_recKey s x r h)
  refine ⟨t, ht, fun i hi => ?_, hframe⟩
  rw [hbytes _ (by omega), getLsbD_recKeyBytes _ _ hi]
  exact recBit_iff (s.s32 x) (s.slot r) i

end Sys2Proof.Machine

/-! # Proofs of the statements about control (46_control.md R260–R262) -/

namespace Sys2Proof.Machine

/-- Settles O42: the bytes written are a zero vector of the operand's length, empty for length 0. -/
theorem zerobClearsTheRange : Obligations.ZerobClearsTheRange := by
  intro s start len
  refine ⟨fun h => ?_, fun h => refusedWithoutEffect (fun hok => h.not_ge ((ok_zerob start len).1 hok)) s⟩
  obtain ⟨t, ht, hbytes, hframe⟩ := exists_bytesWritten (exec_zerob s h)
  exact ⟨t, ht, fun j hj => (hbytes j hj).trans (nth_tabulate _ hj), hframe⟩

/-- Settles O40: what NOP answers is the completion record of the state itself. -/
theorem nopOnlyCompletes : Obligations.NopOnlyCompletes := fun s =>
  ⟨_, exec_nop s, fun _ _ _ _ => rfl, fun _ => rfl, completed_complete s _ _⟩

/-- Settles O41: the slot written is the zero polynomial. -/
theorem zeropClearsTheSlot : Obligations.ZeropClearsTheSlot := by
  intro s d
  obtain ⟨t, ht, hslots, hbytes, hrecord, hcoeff⟩ := exists_slotSet (exec_zerop s d)
  exact ⟨t, ht, fun i _ => (hcoeff i).trans (nth_zeroPoly i), hslots, hbytes, hrecord⟩

end Sys2Proof.Machine

/-! # Proofs of the statements about issue and completion (60_exceptions.md R272–R277; 10_state.md R63) -/

namespace Sys2Proof.Machine

open Claims (Completed)

/-! ### The completion record -/

/-- Settles O8: a command is a change of the memories, closed by the one completion record. -/
theorem everyCommandEndsInOneCompletionRecord : Obligations.EveryCommandEndsInOneCompletionRecord := by
  refine ⟨irq_iff, fun i s => ?_⟩
  obtain ⟨p, m, c, hexec, -⟩ := exec_shape i s
  rw [opcode_encode]
  exact ⟨_, c, hexec, completed_withMemories s p m _ c, irq_complete (s.withMemories p m) _ c⟩

/-- Settles O10: what a refused command answers is the completion record of the state itself. -/
theorem refusedOperandsChangeNothing : Obligations.RefusedOperandsChangeNothing := by
  intro i s hrefused
  rw [opcode_encode]
  exact ⟨_, exec_refused s hrefused, rfl, rfl, completed_complete s _ _⟩

/-! ### Command issue -/

/-- START in Idle issues the command, after IRQEN has taken its bit (R42, R272). -/
theorem writeCtrl_start_idle {s : State} {v : Word} (hp : s.phase = .idle) (h0 : v.getLsbD 0 = true)
    (h1 : v.getLsbD 1 = false) : s.writeCtrl v = ({ s with irqen := v.getLsbD 2 } : State).issue := by
  have hidle : ({ s with irqen := v.getLsbD 2 } : State).busy = false := busy_of_idle hp
  simp only [State.writeCtrl, h0, h1, hidle, Bool.false_eq_true, if_false, if_true]

/-- At issue a refusal leaves `irq` at the level of IRQEN, and entering Exec leaves it 0 (R63). -/
theorem irq_issue (s : State) :
    (s.issue.phase ≠ .idle → s.issue.irq = false) ∧ (s.issue.phase = .idle → s.issue.irq = s.irqen) := by
  rcases issue_cases s with ⟨c, -, e⟩ | ⟨i, -, -, e⟩ <;> rw [e]
  · exact ⟨fun hbusy => absurd rfl hbusy, fun _ => irq_complete _ _ c⟩
  · exact ⟨fun _ => irq_of_not_done rfl, nofun⟩

/-- A word that is no command completes at issue with the status of the decoder's check (R272). -/
theorem completed_issue_of_refused {s : State} {e : DecodeError} (h : decode (commandOf s.cmd0 s.cmd1) = .refused e) :
    Completed { s with done := false, err := false } s.issue (opBits (commandOf s.cmd0 s.cmd1)) e.status := by
  rw [issue_refused s h]; exact completed_complete _ _ _

/-- A command whose operand values fail the checks completes at issue with InvalidParameter (R272). -/
theorem completed_issue_of_operandError {s : State} {i : Instr} (h : decode (commandOf s.cmd0 s.cmd1) = .instr i)
    (he : operandError i ≠ none) :
    Completed { s with done := false, err := false } s.issue (opBits (commandOf s.cmd0 s.cmd1)) .invalidParameter := by
  rw [issue_operandError s h he]; exact completed_complete _ _ _

/-- Settles O6: while BUSY the write is an access error; in Idle it is the issue of the state whose IRQEN has taken its
bit, and the first check that fails names the status. -/
theorem issueChecksThenExecutes : Obligations.IssueChecksThenExecutes := by
  refine ⟨fun s v rest hr hb hin h0 h1 => ?_, fun s v rest hr hp hin h0 h1 => ?_⟩
  · have hwrite := writeCtrl_start_busy (s := { s with inputs := rest }) hb h0 h1
    exact step_writeCsr hr hin (r := .ctrl) rfl (congrArg some hwrite)
  · let u : State := { s with inputs := rest, irqen := v.getLsbD 2 }
    have hwrite := writeCtrl_start_idle (s := { s with inputs := rest }) hp h0 h1
    have hstep : step s = .next u.issue := step_writeCsr hr hin (r := .ctrl) rfl (congrArg some hwrite)
    obtain ⟨hpmem, hbmem⟩ := sameMemories_issue u
    obtain ⟨hirqExec, hirqIdle⟩ := irq_issue u
    refine ⟨u.issue, hstep, hpmem, hbmem, hirqExec, hirqIdle, ?_⟩
    cases hd : decode (commandOf s.cmd0 s.cmd1) with
    | refused e => cases e <;> exact completed_issue_of_refused (s := u) hd
    | instr i =>
      by_cases hok : i.WellFormed
      · simp only [if_pos hok, issue_ok u hd hok]; rfl
      · simp only [if_neg hok]
        exact completed_issue_of_operandError (s := u) hd hok

end Sys2Proof.Machine

/-! # Proofs of the statements about reset and hazards (70_reset_and_hazards.md)

Part 1: control does not depend on data (R330). What a turn does to the fields of `SameControl` is decided by these
fields alone, so two states of the same control take every turn alike. -/

namespace Sys2Proof.Machine

open Claims (SameControl)

/-! ### States of the same control -/

theorem sameControl_irq {s₁ s₂ : State} (h : SameControl s₁ s₂) : s₁.irq = s₂.irq := by
  obtain ⟨-, -, -, -, -, -, hdone, hirqen⟩ := h
  rw [State.irq, State.irq, hdone, hirqen]

theorem sameControl_busy {s₁ s₂ : State} (h : SameControl s₁ s₂) : s₁.busy = s₂.busy := by
  rw [State.busy, State.busy, h.1]

/-- Memories, error records and read data are no part of the control. -/
theorem sameControl_withData {s₁ s₂ : State} (h : SameControl s₁ s₂) (p₁ p₂ : Vector Poly 8) (m₁ m₂ : Memory)
    (a₁ a₂ : Bool) (f₁ f₂ : Option Status) (x₁ x₂ : Word) :
    SameControl { s₁ with pmem := p₁, bmem := m₁, accerr := a₁, firstErr := f₁, rdata := x₁ }
      { s₂ with pmem := p₂, bmem := m₂, accerr := a₂, firstErr := f₂, rdata := x₂ } := h

/-! ### Turns that two states of the same control take alike -/

theorem sameControl_writeStatus {s₁ s₂ : State} (h : SameControl s₁ s₂) (v : Word) :
    SameControl (s₁.writeStatus v) (s₂.writeStatus v) := by
  obtain ⟨hphase, hinputs, hrst, hreq, h0, h1, hdone, hirqen⟩ := h
  exact ⟨hphase, hinputs, hrst, hreq, h0, h1, by simp [hdone], hirqen⟩

/-- The record may carry any opcode and status, and the states may have any memories. -/
theorem sameControl_complete {s₁ s₂ : State} (h : SameControl s₁ s₂) (op₁ op₂ : BitVec 6) (c₁ c₂ : Status) :
    SameControl (s₁.complete op₁ c₁) (s₂.complete op₂ c₂) := by
  obtain ⟨-, hinputs, hrst, -, h0, h1, -, hirqen⟩ := h
  exact ⟨rfl, hinputs, hrst, rfl, h0, h1, rfl, hirqen⟩

theorem sameControl_enterReset {s₁ s₂ : State} (h : SameControl s₁ s₂) :
    SameControl s₁.enterReset s₂.enterReset := by
  obtain ⟨-, hinputs, hrst, -, -, -, -, -⟩ := h
  exact ⟨rfl, hinputs, hrst, rfl, rfl, rfl, rfl, rfl⟩

theorem sameControl_finishClearing {s₁ s₂ : State} (h : SameControl s₁ s₂) :
    SameControl s₁.finishClearing s₂.finishClearing := by
  obtain ⟨-, hinputs, hrst, hreq, h0, h1, -, hirqen⟩ := h
  exact ⟨rfl, hinputs, hrst, hreq, h0, h1, rfl, hirqen⟩

/-- Whether a command makes a request is a matter of its opcode (R60). -/
theorem requestOf_isSome_eq (i : Instr) (s₁ s₂ : State) : (requestOf i s₁).isSome = (requestOf i s₂).isSome := by
  cases i <;> rfl

theorem sameControl_enterExec {s₁ s₂ : State} (h : SameControl s₁ s₂) (w : Command) (i : Instr) :
    SameControl (s₁.enterExec w i) (s₂.enterExec w i) := by
  obtain ⟨-, hinputs, hrst, -, h0, h1, hdone, hirqen⟩ := h
  exact ⟨rfl, hinputs, hrst, requestOf_isSome_eq i s₁ s₂, h0, h1, hdone, hirqen⟩

/-- Issue looks at the command word alone (R272), so it decides alike. -/
theorem sameControl_issue {s₁ s₂ : State} (h : SameControl s₁ s₂) : SameControl s₁.issue s₂.issue := by
  obtain ⟨hphase, hinputs, hrst, hreq, h0, h1, -, hirqen⟩ := h
  have hclear : SameControl { s₁ with done := false, err := false } { s₂ with done := false, err := false } :=
    ⟨hphase, hinputs, hrst, hreq, h0, h1, rfl, hirqen⟩
  have hword : commandOf s₁.cmd0 s₁.cmd1 = commandOf s₂.cmd0 s₂.cmd1 := by rw [h0, h1]
  cases hdec : decode (commandOf s₂.cmd0 s₂.cmd1) with
  | refused e =>
    have hdec₁ := (congrArg decode hword).trans hdec
    rw [issue_refused s₁ hdec₁, issue_refused s₂ hdec]
    exact sameControl_complete hclear _ _ _ _
  | instr i =>
    have hdec₁ := (congrArg decode hword).trans hdec
    by_cases hok : operandError i = none
    · rw [issue_ok s₁ hdec₁ hok, issue_ok s₂ hdec hok, hword]
      exact sameControl_enterExec hclear _ i
    · rw [issue_operandError s₁ hdec₁ hok, issue_operandError s₂ hdec hok]
      exact sameControl_complete hclear _ _ _ _

theorem sameControl_writeCtrl {s₁ s₂ : State} (h : SameControl s₁ s₂) (v : Word) :
    SameControl (s₁.writeCtrl v) (s₂.writeCtrl v) := by
  have ⟨hphase, hinputs, hrst, hreq, h0, h1, hdone, _⟩ := h
  have hirqen : SameControl { s₁ with irqen := v.getLsbD 2 } { s₂ with irqen := v.getLsbD 2 } :=
    ⟨hphase, hinputs, hrst, hreq, h0, h1, hdone, rfl⟩
  simp only [State.writeCtrl, sameControl_busy hirqen]
  split
  · exact sameControl_enterReset h
  · split
    · split
      · exact sameControl_withData hirqen _ _ _ _ _ _ _ _ _ _
      · exact sameControl_issue hirqen
    · exact hirqen

/-- The register map and BUSY decide what a write reaches (R32, R85), and what it puts into a memory is no control. -/
theorem sameControl_busWrite {s₁ s₂ : State} (h : SameControl s₁ s₂) (addr : BitVec 18) (w : Width) (v : Word) :
    SameControl (s₁.busWrite addr w v) (s₂.busWrite addr w v) := by
  have hbusy := sameControl_busy h
  have ⟨hphase, hinputs, hrst, hreq, h0, h1, hdone, hirqen⟩ := h
  unfold State.busWrite writeEffect
  cases target addr w with
  | none => exact sameControl_withData h _ _ _ _ _ _ _ _ _ _
  | some tg =>
    cases tg with
    | csr r =>
      cases r with
      | ctrl => exact sameControl_writeCtrl h v
      | status => exact sameControl_writeStatus h v
      | firstErr =>
        exact sameControl_withData h _ _ _ _ _ _ _ _ _ _
      | cmd0 =>
        simp only [State.writeCsr, hbusy]
        cases s₂.busy
        · exact ⟨hphase, hinputs, hrst, hreq, rfl, h1, hdone, hirqen⟩
        · exact sameControl_withData h _ _ _ _ _ _ _ _ _ _
      | cmd1 =>
        simp only [State.writeCsr, hbusy]
        cases s₂.busy
        · exact ⟨hphase, hinputs, hrst, hreq, h0, rfl, hdone, hirqen⟩
        · exact sameControl_withData h _ _ _ _ _ _ _ _ _ _
      | _ => exact h
    | pmem d i =>
      simp only [hbusy]
      cases s₂.busy <;> exact sameControl_withData h _ _ _ _ _ _ _ _ _ _
    | bmem off =>
      simp only [hbusy]
      cases s₂.busy <;> exact sameControl_withData h _ _ _ _ _ _ _ _ _ _

/-- A command is a change of the memories and a completion record, whatever status it ends with. -/
theorem sameControl_exec {s₁ s₂ t₁ t₂ : State} (h : SameControl s₁ s₂) {i : Instr} (ht₁ : exec i s₁ = .next t₁)
    (ht₂ : exec i s₂ = .next t₂) : SameControl t₁ t₂ := by
  obtain ⟨p₁, m₁, c₁, e₁, -⟩ := exec_shape i s₁
  obtain ⟨p₂, m₂, c₂, e₂, -⟩ := exec_shape i s₂
  cases e₁.symm.trans ht₁
  cases e₂.symm.trans ht₂
  have hmemories : SameControl (s₁.withMemories p₁ m₁) (s₂.withMemories p₂ m₂) :=
    sameControl_withData h _ _ _ _ _ _ _ _ _ _
  exact sameControl_complete hmemories _ _ c₁ c₂

theorem sameControl_runCommand {s₁ s₂ t₁ t₂ : State} (h : SameControl s₁ s₂) {w : Command}
    (ht₁ : runCommand w s₁ = .next t₁) (ht₂ : runCommand w s₂ = .next t₂) : SameControl t₁ t₂ := by
  cases hdec : decode w with
  | instr i =>
    rw [runCommand_instr _ hdec] at ht₁ ht₂
    exact sameControl_exec h ht₁ ht₂
  | refused e =>
    rw [runCommand_refused _ hdec] at ht₁ ht₂
    cases ht₁
    cases ht₂
    exact sameControl_complete h _ _ _ _

theorem sameControl_sequencerTurn {s₁ s₂ t₁ t₂ : State} (h : SameControl s₁ s₂) (ht₁ : sequencerTurn s₁ = .next t₁)
    (ht₂ : sequencerTurn s₂ = .next t₂) : SameControl t₁ t₂ := by
  have ⟨hphase, _, hrst, _, _, _, _, _⟩ := h
  cases hr : s₂.rstN with
  | false =>
    rw [sequencerTurn_held _ (hrst.trans hr)] at ht₁
    rw [sequencerTurn_held _ hr] at ht₂
    cases ht₁
    cases ht₂
    exact h
  | true =>
    cases hp : s₂.phase with
    | idle =>
      rw [sequencerTurn_idle _ (hphase.trans hp)] at ht₁
      rw [sequencerTurn_idle _ hp] at ht₂
      cases ht₁
      cases ht₂
      exact h
    | clearing =>
      rw [sequencerTurn_clearing _ (hphase.trans hp) (hrst.trans hr)] at ht₁
      rw [sequencerTurn_clearing _ hp hr] at ht₂
      cases ht₁
      cases ht₂
      exact sameControl_finishClearing h
    | exec w =>
      rw [sequencerTurn_exec _ (hphase.trans hp) (hrst.trans hr)] at ht₁
      rw [sequencerTurn_exec _ hp hr] at ht₂
      exact sameControl_runCommand h ht₁ ht₂

theorem sameControl_inputTurn {s₁ s₂ t₁ t₂ : State} (h : SameControl s₁ s₂) {i : Input}
    (ht₁ : inputTurn i s₁ = .next t₁) (ht₂ : inputTurn i s₂ = .next t₂) : SameControl t₁ t₂ := by
  have ⟨hphase, hinputs, hrst, hreq, h0, h1, hdone, hirqen⟩ := h
  cases i with
  | read addr w =>
    simp only [inputTurn, hrst] at ht₁ ht₂
    cases ht₁
    cases ht₂
    split
    · rw [busRead_eq, busRead_eq]
      exact sameControl_withData h _ _ _ _ _ _ _ _ _ _
    · exact sameControl_withData h _ _ _ _ _ _ _ _ _ _
  | write addr w v =>
    simp only [inputTurn, hrst] at ht₁ ht₂
    cases ht₁
    cases ht₂
    split
    · exact sameControl_busWrite h addr w v
    · exact h
  | rstFall =>
    cases ht₁
    cases ht₂
    exact ⟨rfl, hinputs, rfl, rfl, rfl, rfl, rfl, rfl⟩
  | rstRise =>
    cases ht₁
    cases ht₂
    exact ⟨hphase, hinputs, rfl, hreq, h0, h1, hdone, hirqen⟩
  | clock =>
    simp only [inputTurn, hreq] at ht₁ ht₂
    split at ht₁
    · next hwait =>
      rw [if_pos hwait] at ht₂
      cases ht₁
      cases ht₂
      exact h
    · next hgo =>
      rw [if_neg hgo] at ht₂
      exact sameControl_sequencerTurn h ht₁ ht₂
  | answer =>
    simp only [inputTurn, hreq] at ht₁ ht₂
    split at ht₁
    · next hgo =>
      rw [if_pos hgo] at ht₂
      exact sameControl_sequencerTurn h ht₁ ht₂
    · next hnone =>
      rw [if_neg hnone] at ht₂
      cases ht₁
      cases ht₂
      exact h
  | lateAnswer =>
    cases ht₁
    cases ht₂
    exact h

/-- Settles O58: every turn, the sequencer's or an input's, is taken alike; `irq` is a view of the control. -/
theorem controlDoesNotDependOnData : Obligations.ControlDoesNotDependOnData := by
  intro s₁ s₂ t₁ t₂ h ht₁ ht₂
  have ⟨hphase, hinputs, hrst, hreq, h0, h1, hdone, hirqen⟩ := h
  suffices hsame : SameControl t₁ t₂ from ⟨hsame, sameControl_irq hsame⟩
  cases hin : s₂.inputs with
  | nil =>
    rw [step_nil _ (hinputs.trans hin)] at ht₁
    rw [step_nil _ hin] at ht₂
    exact sameControl_sequencerTurn h ht₁ ht₂
  | cons i rest =>
    rw [step_cons _ (hinputs.trans hin)] at ht₁
    rw [step_cons _ hin] at ht₂
    have hrest : SameControl { s₁ with inputs := rest } { s₂ with inputs := rest } :=
      ⟨hphase, rfl, hrst, hreq, h0, h1, hdone, hirqen⟩
    exact sameControl_inputTurn hrest ht₁ ht₂

end Sys2Proof.Machine

/-! Part 2: the two resets, the end of Clearing and the state after reset (R310–R314), and the wait for the collaborator
(R326). -/

namespace Sys2Proof.Machine

/-! ### Turns that only take the input -/

theorem inputTurn_clock_wait {s : State} (h : s.request ≠ none) : inputTurn .clock s = .next s := by
  simp [inputTurn, Option.isSome_iff_ne_none, h]

theorem inputTurn_answer_none {s : State} (h : s.request = none) : inputTurn .answer s = .next s := by
  simp [inputTurn, h]

/-- Settles O59: neither turn gives the sequencer its own. -/
theorem theBlockWaitsForTheCollaborator : Obligations.TheBlockWaitsForTheCollaborator := by
  intro s rest
  refine ⟨fun hreq hin => ?_, fun hin => step_cons s hin⟩
  rw [step_cons s hin, inputTurn_clock_wait (s := { s with inputs := rest }) hreq]

/-! ### The soft reset -/

/-- SRST acts first, whatever the other bits of the write are (R42). -/
theorem writeCtrl_srst (s : State) {v : Word} (h : v.getLsbD 1 = true) : s.writeCtrl v = s.enterReset := by
  rw [State.writeCtrl, if_pos h]

theorem step_softReset {s : State} {v : Word} {rest : List Input} (hr : s.rstN = true)
    (hin : s.inputs = .write 0x00020#18 .w32 v :: rest) (h : v.getLsbD 1 = true) :
    step s = .next ({ s with inputs := rest } : State).enterReset :=
  step_writeCsr hr hin (r := .ctrl) rfl (congrArg some (writeCtrl_srst _ h))

/-- Settles O50: the write is the reset, and an answer that finds no request is not taken. -/
theorem softResetAbandonsEverything : Obligations.SoftResetAbandonsEverything := by
  refine ⟨fun s v rest hr hin h => step_softReset hr hin h, fun s rest hreq hin => ?_⟩
  rcases hin with hin | hin
  · rw [step_cons s hin, inputTurn_answer_none (s := { s with inputs := rest }) hreq]
  · exact step_cons s hin

/-! ### The hard reset -/

theorem step_rstFall {s : State} {rest : List Input} (hin : s.inputs = .rstFall :: rest) :
    step s = .next { ({ s with inputs := rest } : State).enterReset with rstN := false } := step_cons s hin

theorem step_rstRise {s : State} {rest : List Input} (hin : s.inputs = .rstRise :: rest) :
    step s = .next { s with inputs := rest, rstN := true } := step_cons s hin

/-- While `rst_n` is 0, an input other than the pin's changes at most the read data (R310; log 9). -/
theorem inputTurn_held {s : State} (hr : s.rstN = false) {i : Input} (hfall : i ≠ .rstFall) (hrise : i ≠ .rstRise) :
    ∃ x, inputTurn i s = .next { s with rdata := x } := by
  cases i with
  | read addr w => exact ⟨(readValue s addr w).getD 0#32, by simp [inputTurn, hr, State.readInReset]⟩
  | write addr w v => exact ⟨s.rdata, congrArg Host.Outcome.next (if_neg (by simp [hr]))⟩
  | rstFall => exact absurd rfl hfall
  | rstRise => exact absurd rfl hrise
  | clock => exact ⟨s.rdata, by simp [inputTurn, sequencerTurn_held s hr]⟩
  | answer => exact ⟨s.rdata, by simp [inputTurn, sequencerTurn_held s hr]⟩
  | lateAnswer => exact ⟨s.rdata, rfl⟩

/-- Settles O51: the falling pin is the reset, and the invariant keeps the phase Clearing until the pin rises. -/
theorem hardResetHoldsTheBlock : Obligations.HardResetHoldsTheBlock := by
  intro s rest
  refine ⟨step_rstFall, fun i hr hin hfall hrise => ?_, step_rstRise, fun hinv hr hin => ?_⟩
  · rw [step_cons s hin]
    exact inputTurn_held (s := { s with inputs := rest }) hr hfall hrise
  · obtain ⟨-, -, -, hheld⟩ := hinv
    obtain ⟨hclearing, -⟩ := hheld hr
    exact ⟨_, step_rstRise hin, hclearing, rfl⟩

/-! ### The end of Clearing -/

theorem step_clock_clearing {s : State} {rest : List Input} (hr : s.rstN = true) (hp : s.phase = .clearing)
    (hreq : s.request = none) (hin : s.inputs = .clock :: rest) :
    step s = .next ({ s with inputs := rest } : State).finishClearing := by
  rw [step_cons s hin, inputTurn_clock (s := { s with inputs := rest }) hreq]
  exact sequencerTurn_clearing { s with inputs := rest } hp hr

/-- Clearing ends where time runs on, with a clock turn or with no input left (R313; log 2). -/
theorem step_clearing {s : State} (hr : s.rstN = true) (hp : s.phase = .clearing) (hreq : s.request = none)
    (hin : s.inputs = [] ∨ ∃ rest, s.inputs = .clock :: rest) :
    step s = .next ({ s with inputs := s.inputs.tail } : State).finishClearing := by
  rcases hin with hin | ⟨rest, hin⟩
  · have hnil : ({ s with inputs := [] } : State) = s := by rw [← hin]
    rw [step_nil s hin, sequencerTurn_clearing s hp hr, hin, List.tail_nil, hnil]
  · rw [step_clock_clearing hr hp hreq hin, hin, List.tail_cons]

theorem slot_zeroMemory {s : State} (h : s.pmem = Vector.replicate 8 zeroPoly) (d : Slot) : s.slot d = zeroPoly := by
  simp [State.slot, h]

theorem coeff_zeroMemory {s : State} (h : s.pmem = Vector.replicate 8 zeroPoly) (d : Slot) (i : Nat) :
    s.coeff d i = 0 := by
  rw [State.coeff, slot_zeroMemory h, nth_zeroPoly]; rfl

theorem byteAt_zeroMemory {s : State} (h : s.bmem = []) (a : Nat) : s.byteAt a = 0 := by
  rw [State.byteAt, h, Memory.read_nil]; rfl

/-- Settles O52: the step is the end of Clearing, which leaves no coefficient and no byte. -/
theorem clearingZeroesTheMemories : Obligations.ClearingZeroesTheMemories := fun _ hr hp hreq hin =>
  ⟨_, step_clearing hr hp hreq hin, fun d i _ => coeff_zeroMemory rfl d i, byteAt_zeroMemory rfl, rfl⟩

/-! ### Nothing from before a reset is left -/

/-- The idle block after a reset and the end of Clearing: only `rst_n`, the read data and the inputs are not fixed. -/
def State.afterReset (rstN : Bool) (rdata : Word) (inputs : List Input) : State :=
  { State.reset with phase := .idle, rstN := rstN, rdata := rdata, inputs := inputs }

theorem finishClearing_enterReset (s : State) :
    s.enterReset.finishClearing = State.afterReset s.rstN s.rdata s.inputs := rfl

theorem step_step_softReset {s : State} {v : Word} {rest : List Input} (hr : s.rstN = true)
    (hin : s.inputs = .write 0x00020#18 .w32 v :: .clock :: rest) (h : v.getLsbD 1 = true) :
    ∃ t, step s = .next t ∧ step t = .next (State.afterReset true s.rdata rest) := by
  rw [← hr]
  exact ⟨_, step_softReset hr hin h,
    step_clock_clearing (s := ({ s with inputs := .clock :: rest } : State).enterReset) hr rfl rfl rfl⟩

theorem step_step_step_hardReset {s : State} {rest : List Input}
    (hin : s.inputs = .rstFall :: .rstRise :: .clock :: rest) :
    ∃ t r, step s = .next t ∧ step t = .next r ∧ step r = .next (State.afterReset true s.rdata rest) :=
  ⟨_, _, step_rstFall hin, step_rstRise rfl, step_clock_clearing rfl rfl rfl rfl⟩

/-- Settles O53: after either reset both blocks are `State.afterReset` of what they agree in. -/
theorem resetForgetsEverySecret : Obligations.ResetForgetsEverySecret := by
  refine ⟨fun s₁ s₂ v rest hv h hdata => ?_, fun s₁ s₂ rest h hdata => ?_⟩
  · simp only [List.forall_mem_cons] at h
    obtain ⟨⟨hr₁, hin₁⟩, ⟨hr₂, hin₂⟩, -⟩ := h
    obtain ⟨t₁, ht₁, hu₁⟩ := step_step_softReset hr₁ hin₁ hv
    obtain ⟨t₂, ht₂, hu₂⟩ := step_step_softReset hr₂ hin₂ hv
    exact ⟨t₁, t₂, _, ht₁, ht₂, hu₁, hdata ▸ hu₂, rfl⟩
  · simp only [List.forall_mem_cons] at h
    obtain ⟨hin₁, hin₂, -⟩ := h
    obtain ⟨t₁, r₁, ht₁, hr₁, hu₁⟩ := step_step_step_hardReset hin₁
    obtain ⟨t₂, r₂, ht₂, hr₂, hu₂⟩ := step_step_step_hardReset hin₂
    exact ⟨t₁, t₂, r₁, r₂, _, ht₁, ht₂, hr₁, hr₂, hu₁, hdata ▸ hu₂, rfl⟩

/-! ### The state after reset -/

/-- Settles O54: the memories are the zeroed ones, and every register reads its reset value. -/
theorem resetStateHoldsTheResetValues : Obligations.ResetStateHoldsTheResetValues :=
  ⟨fun d i _ => coeff_zeroMemory rfl d i, byteAt_zeroMemory rfl, rfl, rfl, rfl, rfl, rfl, rfl, rfl, rfl, rfl, rfl,
    _, step_clearing rfl rfl rfl (.inl rfl), rfl, rfl⟩

/-- Settles O56: reset reaches the invariant from any state with a canonical BMEM, and the empty one is. -/
theorem resetMeetsTheInvariant : Obligations.ResetMeetsTheInvariant :=
  inv_enterReset (s := State.reset) Memory.wf_nil true

end Sys2Proof.Machine

/-! # Proofs of what the spec infers about the transforms (41_ntt.md §4, §5)

Part 1: the two transforms over the residues modulo q, where they are linear and undo each other. -/

namespace Sys2Proof.Machine

/-- The residues modulo q. -/
abbrev Zq : Type := ZMod 12289

/-- PSI as a residue (R5). -/
def psiZq : Zq := 7

/-- PSIINV as a residue (R161). -/
def psiInvZq : Zq := 8778

/-! ### The root of unity (R5) -/

theorem psiZq_mul_psiInvZq : psiZq * psiInvZq = 1 := by decide

theorem nInv_mul_n : (12277 : Zq) * 1024 = 1 := by decide

theorem psiZq_pow_half : psiZq ^ 1024 = -1 := by
  have hnat : 7 ^ 1024 % 12289 = 12288 := by decide +kernel
  have hcast : psiZq = ((7 : Nat) : Zq) := rfl
  rw [hcast, ← Nat.cast_pow, ← ZMod.natCast_mod, hnat]
  decide

theorem psiZq_pow_order : psiZq ^ 2048 = 1 := by
  rw [show 2048 = 1024 * 2 from rfl, pow_mul, psiZq_pow_half, neg_one_sq]

theorem psiZq_pow_mul_psiInvZq_pow (e : Nat) : psiZq ^ e * psiInvZq ^ e = 1 := by
  rw [← mul_pow, psiZq_mul_psiInvZq, one_pow]

theorem psiInvZq_pow_order : psiInvZq ^ 2048 = 1 :=
  calc psiInvZq ^ 2048
    _ = psiZq ^ 2048 * psiInvZq ^ 2048 := by rw [psiZq_pow_order, one_mul]
    _ = 1 := psiZq_pow_mul_psiInvZq_pow 2048

theorem orderOf_psiZq : orderOf psiZq = 2048 :=
  orderOf_eq_prime_pow (p := 2) (n := 10) (by rw [show 2 ^ 10 = 1024 from rfl, psiZq_pow_half]; decide) psiZq_pow_order

/-- An odd power of PSI is a root of X^1024 + 1. -/
theorem psiZq_odd_pow (k : Nat) : (psiZq ^ (2 * k + 1)) ^ 1024 = -1 := by
  rw [← pow_mul, mul_comm, pow_mul, psiZq_pow_half, Odd.neg_one_pow ⟨k, rfl⟩]

/-- The powers of two different even powers of PSI are orthogonal. -/
theorem sum_psiZq_pow {m n : Nat} (hm : m < 1024) (hn : n < 1024) :
    ∑ k ∈ Finset.range 1024, (psiZq ^ (2 * m) * psiInvZq ^ (2 * n)) ^ k = if m = n then 1024 else 0 := by
  by_cases h : m = n
  · simp [h, psiZq_pow_mul_psiInvZq_pow]
  · have : Fact (Nat.Prime 12289) := ⟨by norm_num⟩
    rw [if_neg h]
    have hperiod : (psiZq ^ (2 * m) * psiInvZq ^ (2 * n)) ^ 1024 = 1 := by
      rw [mul_pow, ← pow_mul, ← pow_mul, show 2 * m * 1024 = 2048 * m by ring, show 2 * n * 1024 = 2048 * n by ring,
        pow_mul, pow_mul, psiZq_pow_order, psiInvZq_pow_order, one_pow, one_pow, one_mul]
    have hne : psiZq ^ (2 * m) * psiInvZq ^ (2 * n) ≠ 1 := fun hone => by
      have hpow : psiZq ^ (2 * m) = psiZq ^ (2 * n) :=
        calc psiZq ^ (2 * m)
          _ = psiZq ^ (2 * m) * psiInvZq ^ (2 * n) * psiZq ^ (2 * n) := by
            rw [mul_assoc, mul_comm (psiInvZq ^ (2 * n)), psiZq_pow_mul_psiInvZq_pow, mul_one]
          _ = psiZq ^ (2 * n) := by rw [hone, one_mul]
      have hexp : 2 * m = 2 * n :=
        pow_injOn_Iio_orderOf (by rw [orderOf_psiZq, Set.mem_Iio]; omega) (by rw [orderOf_psiZq, Set.mem_Iio]; omega) hpow
      omega
    have hgeom := mul_geom_sum (psiZq ^ (2 * m) * psiInvZq ^ (2 * n)) 1024
    rw [hperiod, sub_self] at hgeom
    exact (mul_eq_zero.1 hgeom).resolve_left (sub_ne_zero.2 hne)

/-! ### Bit reversal is a permutation of the 1024 indices -/

theorem brv10_lt (i : Nat) : brv10 i < 1024 := by
  rw [brv10_eq_rev10]; exact BitVec.isLt _

theorem brv10_brv10 {i : Nat} (h : i < 1024) : brv10 (brv10 i) = i := by
  rw [brv10_eq_rev10, brv10_eq_rev10, Claims.rev10, Claims.rev10, BitVec.ofNat_toNat, BitVec.setWidth_eq,
    BitVec.reverse_reverse_eq, BitVec.toNat_ofNat, Nat.mod_eq_of_lt h]

theorem brv10_inj {i j : Nat} (hi : i < 1024) (hj : j < 1024) : brv10 i = brv10 j ↔ i = j :=
  ⟨fun h => by rw [← brv10_brv10 hi, h, brv10_brv10 hj], congrArg brv10⟩

theorem sum_brv10 (f : Nat → Zq) : ∑ i ∈ Finset.range 1024, f (brv10 i) = ∑ k ∈ Finset.range 1024, f k :=
  Finset.sum_nbij' brv10 brv10 (fun i _ => Finset.mem_range.2 (brv10_lt i)) (fun i _ => Finset.mem_range.2 (brv10_lt i))
    (fun _ hi => brv10_brv10 (Finset.mem_range.1 hi)) (fun _ hi => brv10_brv10 (Finset.mem_range.1 hi)) fun _ _ => rfl

/-! ### The transforms -/

/-- R160 over the residues: the value at an odd power of PSI. -/
def transform (a : Nat → Zq) (i : Nat) : Zq :=
  ∑ j ∈ Finset.range 1024, a j * (psiZq ^ (2 * brv10 i + 1)) ^ j

/-- R161 over the residues. -/
def inverseTransform (a : Nat → Zq) (j : Nat) : Zq :=
  12277 * ∑ i ∈ Finset.range 1024, a i * (psiInvZq ^ (2 * brv10 i + 1)) ^ j

theorem transform_congr {a b : Nat → Zq} (h : ∀ j, j < 1024 → a j = b j) (i : Nat) : transform a i = transform b i :=
  Finset.sum_congr rfl fun j hj => by rw [h j (Finset.mem_range.1 hj)]

theorem inverseTransform_congr {a b : Nat → Zq} (h : ∀ i, i < 1024 → a i = b i) (j : Nat) :
    inverseTransform a j = inverseTransform b j := by
  unfold inverseTransform
  rw [Finset.sum_congr rfl fun i hi => by rw [h i (Finset.mem_range.1 hi)]]

theorem transform_add (a b : Nat → Zq) (i : Nat) :
    transform (fun j => a j + b j) i = transform a i + transform b i := by
  simp only [transform, add_mul, Finset.sum_add_distrib]

theorem inverseTransform_add (a b : Nat → Zq) (j : Nat) :
    inverseTransform (fun i => a i + b i) j = inverseTransform a j + inverseTransform b j := by
  simp only [inverseTransform, add_mul, Finset.sum_add_distrib, mul_add]

/-- The two transforms are inverse to each other: the coefficients are kept apart by the orthogonality of the powers. -/
theorem inverseTransform_transform (a : Nat → Zq) {j : Nat} (hj : j < 1024) : inverseTransform (transform a) j = a j :=
  calc inverseTransform (transform a) j
    _ = 12277 * ∑ k ∈ Finset.range 1024, (∑ n ∈ Finset.range 1024, a n * (psiZq ^ (2 * k + 1)) ^ n) *
          (psiInvZq ^ (2 * k + 1)) ^ j := by
      rw [← sum_brv10]; rfl
    _ = 12277 * ∑ n ∈ Finset.range 1024, a n * (psiZq ^ n * psiInvZq ^ j *
          ∑ k ∈ Finset.range 1024, (psiZq ^ (2 * n) * psiInvZq ^ (2 * j)) ^ k) := by
      simp only [Finset.sum_mul, Finset.mul_sum]
      rw [Finset.sum_comm]
      exact Finset.sum_congr rfl fun n _ => Finset.sum_congr rfl fun k _ => by ring
    _ = 12277 * ∑ n ∈ Finset.range 1024, if n = j then a j * 1024 else 0 := by
      refine congrArg (fun z : Zq => 12277 * z) (Finset.sum_congr rfl fun n hn => ?_)
      rw [sum_psiZq_pow (Finset.mem_range.1 hn) hj]
      by_cases h : n = j
      · rw [if_pos h, if_pos h, h, psiZq_pow_mul_psiInvZq_pow, one_mul]
      · rw [if_neg h, if_neg h, mul_zero, mul_zero]
    _ = a j := by
      rw [Finset.sum_ite_eq', if_pos (Finset.mem_range.2 hj), mul_left_comm, nInv_mul_n, mul_one]

theorem transform_inverseTransform (a : Nat → Zq) {i : Nat} (hi : i < 1024) : transform (inverseTransform a) i = a i :=
  calc transform (inverseTransform a) i
    _ = ∑ n ∈ Finset.range 1024, 12277 * a n *
          ∑ j ∈ Finset.range 1024, (psiZq ^ (2 * brv10 i) * psiInvZq ^ (2 * brv10 n)) ^ j := by
      simp only [transform, inverseTransform, Finset.sum_mul, Finset.mul_sum]
      rw [Finset.sum_comm]
      refine Finset.sum_congr rfl fun n _ => Finset.sum_congr rfl fun j _ => ?_
      have hone : (psiZq * psiInvZq) ^ j = 1 := by rw [psiZq_mul_psiInvZq, one_pow]
      calc 12277 * (a n * (psiInvZq ^ (2 * brv10 n + 1)) ^ j) * (psiZq ^ (2 * brv10 i + 1)) ^ j
        _ = 12277 * a n * (psiZq ^ (2 * brv10 i) * psiInvZq ^ (2 * brv10 n)) ^ j * (psiZq * psiInvZq) ^ j := by ring
        _ = 12277 * a n * (psiZq ^ (2 * brv10 i) * psiInvZq ^ (2 * brv10 n)) ^ j := by rw [hone, mul_one]
    _ = ∑ n ∈ Finset.range 1024, if n = i then a i else 0 := by
      refine Finset.sum_congr rfl fun n hn => ?_
      rw [sum_psiZq_pow (brv10_lt i) (brv10_lt n)]
      by_cases h : n = i
      · rw [if_pos h, h, if_pos rfl, mul_right_comm, nInv_mul_n, one_mul]
      · rw [if_neg h, if_neg fun he => h ((brv10_inj hi (Finset.mem_range.1 hn)).1 he).symm, mul_zero]
    _ = a i := by rw [Finset.sum_ite_eq', if_pos (Finset.mem_range.2 hi)]

/-! ### The negacyclic product -/

/-- Coefficient `k` of the product in Z_q[X]/(X^1024 + 1). -/
def negacyclic (a b : Nat → Zq) (k : Nat) : Zq :=
  ∑ i ∈ Finset.range 1024, ∑ j ∈ Finset.range 1024,
    if i + j = k then a i * b j else if i + j = k + 1024 then -(a i * b j) else 0

/-- One product of two coefficients has its place below 1024, or wraps round there with the sign changed. -/
theorem sum_wrapped {x : Zq} (hx : x ^ 1024 = -1) (c : Zq) {e : Nat} (he : e < 2048) :
    ∑ k ∈ Finset.range 1024, (if e = k then c else if e = k + 1024 then -c else 0) * x ^ k = c * x ^ e := by
  by_cases h : e < 1024
  · rw [Finset.sum_eq_single e]
    · rw [if_pos rfl]
    · intro k hk hne
      rw [if_neg hne.symm, if_neg (by omega), zero_mul]
    · exact fun hmem => absurd (Finset.mem_range.2 h) hmem
  · have hsplit : e = e - 1024 + 1024 := by omega
    rw [Finset.sum_eq_single (e - 1024)]
    · rw [if_neg (by omega), if_pos hsplit]
      conv_rhs => rw [hsplit, pow_add, hx]
      ring
    · intro k hk hne
      rw [if_neg (by have := Finset.mem_range.1 hk; omega), if_neg (by omega), zero_mul]
    · exact fun hmem => absurd (Finset.mem_range.2 (by omega)) hmem

/-- The points of the transform are roots of X^1024 + 1, so it takes the negacyclic product to the pointwise one. -/
theorem transform_negacyclic (a b : Nat → Zq) (i : Nat) :
    transform (negacyclic a b) i = transform a i * transform b i := by
  simp only [transform, negacyclic, Finset.sum_mul_sum]
  generalize hx : psiZq ^ (2 * brv10 i + 1) = x
  have hroot : x ^ 1024 = -1 := hx ▸ psiZq_odd_pow (brv10 i)
  simp only [Finset.sum_mul]
  rw [Finset.sum_comm]
  refine Finset.sum_congr rfl fun m hm => ?_
  rw [Finset.sum_comm]
  refine Finset.sum_congr rfl fun n hn => ?_
  have hm := Finset.mem_range.1 hm
  have hn := Finset.mem_range.1 hn
  rw [sum_wrapped hroot _ (by omega)]
  ring

end Sys2Proof.Machine

/-! Part 2: the commands over the residues modulo q (R163, R164, R180). -/

namespace Sys2Proof.Machine

open Claims (SlotsKeptBut)

/-! ### The formulas as residues -/

theorem cast_modq (x : Int) : ((modq x : Int) : Zq) = (x : Zq) := ZMod.intCast_mod x 12289

theorem cast_residue (x : Int) : ((residue x : Nat) : Zq) = (x : Zq) := by
  rw [← Int.cast_natCast, residue_cast, cast_modq]

theorem cast_mod_q (n : Nat) : ((n % Config.q : Nat) : Zq) = (n : Zq) := ZMod.natCast_mod n 12289

/-- R160 over the integers is the transform of the residues. -/
theorem cast_nttAt (a : Nat → Int) (i : Nat) : ((nttAt a i : Nat) : Zq) = transform (fun j => (a j : Zq)) i := by
  rw [nttAt_eq, cast_mod_q, Nat.cast_sum]
  refine Finset.sum_congr rfl fun j _ => ?_
  rw [Nat.cast_mul, Nat.cast_pow, cast_residue, pow_mul]
  rfl

/-- R161 over the integers is the inverse transform of the residues. -/
theorem cast_inttAt (a : Nat → Int) (j : Nat) :
    ((inttAt a j : Nat) : Zq) = inverseTransform (fun i => (a i : Zq)) j := by
  rw [inttAt_eq, cast_mod_q, Nat.cast_mul, Nat.cast_sum]
  refine congrArg (fun z : Zq => 12277 * z) (Finset.sum_congr rfl fun i _ => ?_)
  rw [Nat.cast_mul, Nat.cast_pow, cast_residue, pow_mul]
  rfl

/-- A canonical residue is determined by its class. -/
theorem eq_emod_of_cast_eq {x y : Int} (h0 : 0 ≤ x) (hq : x < 12289) (h : (x : Zq) = (y : Zq)) : x = y % 12289 :=
  (Int.emod_eq_of_lt h0 hq).symm.trans ((ZMod.intCast_eq_intCast_iff' x y 12289).1 h)

/-! ### What a slot holds modulo q -/

/-- The coefficients of a slot as residues. -/
def State.residues (s : State) (d : Slot) (j : Nat) : Zq := ((s.s32 d j : Int) : Zq)

/-- Slot `d` holds the canonical residues `f`. -/
def State.Holds (s : State) (d : Slot) (f : Nat → Zq) : Prop :=
  ∀ j, j < 1024 → 0 ≤ s.s32 d j ∧ s.s32 d j < 12289 ∧ s.residues d j = f j

theorem State.Holds.residues_eq {s : State} {d : Slot} {f : Nat → Zq} (h : s.Holds d f) {j : Nat} (hj : j < 1024) :
    s.residues d j = f j := (h j hj).2.2

theorem State.Holds.toInt_eq {s : State} {d : Slot} {f : Nat → Zq} (h : s.Holds d f) {j : Nat} (hj : j < 1024)
    {y : Int} (hy : f j = (y : Zq)) : (s.coeff d j).toInt = y % 12289 := by
  obtain ⟨h0, hq, hf⟩ := h j hj
  exact eq_emod_of_cast_eq h0 hq (hf.trans hy)

/-- A slot the command keeps has the residues it had. -/
theorem residues_of_kept {s t : State} {ds : List Slot} (h : SlotsKeptBut s t ds) {e : Slot} (he : e ∉ ds) {j : Nat}
    (hj : j < 1024) : t.residues e j = s.residues e j := by
  rw [State.residues, State.residues, State.s32, State.s32, h e he j hj]

/-- A command that writes numbers below q into slot `d`. -/
theorem exists_slotHoldsResidues {s : State} {i : Instr} {d : Slot} {f : Nat → Nat} {op : BitVec 6}
    (hf : ∀ j, f j < 12289)
    (h : exec i s = .next ((s.setSlot d (polyOf fun j => wrap32 (f j))).complete op .success)) :
    ∃ t, exec i s = .next t ∧ t.Holds d (fun j => (f j : Zq)) ∧ SlotsKeptBut s t [d] := by
  obtain ⟨t, ht, hcoeff, hkept, -⟩ := exists_slotWritten h
  refine ⟨t, ht, fun j hj => ?_, hkept⟩
  have hlt := hf j
  have hs32 : t.s32 d j = (f j : Int) := by rw [State.s32, hcoeff j hj, toInt_wrap32 (by omega) (by omega)]
  exact ⟨by omega, by omega, by rw [State.residues, hs32, Int.cast_natCast]⟩

theorem exists_nttf (s : State) (d a : Slot) :
    ∃ t, exec (.nttf d a) s = .next t ∧ t.Holds d (transform (s.residues a)) ∧ SlotsKeptBut s t [d] := by
  have h := exists_slotHoldsResidues (nttAt_lt (s.s32 a)) (exec_nttf s d a)
  simp only [cast_nttAt] at h
  exact h

theorem exists_ntti (s : State) (d a : Slot) :
    ∃ t, exec (.ntti d a) s = .next t ∧ t.Holds d (inverseTransform (s.residues a)) ∧ SlotsKeptBut s t [d] := by
  have h := exists_slotHoldsResidues (inttAt_lt (s.s32 a)) (exec_ntti s d a)
  simp only [cast_inttAt] at h
  exact h

theorem exists_pmul (s : State) (d a b : Slot) :
    ∃ t, exec (.pmul d a b) s = .next t ∧ t.Holds d (fun j => s.residues a j * s.residues b j) := by
  obtain ⟨t, ht, hcoeff, -⟩ := exists_slotWritten (exec_pmul s d a b)
  refine ⟨t, ht, fun j hj => ?_⟩
  have hs32 : t.s32 d j = modq (s.s32 a j * s.s32 b j) := by rw [State.s32, hcoeff j hj, toInt_wrap32_modq]
  rw [State.residues, hs32, cast_modq, Int.cast_mul]
  exact ⟨modq_nonneg _, modq_lt _, rfl⟩

/-! ### The transforms undo each other -/

/-- Settles O15: the slots hold the transform and then the inverse transform of it. -/
theorem nttiUndoesNttf : Obligations.NttiUndoesNttf := by
  intro s a d e
  obtain ⟨t, ht, hforward, -⟩ := exists_nttf s d a
  obtain ⟨u, hu, hback, -⟩ := exists_ntti t e d
  refine ⟨t, u, ht, hu, fun j hj => hback.toInt_eq hj ?_⟩
  rw [inverseTransform_congr (fun i hi => hforward.residues_eq hi), inverseTransform_transform _ hj]
  rfl

/-- Settles O16: the slots hold the inverse transform and then the transform of it. -/
theorem nttfUndoesNtti : Obligations.NttfUndoesNtti := by
  intro s a d e
  obtain ⟨t, ht, hback, -⟩ := exists_ntti s d a
  obtain ⟨u, hu, hforward, -⟩ := exists_nttf t e d
  refine ⟨t, u, ht, hu, fun i hi => hforward.toInt_eq hi ?_⟩
  rw [transform_congr (fun j hj => hback.residues_eq hj), transform_inverseTransform _ hi]
  rfl

/-! ### Linearity -/

theorem residues_add {s : State} {a b c : Slot} {j : Nat}
    (h : (s.coeff c j).toInt % 12289 = ((s.coeff a j).toInt + (s.coeff b j).toInt) % 12289) :
    s.residues c j = s.residues a j + s.residues b j :=
  ((ZMod.intCast_eq_intCast_iff' _ _ 12289).2 h).trans (Int.cast_add _ _)

/-- Settles O18: over the residues slot c is the sum, and the transform is additive. -/
theorem nttfIsLinear : Obligations.NttfIsLinear := by
  intro s a b c d h
  obtain ⟨ta, hta, ha, -⟩ := exists_nttf s d a
  obtain ⟨tb, htb, hb, -⟩ := exists_nttf s d b
  obtain ⟨tc, htc, hc, -⟩ := exists_nttf s d c
  refine ⟨ta, tb, tc, hta, htb, htc, fun i hi => hc.toInt_eq hi ?_⟩
  rw [transform_congr (fun j hj => residues_add (h j hj)), transform_add, ← ha.residues_eq hi, ← hb.residues_eq hi]
  exact (Int.cast_add _ _).symm

/-- Settles O60: over the residues slot c is the sum, and the inverse transform is additive. -/
theorem nttiIsLinear : Obligations.NttiIsLinear := by
  intro s a b c d h
  obtain ⟨ta, hta, ha, -⟩ := exists_ntti s d a
  obtain ⟨tb, htb, hb, -⟩ := exists_ntti s d b
  obtain ⟨tc, htc, hc, -⟩ := exists_ntti s d c
  refine ⟨ta, tb, tc, hta, htb, htc, fun j hj => hc.toInt_eq hj ?_⟩
  rw [inverseTransform_congr (fun i hi => residues_add (h i hi)), inverseTransform_add, ← ha.residues_eq hj,
    ← hb.residues_eq hj]
  exact (Int.cast_add _ _).symm

/-! ### The product -/

/-- Settles O17: NTTI undoes the transform of the negacyclic product, which the pointwise product is. -/
theorem transformsMultiplyNegacyclically : Obligations.TransformsMultiplyNegacyclically := by
  intro s a b x y z r hxb hxy
  obtain ⟨t1, ht1, hx, hkept1⟩ := exists_nttf s x a
  obtain ⟨t2, ht2, hy, hkept2⟩ := exists_nttf t1 y b
  obtain ⟨t3, ht3, hz⟩ := exists_pmul t2 z x y
  obtain ⟨t4, ht4, hr, -⟩ := exists_ntti t3 r z
  have hb : ∀ j, j < 1024 → t1.residues b j = s.residues b j := fun j hj =>
    residues_of_kept hkept1 (by simpa using hxb.symm) hj
  have hproduct : ∀ i, i < 1024 → t3.residues z i = transform (negacyclic (s.residues a) (s.residues b)) i :=
    fun i hi => by
      rw [hz.residues_eq hi, residues_of_kept hkept2 (by simpa using hxy) hi, hx.residues_eq hi, hy.residues_eq hi,
        transform_congr hb, transform_negacyclic]
  refine ⟨t1, t2, t3, t4, ht1, ht2, ht3, ht4, fun k hk => hr.toInt_eq hk ?_⟩
  rw [inverseTransform_congr hproduct, inverseTransform_transform _ hk]
  simp only [negacyclic, State.residues, State.s32]
  push_cast
  rfl

end Sys2Proof.Machine

/-! Part 3: the two schedules (R165, R166). A level works on blocks of `2 * t` coefficients, by one butterfly for each pair
at the distance `t`; both are described by what a butterfly does to a pair. -/

namespace Sys2Proof.Machine

/-! ### Bit reversal, digit by digit -/

/-- A lowest digit comes first in the reversed number, and the others move down by one place. -/
theorem brv10_two_mul_add {p c : Nat} (hp : p < 512) (hc : c < 2) : 2 * brv10 (2 * p + c) = 1024 * c + brv10 p := by
  have hhalf : (2 * p + c) / 2 = p := by omega
  have hlow : (decide ((2 * p + c) % 2 = 1)).toNat = c := by
    interval_cases c
    · simp
    · simp
  have htop : p.testBit 9 = false := Nat.testBit_lt_two_pow hp
  simp only [brv10, List.range_succ, List.range_zero, List.nil_append, List.cons_append, List.map_cons, List.map_nil,
    List.sum_cons, List.sum_nil, Nat.testBit_zero, Nat.testBit_succ (2 * p + c), hhalf, hlow, htop, Bool.toNat_false]
  ring

/-- The highest of the digits below 1024 comes first of all. -/
theorem brv10_two_pow_add {l p : Nat} (hl : l ≤ 9) (hp : p < 2 ^ l) : brv10 (2 ^ l + p) = 2 ^ (9 - l) + brv10 p := by
  induction l generalizing p with
  | zero =>
    obtain rfl : p = 0 := by omega
    decide
  | succ l ih =>
    have hpow : 2 ^ (l + 1) = 2 * 2 ^ l := by rw [pow_succ, mul_comm]
    have hexp : 2 ^ (9 - l) = 2 * 2 ^ (9 - (l + 1)) := by
      rw [← pow_succ', show 9 - (l + 1) + 1 = 9 - l by omega]
    have hle : 2 * 2 ^ l ≤ 512 := hpow ▸ Nat.pow_le_pow_right (n := 2) (by omega) hl
    have hsplit : 2 ^ (l + 1) + p = 2 * (2 ^ l + p / 2) + p % 2 := by omega
    have hdigit := brv10_two_mul_add (p := 2 ^ l + p / 2) (c := p % 2) (by omega) (by omega)
    have hrest := brv10_two_mul_add (p := p / 2) (c := p % 2) (by omega) (by omega)
    rw [← hsplit, ih (by omega) (by omega)] at hdigit
    rw [Nat.div_add_mod] at hrest
    omega

/-! ### Butterflies -/

theorem cast_psiRev (k : Nat) : ((psiRev k : Nat) : Zq) = psiZq ^ brv10 k := by
  rw [psiRev, psiPow_eq, cast_mod_q, Nat.cast_pow]
  rfl

theorem cast_psiInvRev (k : Nat) : ((psiInvRev k : Nat) : Zq) = psiInvZq ^ brv10 k := by
  rw [psiInvRev, psiInvPow_eq, cast_mod_q, Nat.cast_pow]
  rfl

/-- Every index is the lower or the upper one of a pair. -/
theorem exists_pair {t m j : Nat} (hj : j < 2 * t * m) :
    ∃ p r, p < m ∧ r < t ∧ (j = 2 * t * p + r ∨ j = 2 * t * p + (t + r)) := by
  have ht : 0 < 2 * t := Nat.pos_of_ne_zero fun h => by simp [h] at hj
  have hp : j / (2 * t) < m := Nat.div_lt_of_lt_mul hj
  have hmod := Nat.mod_lt j ht
  have hdiv := Nat.div_add_mod j (2 * t)
  by_cases hlow : j % (2 * t) < t
  · exact ⟨_, _, hp, hlow, .inl hdiv.symm⟩
  · exact ⟨_, j % (2 * t) - t, hp, by omega, .inr (by omega)⟩

theorem pair_lt {t m p r : Nat} (hp : p < m) (hr : r < t) : 2 * t * p + (t + r) < 2 * t * m :=
  calc 2 * t * p + (t + r)
    _ < 2 * t * (p + 1) := by rw [Nat.mul_succ]; omega
    _ ≤ 2 * t * m := Nat.mul_le_mul_left _ hp

section

variable {m t p r : Nat} (ht : 512 / m = t) (hr : r < t) (a : Nat → Int)

include ht hr

theorem cast_ctLevel_low :
    ((ctLevel m a (2 * t * p + r) : Int) : Zq) =
      (a (2 * t * p + r) : Zq) + (a (2 * t * p + (t + r)) : Zq) * psiZq ^ brv10 (m + p) := by
  have hmod : (2 * t * p + r) % (2 * t) = r := by rw [Nat.mul_add_mod, Nat.mod_eq_of_lt (by omega)]
  have hdiv : (2 * t * p + r) / (2 * t) = p := by
    rw [Nat.mul_add_div (by omega), Nat.div_eq_of_lt (by omega), Nat.add_zero]
  have hpartner : 2 * t * p + r + t = 2 * t * p + (t + r) := by omega
  simp only [ctLevel, ht, hmod, hdiv, if_pos hr, hpartner, cast_modq, Int.cast_add, Int.cast_mul, Int.cast_natCast,
    cast_psiRev]

theorem cast_ctLevel_high :
    ((ctLevel m a (2 * t * p + (t + r)) : Int) : Zq) =
      (a (2 * t * p + r) : Zq) - (a (2 * t * p + (t + r)) : Zq) * psiZq ^ brv10 (m + p) := by
  have hmod : (2 * t * p + (t + r)) % (2 * t) = t + r := by rw [Nat.mul_add_mod, Nat.mod_eq_of_lt (by omega)]
  have hdiv : (2 * t * p + (t + r)) / (2 * t) = p := by
    rw [Nat.mul_add_div (by omega), Nat.div_eq_of_lt (by omega), Nat.add_zero]
  have hpartner : 2 * t * p + (t + r) - t = 2 * t * p + r := by omega
  simp only [ctLevel, ht, hmod, hdiv, if_neg (show ¬t + r < t by omega), hpartner, cast_modq, Int.cast_sub, Int.cast_mul,
    Int.cast_natCast, cast_psiRev]

theorem cast_gsLevel_low :
    ((gsLevel m a (2 * t * p + r) : Int) : Zq) = (a (2 * t * p + r) : Zq) + (a (2 * t * p + (t + r)) : Zq) := by
  have hmod : (2 * t * p + r) % (2 * t) = r := by rw [Nat.mul_add_mod, Nat.mod_eq_of_lt (by omega)]
  have hpartner : 2 * t * p + r + t = 2 * t * p + (t + r) := by omega
  simp only [gsLevel, ht, hmod, if_pos hr, hpartner, cast_modq, Int.cast_add]

theorem cast_gsLevel_high :
    ((gsLevel m a (2 * t * p + (t + r)) : Int) : Zq) =
      ((a (2 * t * p + r) : Zq) - (a (2 * t * p + (t + r)) : Zq)) * psiInvZq ^ brv10 (m + p) := by
  have hmod : (2 * t * p + (t + r)) % (2 * t) = t + r := by rw [Nat.mul_add_mod, Nat.mod_eq_of_lt (by omega)]
  have hdiv : (2 * t * p + (t + r)) / (2 * t) = p := by
    rw [Nat.mul_add_div (by omega), Nat.div_eq_of_lt (by omega), Nat.add_zero]
  have hpartner : 2 * t * p + (t + r) - t = 2 * t * p + r := by omega
  simp only [gsLevel, ht, hmod, hdiv, if_neg (show ¬t + r < t by omega), hpartner, cast_modq, Int.cast_sub, Int.cast_mul,
    Int.cast_natCast, cast_psiInvRev]

end

/-- The size of a half block of the level with `2 ^ l` blocks. -/
theorem halfBlock_eq {l : Nat} (hl : l ≤ 9) : 512 / 2 ^ l = 2 ^ (9 - l) := by
  rw [show 512 = 2 ^ 9 from rfl, Nat.pow_div hl Nat.two_pos]

theorem blocks_eq {l : Nat} (hl : l ≤ 9) : 2 * 2 ^ (9 - l) * 2 ^ l = 1024 := by
  rw [mul_assoc, ← pow_add, Nat.sub_add_cancel hl]
  rfl

/-! ### The Cooley–Tukey schedule -/

/-- The first `l` levels of the Cooley–Tukey schedule. -/
def ctAfter (l : Nat) (a : Nat → Int) : Nat → Int :=
  (List.range l).foldl (fun b l => ctLevel (2 ^ l) b) fun j => modq (a j)

theorem ctSchedule_eq (a : Nat → Int) : ctSchedule a = ctAfter 10 a := rfl

theorem ctAfter_zero (a : Nat → Int) (j : Nat) : ctAfter 0 a j = modq (a j) := rfl

theorem ctAfter_succ (l : Nat) (a : Nat → Int) : ctAfter (l + 1) a = ctLevel (2 ^ l) (ctAfter l a) := by
  rw [ctAfter, List.range_succ, List.foldl_append]; rfl

/-- Coefficient `r` of the polynomial `a`, of `n * t` coefficients, modulo X^t - z. -/
def remainder (a : Nat → Zq) (t n : Nat) (z : Zq) (r : Nat) : Zq := ∑ u ∈ Finset.range n, a (r + t * u) * z ^ u

theorem remainder_one (a : Nat → Zq) (t : Nat) (z : Zq) (r : Nat) : remainder a t 1 z r = a r := by
  simp [remainder]

/-- X^(2t) - z² has the factor X^t - z. -/
theorem remainder_two_mul (a : Nat → Zq) (t n : Nat) (z : Zq) (r : Nat) :
    remainder a t (2 * n) z r = remainder a (2 * t) n (z ^ 2) r + remainder a (2 * t) n (z ^ 2) (t + r) * z := by
  induction n with
  | zero => simp [remainder]
  | succ n ih =>
    have heven : r + t * (2 * n) = r + 2 * t * n := by ring
    have hodd : r + t * (2 * n + 1) = t + r + 2 * t * n := by ring
    unfold remainder at ih ⊢
    rw [Nat.mul_succ, Finset.sum_range_succ, Finset.sum_range_succ, ih, Finset.sum_range_succ, Finset.sum_range_succ,
      heven, hodd]
    ring

/-- Block `p` of the level with `2 ^ l` blocks holds the remainder modulo X^t - z for this power z of PSI. -/
def blockRoot (l p : Nat) : Zq := psiZq ^ (2 ^ (10 - l) + 2 * brv10 p)

section

variable {l p : Nat} (hl : l ≤ 9) (hp : p < 2 ^ l)

include hl hp

/-- The twiddle factor of a block is a square root of the block's own root. -/
theorem blockRoot_eq_sq : blockRoot l p = (psiZq ^ brv10 (2 ^ l + p)) ^ 2 := by
  have hexp : 2 ^ (10 - l) = 2 * 2 ^ (9 - l) := by rw [← pow_succ', show 9 - l + 1 = 10 - l by omega]
  rw [brv10_two_pow_add hl hp, ← pow_mul, blockRoot, hexp]
  ring_nf

/-- The lower half of a block takes the one square root, the upper half the other. -/
theorem blockRoot_succ {c : Nat} (hc : c < 2) :
    blockRoot (l + 1) (2 * p + c) = (-1) ^ c * psiZq ^ brv10 (2 ^ l + p) := by
  have hle : 2 ^ l ≤ 512 := Nat.pow_le_pow_right (n := 2) (by omega) hl
  rw [blockRoot, brv10_two_mul_add (by omega) hc, brv10_two_pow_add hl hp, show 10 - (l + 1) = 9 - l by omega,
    ← psiZq_pow_half, ← pow_mul, ← pow_add]
  ring_nf

end

/-- After `l` levels each of the `2 ^ l` blocks holds the polynomial modulo its own X^t - z. -/
theorem cast_ctAfter (a : Nat → Int) {l : Nat} (hl : l ≤ 10) {p r : Nat} (hp : p < 2 ^ l) (hr : r < 2 ^ (10 - l)) :
    ((ctAfter l a (2 ^ (10 - l) * p + r) : Int) : Zq) =
      remainder (fun j => (a j : Zq)) (2 ^ (10 - l)) (2 ^ l) (blockRoot l p) r := by
  induction l generalizing p r with
  | zero =>
    obtain rfl : p = 0 := by omega
    rw [ctAfter_zero, cast_modq, pow_zero, remainder_one, Nat.mul_zero, Nat.zero_add]
  | succ l ih =>
    have hl9 : l ≤ 9 := by omega
    have hexp : 2 ^ (10 - l) = 2 * 2 ^ (9 - l) := by rw [← pow_succ', show 9 - l + 1 = 10 - l by omega]
    have hblock : p / 2 < 2 ^ l := by rw [pow_succ] at hp; omega
    have hhalf : p % 2 < 2 := Nat.mod_lt p (by omega)
    have hroot := blockRoot_succ hl9 hblock hhalf
    rw [Nat.div_add_mod] at hroot
    rw [show 10 - (l + 1) = 9 - l by omega] at hr ⊢
    have hlow := ih (by omega) hblock (r := r) (by omega)
    have hhigh := ih (by omega) hblock (r := 2 ^ (9 - l) + r) (by omega)
    rw [hexp, blockRoot_eq_sq hl9 hblock] at hlow hhigh
    rw [ctAfter_succ, pow_succ' 2 l, remainder_two_mul]
    rcases Nat.mod_two_eq_zero_or_one p with hc | hc
    · have hindex : 2 ^ (9 - l) * p + r = 2 * 2 ^ (9 - l) * (p / 2) + r := by
        conv_lhs => rw [← Nat.div_add_mod p 2, hc]
        ring
      rw [hindex, cast_ctLevel_low (halfBlock_eq hl9) hr, hlow, hhigh, hroot, hc, pow_zero, one_mul]
    · have hindex : 2 ^ (9 - l) * p + r = 2 * 2 ^ (9 - l) * (p / 2) + (2 ^ (9 - l) + r) := by
        conv_lhs => rw [← Nat.div_add_mod p 2, hc]
        ring
      rw [hindex, cast_ctLevel_high (halfBlock_eq hl9) hr, hlow, hhigh, hroot, hc, pow_one, neg_one_mul, neg_sq]
      ring

/-- The ten levels end in blocks of one coefficient, the value at the block's root (R160). -/
theorem cast_ctSchedule (a : Nat → Int) {i : Nat} (hi : i < 1024) :
    ((ctSchedule a i : Int) : Zq) = transform (fun j => (a j : Zq)) i := by
  have h := cast_ctAfter a (l := 10) le_rfl (p := i) (r := 0) hi (by decide)
  simp only [Nat.sub_self, pow_zero, Nat.one_mul, Nat.add_zero] at h
  rw [ctSchedule_eq, h, remainder, transform]
  refine Finset.sum_congr rfl fun u _ => ?_
  rw [blockRoot, Nat.zero_add, Nat.one_mul, Nat.sub_self, pow_zero, Nat.add_comm]

theorem modq_ctSchedule (a : Nat → Int) (i : Nat) : modq (ctSchedule a i) = ctSchedule a i := by
  rw [ctSchedule_eq, ctAfter_succ]
  simp only [ctLevel]
  split <;> exact modq_idem _

/-- Settles O19: both sides are the canonical residue of one value. -/
theorem nttfAgreesWithCooleyTukey : Obligations.NttfAgreesWithCooleyTukey := by
  intro s d a
  obtain ⟨t, ht, hholds, -⟩ := exists_nttf s d a
  refine ⟨t, ht, fun i hi => ?_⟩
  rw [← modq_ctSchedule]
  exact hholds.toInt_eq hi (cast_ctSchedule _ hi).symm

/-! ### The Gentleman–Sande schedule -/

/-- The first `k` levels of the Gentleman–Sande schedule. -/
def gsAfter (k : Nat) (a : Nat → Int) : Nat → Int :=
  (List.range k).foldl (fun b l => gsLevel (2 ^ (9 - l)) b) fun i => modq (a i)

theorem gsSchedule_eq (a : Nat → Int) : gsSchedule a = gsLast (gsAfter 9 a) := rfl

theorem gsAfter_zero (a : Nat → Int) (i : Nat) : gsAfter 0 a i = modq (a i) := rfl

theorem gsAfter_succ (k : Nat) (a : Nat → Int) : gsAfter (k + 1) a = gsLevel (2 ^ (9 - k)) (gsAfter k a) := by
  rw [gsAfter, List.range_succ, List.foldl_append]; rfl

/-- A Gentleman–Sande level undoes the Cooley–Tukey level of the same blocks, but for a factor 2. -/
theorem cast_gsLevel_of_ctLevel {l : Nat} (hl : l ≤ 9) {a b : Nat → Int} {c : Zq}
    (h : ∀ i, i < 1024 → (a i : Zq) = c * ((ctLevel (2 ^ l) b i : Int) : Zq)) {i : Nat} (hi : i < 1024) :
    ((gsLevel (2 ^ l) a i : Int) : Zq) = c * 2 * (b i : Zq) := by
  have ht := halfBlock_eq hl
  rw [← blocks_eq hl] at hi
  obtain ⟨p, r, hp, hr, hpair⟩ := exists_pair hi
  have hhigh := pair_lt hp hr
  rw [blocks_eq hl] at hhigh
  have haLow := h (2 * 2 ^ (9 - l) * p + r) (by omega)
  have haHigh := h (2 * 2 ^ (9 - l) * p + (2 ^ (9 - l) + r)) hhigh
  rw [cast_ctLevel_low ht hr] at haLow
  rw [cast_ctLevel_high ht hr] at haHigh
  rcases hpair with rfl | rfl
  · rw [cast_gsLevel_low ht hr, haLow, haHigh]
    ring
  · have hinverse := psiZq_pow_mul_psiInvZq_pow (brv10 (2 ^ l + p))
    rw [cast_gsLevel_high ht hr, haLow, haHigh]
    linear_combination (c * 2 * (b (2 * 2 ^ (9 - l) * p + (2 ^ (9 - l) + r)) : Zq)) * hinverse

/-- Level 10 is the level of one block, with N⁻¹ folded in (R166). -/
theorem cast_gsLast (a : Nat → Int) {i : Nat} (hi : i < 1024) :
    ((gsLast a i : Int) : Zq) = 12277 * ((gsLevel (2 ^ 0) a i : Int) : Zq) := by
  have hnInv : ((Config.nInv : Nat) : Zq) = 12277 := rfl
  have homega : ((omegaInv10N : Nat) : Zq) = psiInvZq ^ brv10 1 * 12277 := by
    rw [omegaInv10N, cast_mod_q, Nat.cast_mul, cast_psiInvRev, hnInv]
  simp only [gsLast, gsLevel, pow_zero, Nat.div_one, Nat.mod_eq_of_lt hi, Nat.div_eq_of_lt hi]
  split
  · simp only [cast_modq, Int.cast_mul, Int.cast_add, Int.cast_natCast, hnInv]
    ring
  · simp only [cast_modq, Int.cast_mul, Int.cast_sub, Int.cast_natCast, homega, cast_psiInvRev, Nat.add_zero]
    ring

/-- Level by level the Gentleman–Sande schedule goes the Cooley–Tukey schedule backwards. -/
theorem cast_gsAfter_of_ctSchedule {a b : Nat → Int}
    (h : ∀ i, i < 1024 → (a i : Zq) = ((ctSchedule b i : Int) : Zq)) {k : Nat} (hk : k ≤ 10) {i : Nat} (hi : i < 1024) :
    ((gsAfter k a i : Int) : Zq) = 2 ^ k * ((ctAfter (10 - k) b i : Int) : Zq) := by
  induction k generalizing i with
  | zero => rw [gsAfter_zero, cast_modq, h i hi, pow_zero, one_mul]; rfl
  | succ k ih =>
    have hlevel : 10 - k = 9 - k + 1 := by omega
    have hprev : ∀ i, i < 1024 →
        ((gsAfter k a i : Int) : Zq) = 2 ^ k * ((ctLevel (2 ^ (9 - k)) (ctAfter (9 - k) b) i : Int) : Zq) :=
      fun i hi => by rw [ih (by omega) hi, hlevel, ctAfter_succ]
    rw [gsAfter_succ, cast_gsLevel_of_ctLevel (by omega) hprev hi, pow_succ, show 10 - (k + 1) = 9 - k by omega]

/-- The Gentleman–Sande schedule undoes the Cooley–Tukey schedule, hence is the inverse transform. -/
theorem cast_gsSchedule (a : Nat → Int) {j : Nat} (hj : j < 1024) :
    ((gsSchedule a j : Int) : Zq) = inverseTransform (fun i => (a i : Zq)) j := by
  have hforward : ∀ i, i < 1024 → (a i : Zq) = ((ctSchedule (fun n => (inttAt a n : Int)) i : Int) : Zq) := fun i hi => by
    rw [cast_ctSchedule _ hi]
    simp only [Int.cast_natCast, cast_inttAt]
    exact (transform_inverseTransform (fun i => (a i : Zq)) hi).symm
  have hback := cast_gsAfter_of_ctSchedule hforward (k := 10) le_rfl hj
  rw [gsAfter_succ, Nat.sub_self, ctAfter_zero, cast_modq, Int.cast_natCast, cast_inttAt] at hback
  have hscale : (12277 : Zq) * 2 ^ 10 = 1 := by decide
  rw [gsSchedule_eq, cast_gsLast _ hj, hback, ← mul_assoc, hscale, one_mul]

theorem modq_gsSchedule (a : Nat → Int) (j : Nat) : modq (gsSchedule a j) = gsSchedule a j := by
  rw [gsSchedule_eq]
  simp only [gsLast]
  split <;> exact modq_idem _

/-- Settles O20: both sides are the canonical residue of one value. -/
theorem nttiAgreesWithGentlemanSande : Obligations.NttiAgreesWithGentlemanSande := by
  intro s d a
  obtain ⟨t, ht, hholds, -⟩ := exists_ntti s d a
  refine ⟨t, ht, fun j hj => ?_⟩
  rw [← modq_gsSchedule]
  exact hholds.toInt_eq hj (cast_gsSchedule _ hj).symm

end Sys2Proof.Machine

/-! # Proofs of what the spec infers about the other commands

Part 1: the laws of PMUL and PMULADD (42_pointwise.md §3). -/

namespace Sys2Proof.Machine

/-- Settles O22: each law is one of integers, read modulo q. -/
theorem pointwiseLaws : Obligations.PointwiseLaws := by
  intro s d a b c e
  obtain ⟨tab, hab, vab, -⟩ := exists_slotResidues (exec_pmul s d a b)
  obtain ⟨tba, hba, vba, -⟩ := exists_slotResidues (exec_pmul s d b a)
  obtain ⟨tac, hac, vac, -⟩ := exists_slotResidues (exec_pmul s d a c)
  obtain ⟨tae, hae, vae, -⟩ := exists_slotResidues (exec_pmul s d a e)
  obtain ⟨tadd, hadd, vadd, -⟩ := exists_slotResidues (exec_pmuladd s d a b c)
  refine ⟨tab, tba, tac, tae, tadd, hab, hba, hac, hae, hadd, fun i hi => ⟨?_, ?_, fun hc => ?_, fun he => ?_⟩⟩
  · exact BitVec.eq_of_toInt_eq (by rw [vab i hi, vba i hi, mul_comm])
  · rw [vadd i hi, vab i hi, Int.emod_add_emod]; rfl
  · have hzero : s.s32 c i = 0 := by rw [State.s32, hc]; rfl
    exact BitVec.eq_of_toInt_eq (by rw [vadd i hi, vab i hi, hzero, add_zero])
  · have hsum : s.s32 e i = (s.s32 b i + s.s32 c i) % 12289 := he
    have hprod : s.s32 a i * ((s.s32 b i + s.s32 c i) % 12289) % 12289 = s.s32 a i * (s.s32 b i + s.s32 c i) % 12289 :=
      (Int.mod_modEq _ _).mul_left _
    rw [vae i hi, vab i hi, vac i hi, hsum, hprod, mul_add, Int.add_emod]

end Sys2Proof.Machine

/-! Part 2: the range of the samples (43_sampling.md §2). -/

namespace Sys2Proof.Machine

/-- A byte of acc1 counts at most eight bits and then four. -/
theorem byteOf_sampleAcc1_le (st : Bytes 3072) (i : Nat) {m : Nat} (hm : m < 4) :
    (byteOf (sampleAcc1 st i) m).toNat ≤ 12 := by
  rw [sampleAcc1, streamWord_eq, streamWord_eq, toNat_byteOf_addBits (streamByte st i) _ (by omega) hm]
  exact Nat.add_le_add (bitCount_le _ 0 8) (bitCount_le _ 0 4)

theorem byteOf_sampleAcc2_le (st : Bytes 3072) (i : Nat) {m : Nat} (hm : m < 4) :
    (byteOf (sampleAcc2 st i) m).toNat ≤ 12 := by
  rw [sampleAcc2, streamWord_eq, streamWord_eq, toNat_byteOf_addBits (streamByte st (i + 256)) _ (by omega) hm]
  exact Nat.add_le_add (bitCount_le _ 0 8) (bitCount_le _ 4 4)

theorem byteDiff_within_twelve {x : Word} (h : ∀ m, m < 4 → (byteOf x m).toNat ≤ 12) {m : Nat} (hm : m + 1 < 4) :
    -12 ≤ byteDiff x m ∧ byteDiff x m ≤ 12 := by
  have := h m (by omega)
  have := h (m + 1) hm
  unfold byteDiff
  omega

theorem sampleCoeff_within_twelve (st : Bytes 3072) (k : Nat) : -12 ≤ sampleCoeff st k ∧ sampleCoeff st k ≤ 12 := by
  have hacc : ∀ m, m < 4 →
      (byteOf (if k < 512 then sampleAcc1 st (k / 2) else sampleAcc2 st ((k - 512) / 2)) m).toNat ≤ 12 := by
    split
    · exact fun m => byteOf_sampleAcc1_le st _
    · exact fun m => byteOf_sampleAcc2_le st _
  simp only [sampleCoeff]
  by_cases hpart : k % 2 = 0
  · rw [if_pos hpart]; exact byteDiff_within_twelve hacc (by omega)
  · rw [if_neg hpart]; exact byteDiff_within_twelve hacc (by omega)

/-- Settles O25: a sample is the difference of two counts, and a failure leaves 0. -/
theorem sampleStaysWithinTwelve : Obligations.SampleStaysWithinTwelve := by
  intro s d seed k hseed
  obtain ⟨t, ht, -, -, -, hcoeff⟩ := exists_slotSet (exec_sample_setSlot s d k hseed)
  refine ⟨t, ht, fun i hi => ?_⟩
  rw [hcoeff]
  by_cases hok : (Config.stream (s.seedAt seed) (sampleNonce k) 3072).1 = .success
  · rw [toInt_samplePoly hok hi]; exact sampleCoeff_within_twelve _ i
  · rw [samplePoly_failure hok, nth_zeroPoly]; decide

end Sys2Proof.Machine

/-! Part 3: the round trips of the codec (44_codec.md §2–§5), from the bit layouts of both directions. -/

namespace Sys2Proof.Machine

open Claims (BytesKept)

theorem getLsbD_of_toNat_lt {m w b : Nat} {x : BitVec m} (h : x.toNat < 2 ^ w) (hb : w ≤ b) : x.getLsbD b = false :=
  Nat.testBit_lt_two_pow (h.trans_le (Nat.pow_le_pow_right (by omega) hb))

/-- Fields of `w` bits that are packed into bytes and unpacked from them come back where they fit into `w` bits. -/
theorem unpacked_eq_packed {w : Nat} {bytes : Nat → Byte} {packed unpacked : Nat → Word}
    (hpack : ∀ n, n < w * 1024 → (bytes (n / 8)).getLsbD (n % 8) = (packed (n / w)).getLsbD (n % w))
    (hunpack : ∀ i b, i < 1024 → b < 32 →
      (unpacked i).getLsbD b = (decide (b < w) && (bytes ((w * i + b) / 8)).getLsbD ((w * i + b) % 8)))
    {i : Nat} (hi : i < 1024) (hfit : (packed i).toNat < 2 ^ w) : unpacked i = packed i := by
  apply BitVec.eq_of_getLsbD_eq
  intro b hb
  rw [hunpack i b hi hb]
  by_cases hbw : b < w
  · have hfield : (w * i + b) / w = i := by rw [Nat.mul_add_div (by omega), Nat.div_eq_of_lt hbw, Nat.add_zero]
    have hbit : (w * i + b) % w = b := by rw [Nat.mul_add_mod, Nat.mod_eq_of_lt hbw]
    have hrange : w * i + b < w * 1024 :=
      calc w * i + b < w * (i + 1) := by rw [Nat.mul_succ]; omega
        _ ≤ w * 1024 := Nat.mul_le_mul_left w hi
    rw [decide_eq_true hbw, Bool.true_and, hpack _ hrange, hfield, hbit]
  · rw [decide_eq_false hbw, Bool.false_and, getLsbD_of_toNat_lt hfit (by omega)]

/-- Settles O34: DEC14 reads the bits where ENC14 has laid them out. -/
theorem dec14UndoesEnc14 : Obligations.Dec14UndoesEnc14 := by
  intro s a d o ho hfit
  obtain ⟨t, ht, hpack, -⟩ := (enc14LaysOutTheLowBits s o a).1 ho
  obtain ⟨u, hu, hunpack, -⟩ := (dec14ReadsFourteenBits t d o).1 ho
  exact ⟨t, u, ht, hu, fun i hi =>
    unpacked_eq_packed (bytes := fun k => t.byteAt (o.toNat + k)) hpack hunpack hi (hfit i hi)⟩

/-- Settles O35: inside the range the bits come back to their places, outside it neither command writes. -/
theorem enc14UndoesDec14 : Obligations.Enc14UndoesDec14 := by
  intro s d o ho
  obtain ⟨t, ht, hunpack, -, hkept, -⟩ := (dec14ReadsFourteenBits s d o).1 ho
  obtain ⟨u, hu, hpack, hkeptBut, -⟩ := (enc14LaysOutTheLowBits t o d).1 ho
  refine ⟨t, u, ht, hu, fun a => ?_⟩
  by_cases ha : o.toNat ≤ a ∧ a < o.toNat + 1792
  · apply BitVec.eq_of_getLsbD_eq
    intro b hb
    have hbyte : o.toNat + (8 * (a - o.toNat) + b) / 8 = a := by omega
    have hbit : (8 * (a - o.toNat) + b) % 8 = b := by omega
    have hu := hpack (8 * (a - o.toNat) + b) (by omega)
    rw [hunpack _ _ (by omega) (by omega), Nat.div_add_mod, hbyte, hbit,
      decide_eq_true (Nat.mod_lt _ (by omega)), Bool.true_and] at hu
    exact hu
  · rw [hkeptBut a ha, hkept a]

/-- Settles O36: each part of a message is packed and unpacked at one place. -/
theorem messagesRoundTrip : Obligations.MessagesRoundTrip := by
  refine ⟨fun s b d o seed sd ho hseed hsd hfit => ?_, fun s u r d e o ho hne hfit => ?_⟩
  · obtain ⟨t, ht, hpack, hseedIn, -⟩ := (encaWritesPackedPolynomialThenSeed s o seed b).1 ho hseed
    obtain ⟨v, hv, hunpack, hseedOut, -⟩ := (decaReadsPolynomialAndSeed t d sd o).1 ho hsd
    refine ⟨t, v, ht, hv, fun i hi => ?_, fun j hj => (hseedOut j hj).trans (hseedIn j hj)⟩
    exact unpacked_eq_packed (bytes := fun k => t.byteAt (o.toNat + k)) hpack hunpack hi (hfit i hi)
  · obtain ⟨t, ht, hpackU, hpackR, -⟩ := (encbWritesPackedPolynomialThenHints s o u r).1 ho
    obtain ⟨v, hv, hunpackU, hunpackR, -⟩ := (decbReadsPolynomialAndHints t d e o).1 ho hne
    refine ⟨t, v, ht, hv, fun i hi => ⟨?_, ?_⟩⟩
    · exact unpacked_eq_packed (bytes := fun k => t.byteAt (o.toNat + k)) hpackU hunpackU hi (hfit i hi).1
    · exact unpacked_eq_packed (bytes := fun k => t.byteAt (o.toNat + 1792 + k)) hpackR hunpackR hi (hfit i hi).2

end Sys2Proof.Machine

/-! Part 4: the range of the hints (45_reconciliation.md §1). -/

namespace Sys2Proof.Machine

theorem toNat_wrap32_helpHint_lt (x : Nat → Int) (rb : Bytes 32) (k : Nat) : (wrap32 (helpHint x rb k)).toNat < 4 := by
  obtain ⟨h0, h4⟩ := helpHint_bounds x rb k
  obtain ⟨n, hn⟩ := Int.eq_ofNat_of_zero_le h0
  rw [hn, toNat_wrap32 (by omega)]
  omega

/-- Settles O38: a hint is a residue modulo 4, and a failure leaves 0. -/
theorem helprecHintsAreBelowFour : Obligations.HelprecHintsAreBelowFour := by
  intro s r x seed k hseed
  obtain ⟨t, ht, -, -, -, hcoeff⟩ := exists_slotSet (exec_helprec_setSlot s r x k hseed)
  refine ⟨t, ht, fun i hi => ?_⟩
  rw [hcoeff]
  by_cases hok : (Config.stream (s.seedAt seed) (helprecNonce k) 32).1 = .success
  · rw [helprecPoly, if_pos hok, nth_polyOf _ hi]; exact toNat_wrap32_helpHint_lt _ _ i
  · rw [helprecPoly_failure _ hok, nth_zeroPoly]; decide

end Sys2Proof.Machine
